-- ==== Sys2Proof/Word.lean ====
section
/-!
DEFINITION. The value types of the CCM core: the 32-bit bus word, the byte, the 16-byte block
(00_scope R9) and byte strings (00_scope R18).
-/

namespace Sys2Proof

/-- A 32-bit bus word (00_scope R16). -/
abbrev Word := BitVec 32

/-- A byte. -/
abbrev Byte := BitVec 8

/-- A 16-byte block; element 0 is byte 0, the first byte (00_scope R9, R18). -/
abbrev Block := Vector Byte 16

/-- A byte string of any length; element 0 is byte 0 (00_scope R18). -/
abbrev Bytes := List Byte

end Sys2Proof
end

