-- ==== Sys2Proof/Syntax.lean ====
section
/-!
DEFINITION. The operations the core decodes (30_encoding R110, R116): one constructor per row of
spec/opcode_table.json.
-/

namespace Sys2Proof

/-- An operation of one of the three formats of 30_encoding R110.
Host bus transactions carry their operand fields (R111). A host command carries nothing but its
opcode (R112), which the two rows of several illegal opcodes keep. ACC_WRITE carries ACC_DATA
(R113). `sealMsg` is SEAL and `openMsg` is OPEN. -/
inductive Instr where
  | regRead (addr : BitVec 12)
  | regWrite (addr : BitVec 12) (wdata : Word)
  | bufRead (addr : Word)
  | bufWrite (addr : Word) (wdata : Word) (be : BitVec 4)
  | configure
  | sealMsg
  | openMsg
  | illegal0
  | illegal4to7 (opcode : BitVec 4)
  | illegal8toF (opcode : BitVec 4)
  | accReset
  | accWrite (b : Byte)
  | accPadZero
  | accSum
  deriving DecidableEq, Repr

end Sys2Proof
end

