-- ==== Sys2Proof/WellFormed.lean ====
section
/-!
DEFINITION. Which terms of `Instr` an encoding can stand for. Every field of a fixed width is well
formed by its type; the opcode of a row of several opcodes must be one of that row's
(30_encoding R116: ILLEGAL_4_7 is match 0x4 mask 0xC, ILLEGAL_8_F is match 0x8 mask 0x8).
-/

namespace Sys2Proof

/-- The opcode of ILLEGAL_4_7 matches 0x4 under mask 0xC, that of ILLEGAL_8_F 0x8 under mask 0x8. -/
def Instr.wellFormed : Instr → Bool
  | .regRead _ => true
  | .regWrite _ _ => true
  | .bufRead _ => true
  | .bufWrite _ _ _ => true
  | .configure => true
  | .sealMsg => true
  | .openMsg => true
  | .illegal0 => true
  | .illegal4to7 op => op &&& 0xC#4 == 0x4#4
  | .illegal8toF op => op &&& 0x8#4 == 0x8#4
  | .accReset => true
  | .accWrite _ => true
  | .accPadZero => true
  | .accSum => true

end Sys2Proof
end

