-- ==== Sys2Proof/Decode.lean ====
section
/-!
DEFINITION. The decoder of the three formats (30_encoding R110-R116), total on any byte string and
rejecting by name, and after it the encoder, written from the same tables.

The packing of a bus transaction's tuple into one 70-bit word (kind in bits 1:0, addr in 33:2, be in
37:34, wdata in 69:38) is the model's: the spec gives the kind word and the tuple (R111, log 1).
-/

namespace Sys2Proof

/-- The three kinds of operation (30_encoding R110). -/
inductive Format where
  | bus
  | cmd
  | acc
  deriving DecidableEq, Repr

/-- Why a byte string is no operation word: it has not the format's length, or it sets a bit above
the format's width. -/
inductive DecodeError where
  | wrongLength
  | bitsAboveFormat
  deriving DecidableEq, Repr

/-- How many bytes hold one word of a format: 70, 32 and 10 bits. -/
def formatBytes : Format → Nat
  | .bus => 9
  | .cmd => 4
  | .acc => 2

/-- Format BUS (30_encoding R111): the kind word K in bits 1:0, then addr, be and wdata (log 1).
A field that the kind does not have is not looked at (log 21). -/
def decodeBus (w : BitVec 70) : Instr :=
  let k := w.extractLsb' 0 2
  if k = 0b00#2 then .regRead (w.extractLsb' 2 12)
  else if k = 0b01#2 then .regWrite (w.extractLsb' 2 12) (w.extractLsb' 38 32)
  else if k = 0b10#2 then .bufRead (w.extractLsb' 2 32)
  else .bufWrite (w.extractLsb' 2 32) (w.extractLsb' 38 32) (w.extractLsb' 34 4)

/-- Format CMD (30_encoding R112, R116): OPCODE in bits 3:0; bits 31:4 are ignored (R117). -/
def decodeCmd (w : BitVec 32) : Instr :=
  let op := w.extractLsb' 0 4
  if op = 0x1#4 then .configure
  else if op = 0x2#4 then .sealMsg
  else if op = 0x3#4 then .openMsg
  else if op = 0x0#4 then .illegal0
  else if op &&& 0xC#4 = 0x4#4 then .illegal4to7 op
  else .illegal8toF op

/-- Format ACC (30_encoding R113): ACC_OP in bits 1:0, ACC_DATA in bits 9:2. -/
def decodeAcc (w : BitVec 10) : Instr :=
  let op := w.extractLsb' 0 2
  if op = 0#2 then .accReset
  else if op = 1#2 then .accWrite (w.extractLsb' 2 8)
  else if op = 2#2 then .accPadZero
  else .accSum

/-- The natural number whose little-endian bytes are `bs` (20_memory R87's lane order). -/
def natOfBytes : Bytes → Nat
  | [] => 0
  | b :: bs => b.toNat + 256 * natOfBytes bs

/-- The `n` little-endian bytes of `v`. -/
def bytesOfNat : Nat → Nat → Bytes
  | 0, _ => []
  | n + 1, v => BitVec.ofNat 8 v :: bytesOfNat n (v / 256)

/-- The decoder: one word of the given format, as the bytes that hold it. -/
def decode (f : Format) (bs : Bytes) : Except DecodeError Instr :=
  if bs.length ≠ formatBytes f then .error .wrongLength
  else
    match f with
    | .bus =>
      if natOfBytes bs < 2 ^ 70 then .ok (decodeBus (BitVec.ofNat 70 (natOfBytes bs)))
      else .error .bitsAboveFormat
    | .cmd => .ok (decodeCmd (BitVec.ofNat 32 (natOfBytes bs)))
    | .acc =>
      if natOfBytes bs < 2 ^ 10 then .ok (decodeAcc (BitVec.ofNat 10 (natOfBytes bs)))
      else .error .bitsAboveFormat

/-! ### The encoder -/

/-- A bus transaction's word from its fields (30_encoding R111, log 1). -/
def busWord (wdata : Word) (be : BitVec 4) (addr : Word) (k : BitVec 2) : BitVec 70 :=
  wdata ++ be ++ addr ++ k

/-- The command word of an opcode (30_encoding R112), its ignored bits 0. -/
def cmdWord (op : BitVec 4) : BitVec 32 := op.setWidth 32

/-- An accumulator port word from ACC_DATA and ACC_OP (30_encoding R113). -/
def accWord (data : Byte) (op : BitVec 2) : BitVec 10 := data ++ op

/-- The format of an operation (30_encoding R116). -/
def formatOf : Instr → Format
  | .regRead _ => .bus
  | .regWrite _ _ => .bus
  | .bufRead _ => .bus
  | .bufWrite _ _ _ => .bus
  | .configure => .cmd
  | .sealMsg => .cmd
  | .openMsg => .cmd
  | .illegal0 => .cmd
  | .illegal4to7 _ => .cmd
  | .illegal8toF _ => .cmd
  | .accReset => .acc
  | .accWrite _ => .acc
  | .accPadZero => .acc
  | .accSum => .acc

/-- The word of an operation, as a number: every field that the format does not use is 0. -/
def encodeWord : Instr → Nat
  | .regRead a => (busWord 0 0 (a.setWidth 32) 0b00).toNat
  | .regWrite a d => (busWord d 0 (a.setWidth 32) 0b01).toNat
  | .bufRead a => (busWord 0 0 a 0b10).toNat
  | .bufWrite a d be => (busWord d be a 0b11).toNat
  | .configure => (cmdWord 0x1).toNat
  | .sealMsg => (cmdWord 0x2).toNat
  | .openMsg => (cmdWord 0x3).toNat
  | .illegal0 => (cmdWord 0x0).toNat
  | .illegal4to7 op => (cmdWord op).toNat
  | .illegal8toF op => (cmdWord op).toNat
  | .accReset => (accWord 0 0).toNat
  | .accWrite b => (accWord b 1).toNat
  | .accPadZero => (accWord 0 2).toNat
  | .accSum => (accWord 0 3).toNat

/-- The bytes that hold the word of an operation. -/
def encode (i : Instr) : Bytes := bytesOfNat (formatBytes (formatOf i)) (encodeWord i)

/-! ### The opcode table -/

/-- A row of the opcode map: a word of the format belongs to the row when its bits under `mask`
are `pat` (30_encoding R116). -/
structure OpcodeRow where
  format : Format
  pat : Nat
  mask : Nat
  mnemonic : String
  deriving DecidableEq, Repr

/-- The opcode map of 30_encoding R116 (spec/opcode_table.json). -/
def opcodeTable : List OpcodeRow :=
  [⟨.bus, 0b00, 0b11, "REG_READ"⟩, ⟨.bus, 0b01, 0b11, "REG_WRITE"⟩,
   ⟨.bus, 0b10, 0b11, "BUF_READ"⟩, ⟨.bus, 0b11, 0b11, "BUF_WRITE"⟩,
   ⟨.cmd, 0x1, 0xF, "CONFIGURE"⟩, ⟨.cmd, 0x2, 0xF, "SEAL"⟩, ⟨.cmd, 0x3, 0xF, "OPEN"⟩,
   ⟨.cmd, 0x0, 0xF, "ILLEGAL_0"⟩, ⟨.cmd, 0x4, 0xC, "ILLEGAL_4_7"⟩, ⟨.cmd, 0x8, 0x8, "ILLEGAL_8_F"⟩,
   ⟨.acc, 0x0, 0x3, "ACC_RESET"⟩, ⟨.acc, 0x1, 0x3, "ACC_WRITE"⟩,
   ⟨.acc, 0x2, 0x3, "ACC_PADZERO"⟩, ⟨.acc, 0x3, 0x3, "ACC_SUM"⟩]

/-- The row's mnemonic for each operation. -/
def mnemonicOf : Instr → String
  | .regRead _ => "REG_READ"
  | .regWrite _ _ => "REG_WRITE"
  | .bufRead _ => "BUF_READ"
  | .bufWrite _ _ _ => "BUF_WRITE"
  | .configure => "CONFIGURE"
  | .sealMsg => "SEAL"
  | .openMsg => "OPEN"
  | .illegal0 => "ILLEGAL_0"
  | .illegal4to7 _ => "ILLEGAL_4_7"
  | .illegal8toF _ => "ILLEGAL_8_F"
  | .accReset => "ACC_RESET"
  | .accWrite _ => "ACC_WRITE"
  | .accPadZero => "ACC_PADZERO"
  | .accSum => "ACC_SUM"

/-- The mnemonics of the rows of format `f` that a word of value `w` matches. -/
def rowsMatching (f : Format) (w : Nat) : List String :=
  (opcodeTable.filter fun r => r.format = f ∧ w &&& r.mask = r.pat).map OpcodeRow.mnemonic

/-! ### The host's view of a table word -/

/-- Which format a table word of `nbits` bits stands for. The three formats share bit patterns, so
the width tells them apart: 2 bits (one byte) BUS, 10 bits (two bytes) ACC, 32 bits CMD, and the
whole 70-bit word BUS again. A one-byte word with a bit above the kind set is an opcode (log 2). -/
def tableFormat (nbits w : Nat) : Format :=
  if nbits ≤ 8 then (if w < 4 then .bus else .cmd)
  else if nbits ≤ 16 then .acc
  else if nbits ≤ 32 then .cmd
  else .bus

/-- The operation the decoder reads from a table word, every bit above `nbits` 0. -/
def decodeTableWord (nbits w : Nat) : Option Instr :=
  if w < 2 ^ nbits then
    match decode (tableFormat nbits w) (bytesOfNat (formatBytes (tableFormat nbits w)) w) with
    | .ok i => some i
    | .error _ => none
  else none

end Sys2Proof
end

