-- ==== Sys2Proof/Config.lean ====
section
/-!
DEFINITION. What an implementation fixes and what the spec leaves free: the OPEN parameters of
92_eei_decisions (D5, D24, D35) and the two free choices of 70_reset (R292, R293). The machine uses
one opaque constant `Config.params`, so no proof can see any of these values. Every operation of the
model takes the parameters as an argument, so that a test may give concrete ones.
-/

namespace Sys2Proof

/-- The parameters of one attached core.
* `E` : the forward function of the attached keyed cipher, total on blocks (00_scope R10).
* `cipherBs` : the strap CIPHER_BS (00_scope R11).
* `bufUnits` : BUF_BYTES is `16 * (bufUnits + 4)`: every multiple of 16 from 64 to 2^32 - 16 and
  nothing else (00_scope R12).
* `regBase`, `bufBase` : the host addresses REG_BASE and BUF_BASE of the two windows (00_scope R16);
  no rule depends on them (92 D35).
* `powerOn` : the unspecified byte at each buffer offset after power-on (70_reset R292; log 6).
* `abortPick` : the free choice, per reset and per buffer offset, of 70_reset R293 (log 8). -/
structure Params where
  E : Block → Block
  cipherBs : BitVec 8
  bufUnits : Fin 268435452
  regBase : Nat
  bufBase : Nat
  powerOn : Nat → Byte
  abortPick : Nat → Nat → Fin 3
  deriving Inhabited

/-- BUF_BYTES, the size of the message buffer (00_scope R12). -/
def Params.bufBytes (c : Params) : Nat := 16 * (c.bufUnits.val + 4)

/-- The core the model describes: no proof can see its parameters (logs 6, 7, 8). -/
opaque Config.params : Params

end Sys2Proof
end

