-- ==== Sys2Proof/Machine/State.lean ====
section
/-!
DEFINITION. The state of the CCM core as plain data (10_state R30-R58, 43_sequencer R230), the reasons
a step can stop, and the state after reset (70_reset R291).
-/

namespace Sys2Proof.Machine

/-- Why the machine stops with a fault. -/
inductive Fault where
  /-- Raised by a core step at the sequencer state value 15, which is "never entered" (43 R230) and
  which 93_implementation_defined asks a model to fault on. Safe: no run reaches it (log 20). -/
  | sequencerState15
  deriving DecidableEq, Repr

/-- Why an operation has no meaning. -/
inductive Refusal where
  /-- Raised by an arm of `exec` whose operation has no meaning yet. Safe. -/
  | notModelled (mnemonic : String)
  deriving DecidableEq, Repr

/-- The message buffer as (offset, byte) pairs, offsets strictly rising, no entry equal to what an
unlisted offset reads as (`Params.powerOn`, 70_reset R292). -/
abbrev Memory := List Host.Cell

/-- The result codes of STATUS.ERR (60 R261). Codes 10 to 15 are never produced, and no value of this
type stands for them (log 20). -/
inductive ResultCode where
  | ok
  | invalidBlockSize
  | invalidNonceSize
  | invalidTagSize
  | maxPayloadSizeReached
  | authenticationFailed
  | notConfigured
  | range
  | overlap
  | illegalCommand
  deriving DecidableEq, Repr

/-- The values of the sequencer state register (43 R230); `reserved15` is the value 15. -/
inductive SeqState where
  | idle
  | check
  | init
  | s0
  | b0
  | alen
  | ad
  | adpad
  | pay
  | plpad
  | tag
  | emit
  | verify
  | wipe
  | done
  | reserved15
  deriving DecidableEq, Repr

/-- The running command, the 2-bit scratch register op (10_state R55, 43 R231). -/
inductive SeqOp where
  | configure
  | sealCmd
  | openCmd
  | illegal
  deriving DecidableEq, Repr

/-- The host-visible registers that store a value: the implemented bits of 10_state R36, R39, R41-R48. -/
structure Regs where
  cfgN : BitVec 4
  cfgT : BitVec 5
  doneIe : Bool
  nonce : Block
  nonceLen : BitVec 5
  adOff : Word
  adLen : Word
  inOff : Word
  inLen : Word
  outOff : Word
  outLen : Word
  deriving DecidableEq, Repr

/-- The stored fields of STATUS (10_state R38) but for CONFIGURED, which is the instance's. BUSY is
not stored: it is `state != IDLE` (43 R230, log 18). -/
structure Status where
  done : Bool
  err : ResultCode
  lastOp : BitVec 4
  deriving DecidableEq, Repr

/-- The instance: CONFIGURED and the parameters aN and aT (10_state R50). -/
structure Instance where
  configured : Bool
  n : BitVec 4
  t : BitVec 5
  deriving DecidableEq, Repr

/-- The accumulator ci, p (10_state R51), its port (30_encoding R113, 40 R145: the words issued and
not yet executed, and the last response), and the calls made at the shared cipher port, oldest first
(43 R246; the model's own observation, log 17). -/
structure Engine where
  ci : Block
  p : Fin 16
  port : List (BitVec 10)
  resp : Block
  calls : List Block
  deriving DecidableEq, Repr

/-- The sequencer: its state register and its scratch registers (43 R230, 10_state R55). `plen` is
the spec's P. The counts are naturals; their widths are an invariant (log 12). -/
structure Seq where
  state : SeqState
  op : SeqOp
  ctr : Block
  s0 : Block
  x : Block
  ks : Block
  tagc : Block
  diff : Byte
  blk : Nat
  k : Nat
  code : ResultCode
  rlen : Nat
  plen : Nat
  m : Nat
  q : Nat
  deriving DecidableEq, Repr

/-- What arrives at the core, one event after the other in the total order of 20_memory R95 (log 3).
* `txn w` : a host bus transaction (20_memory R81), its word as `decodeBus` reads it.
* `command w` : the host's write of `w` to CMD together with the command it starts, run to its
  completion as one transition (20_memory R97, 43 preamble; log 4).
* `tick` : one core step (43 preamble).
* `rst level` : the reset input takes this level (70_reset R290). -/
inductive Event where
  | txn (w : BitVec 70)
  | command (w : Word)
  | tick
  | rst (level : Bool)
  deriving DecidableEq, Repr

/-- Everything the spec gives the machine, its reset input and read-data output, and the model's own
`bufStart` (log 9), `draws` (log 8) and `inbox` (log 3). -/
structure State where
  regs : Regs
  status : Status
  inst : Instance
  eng : Engine
  seq : Seq
  buf : Memory
  bufStart : Memory
  rst : Bool
  rdata : Word
  inbox : List Event
  draws : Nat
  deriving DecidableEq, Repr

/-- The block of 16 zero bytes, zeros(16) of 00_scope R18. -/
def zeroBlock : Block := Vector.replicate 16 0#8

/-- The registers after reset (70_reset R291). -/
def Regs.reset : Regs :=
  { cfgN := 0, cfgT := 0, doneIe := false, nonce := zeroBlock, nonceLen := 0, adOff := 0, adLen := 0,
    inOff := 0, inLen := 0, outOff := 0, outLen := 0 }

/-- STATUS after reset (70_reset R291). -/
def Status.reset : Status := { done := false, err := .ok, lastOp := 0 }

/-- No instance exists (10_state R50): after reset and after a CONFIGURE that failed. -/
def Instance.none : Instance := { configured := false, n := 0, t := 0 }

/-- The accumulator after reset (70_reset R291); port and response: logs 5, 11, 17. -/
def Engine.reset : Engine := { ci := zeroBlock, p := 0, port := [], resp := zeroBlock, calls := [] }

/-- The sequencer after reset: IDLE, the scratch all zero (70_reset R291; op: log 10). -/
def Seq.reset : Seq :=
  { state := .idle, op := .configure, ctr := zeroBlock, s0 := zeroBlock, x := zeroBlock, ks := zeroBlock,
    tagc := zeroBlock, diff := 0, blk := 0, k := 0, code := .ok, rlen := 0, plen := 0, m := 0, q := 0 }

/-- The machine right after the power-on reset: every piece of state at the value of 70_reset R291, the
buffer with nothing listed (every byte as at power-on, R292), the inputs idle (logs 3, 11). -/
def State.reset : State :=
  { regs := Regs.reset, status := Status.reset, inst := Instance.none, eng := Engine.reset, seq := Seq.reset,
    buf := [], bufStart := [], rst := false, rdata := 0, inbox := [], draws := 0 }

end Sys2Proof.Machine
end

