-- ==== Sys2Proof/Machine/Flags.lean ====
section
/-!
DEFINITION. The flags (10_state R54): BUSY, the numeric result codes, the STATUS word and the interrupt
output. CCM commands compute no other flag.
-/

namespace Sys2Proof.Machine

/-- The 4-bit value of a result code (60 R261). -/
def ResultCode.bits : ResultCode → BitVec 4
  | .ok => 0
  | .invalidBlockSize => 1
  | .invalidNonceSize => 2
  | .invalidTagSize => 3
  | .maxPayloadSizeReached => 4
  | .authenticationFailed => 5
  | .notConfigured => 6
  | .range => 7
  | .overlap => 8
  | .illegalCommand => 9

/-- The 4-bit value of a sequencer state (43 R230). -/
def SeqState.bits : SeqState → BitVec 4
  | .idle => 0
  | .check => 1
  | .init => 2
  | .s0 => 3
  | .b0 => 4
  | .alen => 5
  | .ad => 6
  | .adpad => 7
  | .pay => 8
  | .plpad => 9
  | .tag => 10
  | .emit => 11
  | .verify => 12
  | .wipe => 13
  | .done => 14
  | .reserved15 => 15

/-- STATUS.BUSY = (state != IDLE) (10_state R32, 43 R230). -/
def State.busy (s : State) : Bool := decide (s.seq.state ≠ .idle)

/-- A host write reaches nothing: while BUSY = 1 (20_memory R89, R90) and while rst = 1 (70_reset R290). -/
def State.locked (s : State) : Bool := s.rst || s.busy

/-- A flag as a bus word. -/
def flagWord (b : Bool) : Word := if b then 1 else 0

/-- STATUS as it is read (42 R190 at 0x014, 10_state R38). -/
def statusWord (s : State) : Word :=
  (s.status.lastOp.setWidth 32 <<< 8) ||| (s.status.err.bits.setWidth 32 <<< 4) |||
    (flagWord s.inst.configured <<< 2) ||| (flagWord s.status.done <<< 1) ||| flagWord s.busy

/-- The interrupt output irq = STATUS.DONE & IRQ_EN.DONE_IE (60 R274, 10_state R57). -/
def irqLine (s : State) : Bool := s.status.done && s.regs.doneIe

end Sys2Proof.Machine
end

