-- ==== Sys2Proof/Machine/Operands.lean ====
section
/-!
DEFINITION. Operand assembly: which register a REG offset names (10_state R33-R49), the word offset of a
BUF transaction (20_memory R82), the operands of CONFIGURE, SEAL and OPEN (30_encoding R114, R115),
their regions (42 R203) and their checks (42 R196, R198, R200).
-/

namespace Sys2Proof.Machine

/-! ### Offsets -/

/-- The registers of the REG window (10_state R33-R49). `nonceWord k` is NONCE<k>. -/
inductive Reg where
  | id
  | info
  | bufSize
  | cfg
  | cmd
  | status
  | irqEn
  | activeCfg
  | nonceWord (k : Fin 4)
  | nonceLen
  | adOff
  | adLen
  | inOff
  | inLen
  | outOff
  | outLen
  | reserved
  deriving DecidableEq, Repr

/-- The register at a REG offset; bits 1:0 of the offset are ignored (20_memory R82). -/
def regAt (addr : BitVec 12) : Reg :=
  match (addr &&& 0xFFC#12).toNat with
  | 0x000 => .id
  | 0x004 => .info
  | 0x008 => .bufSize
  | 0x00C => .cfg
  | 0x010 => .cmd
  | 0x014 => .status
  | 0x018 => .irqEn
  | 0x01C => .activeCfg
  | 0x020 => .nonceWord 0
  | 0x024 => .nonceWord 1
  | 0x028 => .nonceWord 2
  | 0x02C => .nonceWord 3
  | 0x030 => .nonceLen
  | 0x040 => .adOff
  | 0x044 => .adLen
  | 0x048 => .inOff
  | 0x04C => .inLen
  | 0x050 => .outOff
  | 0x054 => .outLen
  | _ => .reserved

/-- The word offset addr & ~3 of a BUF transaction (20_memory R82). -/
def bufWordOffset (addr : Word) : Nat := (addr &&& 0xFFFFFFFC#32).toNat

/-- The word at offset `w` lies inside the buffer (20_memory R85). -/
def bufWordInside (c : Params) (w : Nat) : Bool := decide (w + 4 ≤ c.bufBytes)

/-- Byte lane `j` of a bus word: bits 8j+7:8j (20_memory R87). -/
def lane (w : Word) (j : Nat) : Byte := w.extractLsb' (8 * j) 8

/-- The bus word of four lanes (20_memory R87). -/
def wordOfLanes (b0 b1 b2 b3 : Byte) : Word := b3 ++ b2 ++ b1 ++ b0

/-! ### Operands of the commands (30_encoding R114, R115) -/

/-- aN as a number. -/
def State.nonceSize (s : State) : Nat := s.inst.n.toNat

/-- aT as a number. -/
def State.tagSize (s : State) : Nat := s.inst.t.toNat

/-- The first `n` bytes of the nonce store (10_state R41, 30_encoding R115). -/
def nonceBytes (s : State) (n : Nat) : Bytes := s.regs.nonce.toList.take n

/-- The largest payload for nonce length `n` (41 R161). -/
def maxPayload (n : Nat) : Nat := 2 ^ (8 * (15 - n)) - 1

/-! ### Regions and checks -/

/-- InBuf(off, len), without wrap-around (42 R203). -/
def inBuf (c : Params) (off len : Nat) : Bool := decide (off + len ≤ c.bufBytes)

/-- Ovl(o1, l1, o2, l2), without wrap-around (42 R203). -/
def overlaps (o1 l1 o2 l2 : Nat) : Bool :=
  decide (0 < l1 ∧ 0 < l2 ∧ o1 < o2 + l2 ∧ o2 < o1 + l1)

/-- The RANGE and OVERLAP checks of SEAL and OPEN for an output of `outBytes` bytes (42 R198, R200, R203). -/
def regionCheck (c : Params) (s : State) (outBytes : Nat) : ResultCode :=
  if !inBuf c s.regs.adOff.toNat s.regs.adLen.toNat || !inBuf c s.regs.inOff.toNat s.regs.inLen.toNat ||
      !inBuf c s.regs.outOff.toNat outBytes then .range
  else if overlaps s.regs.outOff.toNat outBytes s.regs.adOff.toNat s.regs.adLen.toNat then .overlap
  else if overlaps s.regs.outOff.toNat outBytes s.regs.inOff.toNat s.regs.inLen.toNat &&
      decide (s.regs.outOff ≠ s.regs.inOff) then .overlap
  else .ok

/-- SealCheck (42 R198). -/
def sealCheck (c : Params) (s : State) : ResultCode :=
  if s.inst.configured = false then .notConfigured
  else if s.regs.nonceLen.toNat ≠ s.nonceSize then .invalidNonceSize
  else if s.regs.inLen.toNat > maxPayload s.nonceSize then .maxPayloadSizeReached
  else regionCheck c s (s.regs.inLen.toNat + s.tagSize)

/-- OpenCheck (42 R200). -/
def openCheck (c : Params) (s : State) : ResultCode :=
  if s.inst.configured = false then .notConfigured
  else if s.regs.nonceLen.toNat ≠ s.nonceSize then .invalidNonceSize
  else if s.regs.inLen.toNat ≤ s.tagSize then .invalidTagSize
  else if s.regs.inLen.toNat - s.tagSize > maxPayload s.nonceSize then .maxPayloadSizeReached
  else regionCheck c s (s.regs.inLen.toNat - s.tagSize)

/-- The checks of CONFIGURE (42 R196) on N_req = CFG[3:0], T_req = CFG[12:8] and CIPHER_BS. -/
def configCheck (c : Params) (s : State) : ResultCode :=
  if c.cipherBs.toNat ≠ 16 then .invalidBlockSize
  else if ¬(7 ≤ s.regs.cfgN.toNat ∧ s.regs.cfgN.toNat ≤ 13) then .invalidNonceSize
  else if ¬(4 ≤ s.regs.cfgT.toNat ∧ s.regs.cfgT.toNat ≤ 16 ∧ s.regs.cfgT.toNat % 2 = 0) then .invalidTagSize
  else .ok

end Sys2Proof.Machine
end

