-- ==== Sys2Proof/Machine/Ops.lean ====
section
/-!
DEFINITION. The named operations over the buffer, the registers and the accumulator, the start of a
command and its completion. Completion is this hardware's one exception entry (60, section 4): an error
is a result code, and the host's return from it is the write-one-to-clear of STATUS.
-/

namespace Sys2Proof.Machine

/-! ### The message buffer -/

/-- The byte at offset `a`; an unlisted offset holds its power-on byte (70_reset R292, log 6). -/
def Memory.read (c : Params) : Memory → Nat → Byte
  | [], a => c.powerOn a
  | (x, v) :: m, a => if a = x then v else Memory.read c m a

/-- Store a byte, keeping the canonical form: offsets rising, no entry equal to the power-on byte. -/
def Memory.write (c : Params) : Memory → Nat → Byte → Memory
  | [], a, b => if b = c.powerOn a then [] else [(a, b)]
  | (x, v) :: m, a, b =>
    if a < x then (if b = c.powerOn a then (x, v) :: m else (a, b) :: (x, v) :: m)
    else if a = x then (if b = c.powerOn a then m else (a, b) :: m)
    else (x, v) :: Memory.write c m a b

/-- The canonical form: offsets strictly rising, no entry equal to the power-on byte. -/
abbrev Memory.wf (c : Params) (m : Memory) : Prop :=
  m.Pairwise (fun e f => e.1 < f.1) ∧ ∀ e ∈ m, e.2 ≠ c.powerOn e.1

/-- Every listed offset is a buffer offset, 0 to BUF_BYTES - 1 (20_memory R80). -/
abbrev Memory.inside (c : Params) (m : Memory) : Prop := ∀ e ∈ m, e.1 < c.bufBytes

/-- BufRead(off, n) (00_scope R21). -/
def Memory.readBytes (c : Params) (m : Memory) : Nat → Nat → Bytes
  | _, 0 => []
  | off, n + 1 => Memory.read c m off :: Memory.readBytes c m (off + 1) n

/-- BufWrite(off, |bs|, bs), in increasing offset (00_scope R21). -/
def Memory.writeBytes (c : Params) : Memory → Nat → Bytes → Memory
  | m, _, [] => m
  | m, off, b :: bs => Memory.writeBytes c (Memory.write c m off b) (off + 1) bs

/-- One byte lane of a BUF_WRITE: stored when its enable is set (20_memory R84). -/
def Memory.writeLane (c : Params) (w : Nat) (wdata : Word) (be : BitVec 4) (m : Memory) (j : Nat) : Memory :=
  if be.getLsbD j then Memory.write c m (w + j) (lane wdata j) else m

/-- The word at offset `w` (20_memory R84, R87). -/
def Memory.readWord (c : Params) (m : Memory) (w : Nat) : Word :=
  wordOfLanes (Memory.read c m w) (Memory.read c m (w + 1)) (Memory.read c m (w + 2)) (Memory.read c m (w + 3))

/-- A BUF_WRITE's four lanes (20_memory R84). -/
def Memory.writeWord (c : Params) (m : Memory) (w : Nat) (wdata : Word) (be : BitVec 4) : Memory :=
  [0, 1, 2, 3].foldl (Memory.writeLane c w wdata be) m

/-! ### The accumulator (40_accumulator) -/

/-- ACC_RESET (40 R144). -/
def accReset (e : Engine) : Engine := { e with ci := zeroBlock, p := 0 }

/-- ACC_WRITE (40 R141). -/
def accWrite (c : Params) (b : Byte) (e : Engine) : Engine :=
  let ci := e.ci.set e.p (e.ci[e.p] ^^^ b)
  if e.p = 15 then { e with ci := c.E ci, p := 0, calls := e.calls ++ [ci] }
  else { e with ci := ci, p := e.p + 1 }

/-- ACC_PADZERO (40 R142). -/
def accPadZero (c : Params) (e : Engine) : Engine :=
  if e.p = 0 then e else { e with ci := c.E e.ci, p := 0, calls := e.calls ++ [e.ci] }

/-- ACC_SUM (40 R143): flush as ACC_PADZERO does, then respond with ci. -/
def accSum (c : Params) (e : Engine) : Engine :=
  let f := accPadZero c e
  { f with resp := f.ci }

/-- acc.write(s), the ACC_WRITEs of a byte string (40 R147). -/
def accWriteAll (c : Params) (bs : Bytes) (e : Engine) : Engine :=
  bs.foldl (fun e b => accWrite c b e) e

/-- One port command word, by ACC_OP (30_encoding R113). -/
def accPortExec (c : Params) (w : BitVec 10) (e : Engine) : Engine :=
  if w.extractLsb' 0 2 = 0#2 then accReset e
  else if w.extractLsb' 0 2 = 1#2 then accWrite c (w.extractLsb' 2 8) e
  else if w.extractLsb' 0 2 = 2#2 then accPadZero c e
  else accSum c e

/-- The port executes its words one at a time, in the order issued (40 R145). -/
def accDrain (c : Params) : List (BitVec 10) → Engine → Engine
  | [], e => { e with port := [] }
  | w :: ws, e => accDrain c ws (accPortExec c w { e with port := ws })

/-- The sequencer issues port words; they run to the last before its next action (40 R145). -/
def accIssue (c : Params) (ws : List (BitVec 10)) (e : Engine) : Engine := accDrain c (e.port ++ ws) e

/-- The port words of acc.write(s) (40 R147). -/
def accWriteWords (bs : Bytes) : List (BitVec 10) := bs.map fun b => accWord b 1

/-- The sequencer's own call at the shared cipher port (40 R145, 43 R246). -/
def cipherCall (b : Block) (e : Engine) : Engine := { e with calls := e.calls ++ [b] }

/-! ### Start and completion of a command -/

/-- The running command an opcode names (43 R231). -/
def seqOpOf (op : BitVec 4) : SeqOp :=
  if op = 0x1#4 then .configure
  else if op = 0x2#4 then .sealCmd
  else if op = 0x3#4 then .openCmd
  else .illegal

/-- start(op) (42 R194, 43 R231). BUSY is 1 because the state is CHECK. The buffer is noted for
70_reset R293 (log 9). -/
def State.start (op : BitVec 4) (s : State) : State :=
  { s with
    status := { done := false, err := .ok, lastOp := op }
    seq := { s.seq with state := .check, op := seqOpOf op }
    bufStart := s.buf }

/-- finish(code) (42 R195): the completion event, after the command's register results. -/
def State.finish (code : ResultCode) (s : State) : State :=
  { s with
    status := { s.status with err := code, done := true }
    seq := { s.seq with state := .idle } }

/-- The host's acknowledgement (42 R202, 60 R273): the write-one-to-clear of STATUS.DONE. -/
def State.acknowledge (wdata : Word) (s : State) : State :=
  if wdata.getLsbD 1 then { s with status := { s.status with done := false } } else s

/-! ### The registers -/

/-- The value a register reads as (42 R190). -/
def regRead (c : Params) (s : State) : Reg → Word
  | .id => 0x43434D01
  | .info => (c.cipherBs.setWidth 32 <<< 16) ||| 0x1010
  | .bufSize => BitVec.ofNat 32 c.bufBytes
  | .cfg => (s.regs.cfgT.setWidth 32 <<< 8) ||| s.regs.cfgN.setWidth 32
  | .cmd => 0
  | .status => statusWord s
  | .irqEn => flagWord s.regs.doneIe
  | .activeCfg => (s.inst.t.setWidth 32 <<< 8) ||| s.inst.n.setWidth 32
  | .nonceWord k =>
    wordOfLanes s.regs.nonce[4 * k.val] s.regs.nonce[4 * k.val + 1] s.regs.nonce[4 * k.val + 2]
      s.regs.nonce[4 * k.val + 3]
  | .nonceLen => s.regs.nonceLen.setWidth 32
  | .adOff => s.regs.adOff
  | .adLen => s.regs.adLen
  | .inOff => s.regs.inOff
  | .inLen => s.regs.inLen
  | .outOff => s.regs.outOff
  | .outLen => s.regs.outLen
  | .reserved => 0

/-- The nonce store with word `k` written (42 R191 at 0x020-0x02C). -/
def writeNonceWord (nb : Block) (k : Fin 4) (d : Word) : Block :=
  (((nb.set (4 * k.val) (lane d 0)).set (4 * k.val + 1) (lane d 1)).set (4 * k.val + 2) (lane d 2)).set
    (4 * k.val + 3) (lane d 3)

/-- A write that reaches the register window (42 R191): the implemented bits are stored, CMD starts a
command, STATUS acknowledges, the read-only and reserved ones keep nothing. -/
def regWrite (s : State) (d : Word) : Reg → State
  | .id => s
  | .info => s
  | .bufSize => s
  | .cfg => { s with regs := { s.regs with cfgN := d.extractLsb' 0 4, cfgT := d.extractLsb' 8 5 } }
  | .cmd => s.start (d.extractLsb' 0 4)
  | .status => s.acknowledge d
  | .irqEn => { s with regs := { s.regs with doneIe := d.getLsbD 0 } }
  | .activeCfg => s
  | .nonceWord k => { s with regs := { s.regs with nonce := writeNonceWord s.regs.nonce k d } }
  | .nonceLen => { s with regs := { s.regs with nonceLen := d.extractLsb' 0 5 } }
  | .adOff => { s with regs := { s.regs with adOff := d } }
  | .adLen => { s with regs := { s.regs with adLen := d } }
  | .inOff => { s with regs := { s.regs with inOff := d } }
  | .inLen => { s with regs := { s.regs with inLen := d } }
  | .outOff => { s with regs := { s.regs with outOff := d } }
  | .outLen => s
  | .reserved => s

end Sys2Proof.Machine
end

