-- ==== Sys2Proof/Machine/Accumulator.lean ====
section
/-!
DEFINITION. The accumulator port commands (40 R141-R144). Only the accumulator changes. While rst = 1 the
core performs no step, so the word is lost (70_reset R290, log 15).
-/

namespace Sys2Proof.Machine

/-- An accumulator operation on the machine's accumulator, while the core is not held in reset. -/
def onEngine (f : Engine → Engine) (s : State) : State := if s.rst then s else { s with eng := f s.eng }

/-- The meaning of ACC_RESET (40 R144). -/
def execAccReset (s : State) : Host.Outcome State Fault Refusal := .next (onEngine accReset s)

/-- The meaning of ACC_WRITE (40 R141). -/
def execAccWrite (b : Byte) (s : State) : Host.Outcome State Fault Refusal :=
  .next (onEngine (accWrite Config.params b) s)

/-- The meaning of ACC_PADZERO (40 R142). -/
def execAccPadZero (s : State) : Host.Outcome State Fault Refusal :=
  .next (onEngine (accPadZero Config.params) s)

/-- The meaning of ACC_SUM (40 R143). -/
def execAccSum (s : State) : Host.Outcome State Fault Refusal :=
  .next (onEngine (accSum Config.params) s)

end Sys2Proof.Machine
end

