-- ==== Sys2Proof/Machine/Bus.lean ====
section
/-!
DEFINITION. The host bus operations (42 R190-R193): what each does to the state for given parameters, and
its meaning on the machine. While rst = 1 no transaction is served: reads return 0, writes are ignored
(70_reset R290).
-/

namespace Sys2Proof.Machine

/-- REG_READ (42 R190): served while BUSY too. -/
def doRegRead (c : Params) (addr : BitVec 12) (s : State) : State :=
  { s with rdata := if s.rst then 0 else regRead c s (regAt addr) }

/-- REG_WRITE (42 R191): ignored while BUSY (20_memory R90). -/
def doRegWrite (addr : BitVec 12) (wdata : Word) (s : State) : State :=
  if s.locked then s else regWrite s wdata (regAt addr)

/-- BUF_READ (42 R192): 0 while BUSY (20_memory R89) and out of range (R85). -/
def doBufRead (c : Params) (addr : Word) (s : State) : State :=
  { s with
    rdata :=
      if s.locked then 0
      else if bufWordInside c (bufWordOffset addr) then Memory.readWord c s.buf (bufWordOffset addr)
      else 0 }

/-- BUF_WRITE (42 R193): dropped while BUSY (20_memory R89) and out of range (R85). -/
def doBufWrite (c : Params) (addr wdata : Word) (be : BitVec 4) (s : State) : State :=
  if s.locked || !bufWordInside c (bufWordOffset addr) then s
  else { s with buf := Memory.writeWord c s.buf (bufWordOffset addr) wdata be }

/-- The meaning of REG_READ. -/
def execRegRead (addr : BitVec 12) (s : State) : Host.Outcome State Fault Refusal :=
  .next (doRegRead Config.params addr s)

/-- The meaning of REG_WRITE. -/
def execRegWrite (addr : BitVec 12) (wdata : Word) (s : State) : Host.Outcome State Fault Refusal :=
  .next (doRegWrite addr wdata s)

/-- The meaning of BUF_READ. -/
def execBufRead (addr : Word) (s : State) : Host.Outcome State Fault Refusal :=
  .next (doBufRead Config.params addr s)

/-- The meaning of BUF_WRITE. -/
def execBufWrite (addr wdata : Word) (be : BitVec 4) (s : State) : Host.Outcome State Fault Refusal :=
  .next (doBufWrite Config.params addr wdata be s)

end Sys2Proof.Machine
end

