-- ==== Sys2Proof/Machine/Formatting.lean ====
section
/-!
DEFINITION. The byte layouts and pure functions of the CCM construction (41_formatting R160-R181), over
the cipher E of the parameters.
-/

namespace Sys2Proof.Machine

/-- [v]_n: the `n`-byte big-endian encoding (00_scope R19). -/
def bigEndian (n v : Nat) : Bytes := (List.range n).map fun k => BitVec.ofNat 8 (v >>> (8 * (n - 1 - k)))

/-- The block whose bytes are `bs`, zero-extended to 16 bytes. -/
def blockOf (bs : Bytes) : Block := Vector.ofFn fun i => bs.getD i.val 0#8

/-- The bytewise exclusive-or of two byte strings, as long as the shorter. -/
def xorBytes (xs ys : Bytes) : Bytes := List.zipWith (· ^^^ ·) xs ys

/-- q = 15 - N (41 R160). -/
def counterWidth (n : Nat) : Nat := 15 - n

/-- Ctr_i (41 R162) for a nonce of `n` bytes. -/
def ctrBlock (n : Nat) (nonce : Bytes) (i : Nat) : Block :=
  blockOf (BitVec.ofNat 8 (counterWidth n - 1) :: nonce.take n ++ bigEndian (counterWidth n) i)

/-- A block with its last `q` bytes replaced by [v]_q: the counter field (41 R164) or Q (41 R166). -/
def setField (b : Block) (q v : Nat) : Block := blockOf (b.toList.take (16 - q) ++ bigEndian q v)

/-- B0 from Ctr_0 (41 R166): the Adata flag, the tag length and the payload length `p`. -/
def b0Block (ctr0 : Block) (q t p a : Nat) : Block :=
  let adata : Byte := if 0 < a then 0x40 else 0
  setField (ctr0.set 0 (ctr0[0] ||| adata ||| BitVec.ofNat 8 (((t - 2) / 2) <<< 3))) q p

/-- AD_SHORT_LIMIT = 2^16 - 2^8 (00_scope R15). -/
abbrev adShortLimit : Nat := 65280

/-- AD_MID_MAX = 2^31 - 1, the source's literal (00_scope R15, 90 C2). -/
abbrev adMidMax : Nat := 2147483647

/-- prefix(a) (41 R168). -/
def adPrefix (a : Nat) : Bytes :=
  if a = 0 then []
  else if a < adShortLimit then bigEndian 2 a
  else if a ≤ adMidMax then 0xFF#8 :: 0xFE#8 :: bigEndian 4 a
  else 0xFF#8 :: 0xFF#8 :: bigEndian 8 a

/-- The accumulator after steps 1 to 3 of TagCompute: RESET, B0, then the prefix and the associated data,
padded once, when there is any (41 R169, R170). -/
def headEngine (c : Params) (b0 : Block) (ad : Bytes) (e : Engine) : Engine :=
  let e := accWriteAll c b0.toList (accReset e)
  if ad.length = 0 then e else accPadZero c (accWriteAll c ad (accWriteAll c (adPrefix ad.length) e))

/-- The accumulator after the commands of TagCompute, in their order (41 R170). -/
def tagEngine (c : Params) (b0 : Block) (ad pt : Bytes) (e : Engine) : Engine :=
  accSum c (accPadZero c (accWriteAll c pt (headEngine c b0 ad e)))

/-- TagCompute: the raw 16-byte MAC value T_full (41 R170). -/
def tagCompute (c : Params) (n t : Nat) (nonce ad pt : Bytes) : Block :=
  (tagEngine c (b0Block (ctrBlock n nonce 0) (counterWidth n) t pt.length ad.length) ad pt Engine.reset).resp

/-- ceil(P/16) (00_scope R20). -/
def blocks (p : Nat) : Nat := (p + 15) / 16

/-- KS(P) (41 R173). -/
def keystream (c : Params) (n : Nat) (nonce : Bytes) (p : Nat) : Bytes :=
  ((List.range (blocks p)).flatMap fun j => (c.E (ctrBlock n nonce (j + 1))).toList).take p

/-- CTR(X) (41 R173). -/
def ctrXor (c : Params) (n : Nat) (nonce x : Bytes) : Bytes := xorBytes x (keystream c n nonce x.length)

/-- The masked tag MSB_T(T_full) ^ MSB_T(S0) (41 R165, R174). -/
def ccmTag (c : Params) (n t : Nat) (nonce ad pt : Bytes) : Bytes :=
  xorBytes ((tagCompute c n t nonce ad pt).toList.take t) ((c.E (ctrBlock n nonce 0)).toList.take t)

/-- The comparison accumulator of CTEq: every byte pair is combined (41 R178, 43 R243). -/
def ctDiff (xs ys : Bytes) : Byte := (xorBytes xs ys).foldl (· ||| ·) 0#8

/-- CCMSeal (41 R176). -/
def ccmSeal (c : Params) (n t : Nat) (nonce ad pt : Bytes) : Except ResultCode Bytes :=
  if nonce.length ≠ n then .error .invalidNonceSize
  else if pt.length > maxPayload n then .error .maxPayloadSizeReached
  else .ok (ctrXor c n nonce pt ++ ccmTag c n t nonce ad pt)

/-- CCMOpen (41 R177). -/
def ccmOpen (c : Params) (n t : Nat) (nonce ad input : Bytes) : Except ResultCode Bytes :=
  if nonce.length ≠ n then .error .invalidNonceSize
  else if input.length ≤ t then .error .invalidTagSize
  else if input.length - t > maxPayload n then .error .maxPayloadSizeReached
  else
    let pt := ctrXor c n nonce (input.take (input.length - t))
    if ctDiff (ccmTag c n t nonce ad pt) (input.drop (input.length - t)) = 0 then .ok pt
    else .error .authenticationFailed

end Sys2Proof.Machine
end

