-- ==== Sys2Proof/Machine/Sequencer.lean ====
section
/-!
DEFINITION. The command sequencer: one action per sequencer state (43 R230-R245, R250, R251), the core
step that executes the current one, and the run of a command to its completion.
-/

namespace Sys2Proof.Machine

/-- The associated data's length a = AD_LEN (30_encoding R115). -/
def State.adBytes (s : State) : Nat := s.regs.adLen.toNat

/-- The sequencer with the payload length fixed and the state INIT (43 R232, checks passed). -/
def acceptPayload (s : State) (p : Nat) : State :=
  { s with seq := { s.seq with code := .ok, plen := p, m := blocks p, q := counterWidth s.nonceSize, state := .init } }

/-- A command whose check failed goes to DONE with its code (43 R232). -/
def rejectCommand (s : State) (code : ResultCode) : State :=
  { s with seq := { s.seq with code := code, rlen := 0, state := .done } }

/-- CHECK (43 R232, R250, R251). -/
def actCheck (c : Params) (s : State) : State :=
  match s.seq.op with
  | .configure => { s with seq := { s.seq with code := configCheck c s, state := .done } }
  | .sealCmd => if sealCheck c s = .ok then acceptPayload s s.regs.inLen.toNat else rejectCommand s (sealCheck c s)
  | .openCmd =>
    if openCheck c s = .ok then acceptPayload s (s.regs.inLen.toNat - s.tagSize) else rejectCommand s (openCheck c s)
  | .illegal => { s with seq := { s.seq with code := .illegalCommand, state := .done } }

/-- INIT (43 R233). -/
def actInit (c : Params) (s : State) : State :=
  { s with
    seq := { s.seq with ctr := ctrBlock s.nonceSize (nonceBytes s s.nonceSize) 0, state := .s0 }
    eng := accIssue c [accWord 0 0] s.eng }

/-- S0 (43 R234). -/
def actS0 (c : Params) (s : State) : State :=
  { s with
    seq := { s.seq with s0 := c.E s.seq.ctr, state := .b0 }
    eng := cipherCall s.seq.ctr s.eng }

/-- Entry into PAY at block 1; with no payload block the state goes straight to PLPAD (43 R239, log 14). -/
def enterPay (q : Seq) : Seq := { q with blk := 1, state := if q.m = 0 then .plpad else .pay }

/-- B0 (43 R235). -/
def actB0 (c : Params) (s : State) : State :=
  { s with
    seq := if 0 < s.adBytes then { s.seq with state := .alen } else enterPay s.seq
    eng := accIssue c (accWriteWords (b0Block s.seq.ctr s.seq.q s.tagSize s.seq.plen s.adBytes).toList) s.eng }

/-- ALEN (43 R236). -/
def actAlen (c : Params) (s : State) : State :=
  { s with
    seq := { s.seq with k := 0, state := .ad }
    eng := accIssue c (accWriteWords (adPrefix s.adBytes)) s.eng }

/-- AD, one step per byte (43 R237). -/
def actAd (c : Params) (s : State) : State :=
  { s with
    seq := { s.seq with k := s.seq.k + 1, state := if s.seq.k + 1 = s.adBytes then .adpad else .ad }
    eng := accIssue c (accWriteWords [Memory.read c s.buf (s.regs.adOff.toNat + s.seq.k)]) s.eng }

/-- ADPAD (43 R238). -/
def actAdPad (c : Params) (s : State) : State :=
  { s with seq := enterPay s.seq, eng := accIssue c [accWord 0 2] s.eng }

/-- PAY, one step per payload block (43 R239): the reads, the keystream call, the MAC over the plaintext,
the writes. -/
def actPay (c : Params) (s : State) : State :=
  let base := 16 * (s.seq.blk - 1)
  let x := Memory.readBytes c s.buf (s.regs.inOff.toNat + base) (min 16 (s.seq.plen - base))
  let ctr := setField s.seq.ctr s.seq.q s.seq.blk
  let ks := c.E ctr
  let y := xorBytes x ks.toList
  let macIn := if s.seq.op = .sealCmd then x else y
  { s with
    seq :=
      { s.seq with
        x := blockOf x, ctr := ctr, ks := ks
        blk := if s.seq.blk = s.seq.m then s.seq.blk else s.seq.blk + 1
        state := if s.seq.blk = s.seq.m then .plpad else .pay }
    eng := accIssue c (accWriteWords macIn) (cipherCall ctr s.eng)
    buf := Memory.writeBytes c s.buf (s.regs.outOff.toNat + base) y }

/-- PLPAD (43 R240). -/
def actPlPad (c : Params) (s : State) : State :=
  { s with seq := { s.seq with state := .tag }, eng := accIssue c [accWord 0 2] s.eng }

/-- TAG (43 R241): the accumulator's response, masked with S0. -/
def actTag (c : Params) (s : State) : State :=
  let e := accIssue c [accWord 0 3] s.eng
  { s with
    seq :=
      { s.seq with
        tagc := blockOf (xorBytes e.resp.toList s.seq.s0.toList)
        state := if s.seq.op = .sealCmd then .emit else .verify }
    eng := e }

/-- EMIT (43 R242): the tag after the ciphertext. -/
def actEmit (c : Params) (s : State) : State :=
  { s with
    seq := { s.seq with rlen := s.seq.plen + s.tagSize, code := .ok, state := .done }
    buf := Memory.writeBytes c s.buf (s.regs.outOff.toNat + s.seq.plen) (s.seq.tagc.toList.take s.tagSize) }

/-- VERIFY (43 R243): all T byte pairs are combined. -/
def actVerify (c : Params) (s : State) : State :=
  let diff := ctDiff (s.seq.tagc.toList.take s.tagSize)
    (Memory.readBytes c s.buf (s.regs.inOff.toNat + s.seq.plen) s.tagSize)
  { s with
    seq :=
      if diff = 0 then { s.seq with diff := diff, rlen := s.seq.plen, code := .ok, state := .done }
      else { s.seq with diff := diff, state := .wipe } }

/-- WIPE (43 R244): P zero bytes over the output. -/
def actWipe (c : Params) (s : State) : State :=
  { s with
    seq := { s.seq with rlen := 0, code := .authenticationFailed, state := .done }
    buf := Memory.writeBytes c s.buf s.regs.outOff.toNat (List.replicate s.seq.plen 0#8) }

/-- The register results of the running command (43 R245, R250, 42 R195, R196, R204; log 13). -/
def commandResults (c : Params) (s : State) : State :=
  match s.seq.op with
  | .configure =>
    if s.seq.code = .ok then
      { s with
        inst := { configured := true, n := s.regs.cfgN, t := s.regs.cfgT }
        eng := accIssue c [accWord 0 0] s.eng }
    else { s with inst := Instance.none }
  | .sealCmd => { s with regs := { s.regs with outLen := BitVec.ofNat 32 s.seq.rlen } }
  | .openCmd => { s with regs := { s.regs with outLen := BitVec.ofNat 32 s.seq.rlen } }
  | .illegal => s

/-- DONE (43 R245): the results, then finish(code). -/
def actDone (c : Params) (s : State) : State := (commandResults c s).finish s.seq.code

/-- One core step: the action of the current state, once (43 preamble). IDLE does nothing (R231). -/
def coreStep (c : Params) (s : State) : State :=
  match s.seq.state with
  | .idle => s
  | .check => actCheck c s
  | .init => actInit c s
  | .s0 => actS0 c s
  | .b0 => actB0 c s
  | .alen => actAlen c s
  | .ad => actAd c s
  | .adpad => actAdPad c s
  | .pay => actPay c s
  | .plpad => actPlPad c s
  | .tag => actTag c s
  | .emit => actEmit c s
  | .verify => actVerify c s
  | .wipe => actWipe c s
  | .done => actDone c s
  | .reserved15 => s

/-- Up to `fuel` core steps, ending at IDLE. -/
def runCore (c : Params) : Nat → State → State
  | 0, s => s
  | fuel + 1, s => if s.seq.state = .idle then s else runCore c fuel (coreStep c s)

/-- Core steps enough for any command from the state its start leaves (70_reset R303: at most
10 + a + m, plus 1 for WIPE). -/
def commandFuel (s : State) : Nat := 11 + s.adBytes + blocks s.regs.inLen.toNat

/-- A command run from its start to its completion as one transition (20_memory R97, 43 preamble; log 4).
The CMD write that would start it is ignored while the core is locked (20_memory R90, 70_reset R290). -/
def runCommand (c : Params) (op : BitVec 4) (s : State) : State :=
  if s.locked then s else runCore c (commandFuel s) (s.start op)

end Sys2Proof.Machine
end

