-- ==== Sys2Proof/Machine/Commands.lean ====
section
/-!
DEFINITION. The host commands (42 R194-R201): the meaning of a CMD word is the host's write of it to CMD
and the command it starts, run to its completion as one transition (20_memory R97, log 4). The core steps
it is made of are those of `coreStep`, one at a time.
-/

namespace Sys2Proof.Machine

/-- The meaning of CONFIGURE (42 R196). -/
def execConfigure (s : State) : Host.Outcome State Fault Refusal :=
  .next (runCommand Config.params 0x1 s)

/-- The meaning of SEAL (42 R197). -/
def execSealMsg (s : State) : Host.Outcome State Fault Refusal :=
  .next (runCommand Config.params 0x2 s)

/-- The meaning of OPEN (42 R199). -/
def execOpenMsg (s : State) : Host.Outcome State Fault Refusal :=
  .next (runCommand Config.params 0x3 s)

/-- The meaning of the illegal opcode 0x0 (42 R201). -/
def execIllegal0 (s : State) : Host.Outcome State Fault Refusal :=
  .next (runCommand Config.params 0x0 s)

/-- The meaning of the illegal opcodes 0x4 to 0x7 (42 R201). -/
def execIllegal4to7 (opcode : BitVec 4) (s : State) : Host.Outcome State Fault Refusal :=
  .next (runCommand Config.params opcode s)

/-- The meaning of the illegal opcodes 0x8 to 0xF (42 R201). -/
def execIllegal8toF (opcode : BitVec 4) (s : State) : Host.Outcome State Fault Refusal :=
  .next (runCommand Config.params opcode s)

end Sys2Proof.Machine
end

