-- ==== Sys2Proof/Machine/Dispatch.lean ====
section
/-!
DEFINITION. The meaning of each operation, one arm per constructor.
-/

namespace Sys2Proof.Machine

def exec (i : Instr) (s : State) : Host.Outcome State Fault Refusal :=
  match i with
  -- host bus transactions
  | .regRead addr => Sys2Proof.Machine.execRegRead addr s
  | .regWrite addr wdata => Sys2Proof.Machine.execRegWrite addr wdata s
  | .bufRead addr => Sys2Proof.Machine.execBufRead addr s
  | .bufWrite addr wdata be => Sys2Proof.Machine.execBufWrite addr wdata be s
  -- host commands
  | .configure => Sys2Proof.Machine.execConfigure s
  | .sealMsg => Sys2Proof.Machine.execSealMsg s
  | .openMsg => Sys2Proof.Machine.execOpenMsg s
  | .illegal0 => Sys2Proof.Machine.execIllegal0 s
  | .illegal4to7 opcode => Sys2Proof.Machine.execIllegal4to7 opcode s
  | .illegal8toF opcode => Sys2Proof.Machine.execIllegal8toF opcode s
  -- accumulator port commands
  | .accReset => Sys2Proof.Machine.execAccReset s
  | .accWrite b => Sys2Proof.Machine.execAccWrite b s
  | .accPadZero => Sys2Proof.Machine.execAccPadZero s
  | .accSum => Sys2Proof.Machine.execAccSum s

end Sys2Proof.Machine
end

