-- ==== Sys2Proof/Machine/Events.lean ====
section
/-!
DEFINITION. What happens next (logs 3, 5): which word the core decodes, when it takes a core step, and the
reset input (70_reset R290-R293).
-/

namespace Sys2Proof.Machine

/-! ### Reset -/

/-- The output bytes of the running SEAL or OPEN, as its pseudocode computes them from the buffer at its
start (42 R197, R199; for OPEN the recovered plaintext, log 8); none when its checks fail or the running
command is another. -/
def abortedOutput (c : Params) (s : State) : Bytes :=
  let nonce := nonceBytes s s.nonceSize
  let ad := Memory.readBytes c s.bufStart s.regs.adOff.toNat s.adBytes
  let input := Memory.readBytes c s.bufStart s.regs.inOff.toNat s.regs.inLen.toNat
  if s.busy = false then []
  else
    match s.seq.op with
    | .sealCmd =>
      if sealCheck c s = .ok then ctrXor c s.nonceSize nonce input ++ ccmTag c s.nonceSize s.tagSize nonce ad input
      else []
    | .openCmd =>
      if openCheck c s = .ok then ctrXor c s.nonceSize nonce (input.take (s.regs.inLen.toNat - s.tagSize)) else []
    | .configure => []
    | .illegal => []

/-- One byte of an aborted command's output region: its value before the command, the command's value
or 0 (70_reset R293), by the free choice `pick`. -/
def abortByte (pick : Fin 3) (old new : Byte) : Byte :=
  if pick = 0 then old else if pick = 1 then new else 0

/-- The aborted output region, byte by byte, the `draw`-th free choice. -/
def abortBytes (c : Params) (start : Memory) (draw : Nat) : Nat → Bytes → Bytes
  | _, [] => []
  | off, v :: vs => abortByte (c.abortPick draw off) (Memory.read c start off) v :: abortBytes c start draw (off + 1) vs

/-- The buffer after a reset: unchanged (70_reset R292) but for the output region of an aborted command (R293). -/
def bufAfterReset (c : Params) (s : State) : Memory :=
  Memory.writeBytes c s.buf s.regs.outOff.toNat
    (abortBytes c s.bufStart s.draws s.regs.outOff.toNat (abortedOutput c s))

/-- Every piece of state at its reset value (70_reset R291) but the buffer (R292, R293), the input wire
and the events to come. -/
def resetState (c : Params) (s : State) : State :=
  { State.reset with buf := bufAfterReset c s, rst := s.rst, inbox := s.inbox, draws := s.draws + 1 }

/-- The reset input takes a level (70_reset R290, log 15): from rst = 1 until it falls the state is that of
reset; rst staying 0 does nothing. -/
def resetEvent (c : Params) (level : Bool) (s : State) : State :=
  if level || s.rst then { resetState c s with rst := level } else s

/-! ### The core's step -/

/-- The core takes a step: none while rst = 1 (70_reset R290); at the state value 15, which is never
entered, the model stops (93 part 1, log 20). -/
def coreEvent (c : Params) (s : State) : Host.Outcome State Fault Refusal :=
  if s.rst then .next s
  else if s.seq.state = .reserved15 then .fault .sequencerState15
  else .next (coreStep c s)

/-! ### What happens next -/

/-- The next thing that happens: a decoded operation runs, the core takes a step, the reset input changes. -/
inductive Action where
  | run (i : Instr)
  | core
  | reset (level : Bool)
  deriving DecidableEq, Repr

/-- The next action, and the state with what was taken in removed: a pending accumulator port word first
(40 R145), then the oldest event; with no event the core steps by itself (42 R194; logs 3, 5). -/
def nextAction (s : State) : Action × State :=
  match s.eng.port with
  | w :: ws => (.run (decodeAcc w), { s with eng := { s.eng with port := ws } })
  | [] =>
    match s.inbox with
    | [] => (.core, s)
    | .txn w :: es => (.run (decodeBus w), { s with inbox := es })
    | .command w :: es => (.run (decodeCmd w), { s with inbox := es })
    | .tick :: es => (.core, { s with inbox := es })
    | .rst level :: es => (.reset level, { s with inbox := es })

/-- The state with a word of format `f` where `nextAction` takes its next operation (log 19): on the
accumulator port, or as the oldest event with no port word pending. -/
def placeWord (f : Format) (w : Nat) (s : State) : State :=
  match f with
  | .bus => { s with eng := { s.eng with port := [] }, inbox := .txn (BitVec.ofNat 70 w) :: s.inbox }
  | .cmd => { s with eng := { s.eng with port := [] }, inbox := .command (BitVec.ofNat 32 w) :: s.inbox }
  | .acc => { s with eng := { s.eng with port := BitVec.ofNat 10 w :: s.eng.port } }

end Sys2Proof.Machine
end

