-- ==== Sys2Proof/Machine/Step.lean ====
section
/-!
DEFINITION. One step of the machine, and the placing of a word where the next step takes it.
-/

namespace Sys2Proof.Machine

/-- One step: the next action on the state it leaves. -/
def step (s : State) : Host.Outcome State Fault Refusal :=
  match nextAction s with
  | (.run i, s') => exec i s'
  | (.core, s') => coreEvent Config.params s'
  | (.reset level, s') => .next (resetEvent Config.params level s')

/-- The state whose very next step runs the operation of this table word (log 19). -/
def State.withFetchWord (s : State) (nbits w : Nat) : State := placeWord (tableFormat nbits w) w s

end Sys2Proof.Machine
end

