-- ==== Sys2Proof/Safety.lean ====
section
/-!
DEFINITION. What counts as a safe run: the invariant of the machine, which the state after reset has and
every step keeps. It rules out the one fault of the machine.
-/

namespace Sys2Proof.Machine

/-- 10_state R50: CONFIGURED = 1 implies 7 <= aN <= 13 and aT in {4, 6, ..., 16}; CONFIGURED = 0 implies
aN = aT = 0. -/
abbrev InstanceOk (s : State) : Prop :=
  if s.inst.configured then
    (7 ≤ s.nonceSize ∧ s.nonceSize ≤ 13) ∧ (4 ≤ s.tagSize ∧ s.tagSize ≤ 16 ∧ s.tagSize % 2 = 0)
  else s.inst.n = 0 ∧ s.inst.t = 0

/-- The canonical form of the buffer, and no byte outside it (20_memory R80). -/
abbrev BufferOk (c : Params) (s : State) : Prop := Memory.wf c s.buf ∧ Memory.inside c s.buf

/-- The scratch counts fit their registers (10_state R55, 43 R230; log 12). -/
abbrev ScratchFits (s : State) : Prop :=
  s.seq.blk < 2 ^ 28 ∧ s.seq.k < 2 ^ 33 ∧ s.seq.rlen < 2 ^ 33 ∧ s.seq.plen < 2 ^ 32 ∧ s.seq.m < 2 ^ 29 ∧
    s.seq.q < 2 ^ 4

/-- The running command is a SEAL or OPEN that passed its checks, with P, m and q as its CHECK step set
them (43 R232). -/
abbrev Accepted (c : Params) (s : State) : Prop :=
  ((s.seq.op = .sealCmd ∧ sealCheck c s = .ok ∧ s.seq.plen = s.regs.inLen.toNat) ∨
    (s.seq.op = .openCmd ∧ openCheck c s = .ok ∧ s.seq.plen = s.regs.inLen.toNat - s.tagSize)) ∧
  s.seq.m = blocks s.seq.plen ∧ s.seq.q = counterWidth s.nonceSize

/-- What holds in each sequencer state (43 R231-R245); the value 15 is never entered (R230). -/
def SequencerOk (c : Params) (s : State) : Prop :=
  match s.seq.state with
  | .idle => True
  | .check => True
  | .init => Accepted c s
  | .s0 => Accepted c s
  | .b0 => Accepted c s
  | .alen => Accepted c s ∧ 0 < s.adBytes
  | .ad => Accepted c s ∧ s.seq.k < s.adBytes
  | .adpad => Accepted c s ∧ 0 < s.adBytes
  | .pay => Accepted c s ∧ 1 ≤ s.seq.blk ∧ s.seq.blk ≤ s.seq.m
  | .plpad => Accepted c s
  | .tag => Accepted c s
  | .emit => Accepted c s ∧ s.seq.op = .sealCmd
  | .verify => Accepted c s ∧ s.seq.op = .openCmd
  | .wipe => Accepted c s ∧ s.seq.op = .openCmd
  | .done =>
    match s.seq.op with
    | .configure => s.seq.code = configCheck c s
    | .sealCmd => s.seq.rlen ≤ c.bufBytes
    | .openCmd => s.seq.rlen ≤ c.bufBytes
    | .illegal => True
  | .reserved15 => False

/-- How many bytes the running command may write from OUT_OFF on: the OUT region of a SEAL or OPEN that
passes its checks, else nothing (42 R203, 20_memory R93). -/
def outputBytes (c : Params) (s : State) : Nat :=
  match s.seq.op with
  | .sealCmd => if sealCheck c s = .ok then s.regs.inLen.toNat + s.tagSize else 0
  | .openCmd => if openCheck c s = .ok then s.regs.inLen.toNat - s.tagSize else 0
  | .configure => 0
  | .illegal => 0

/-- While a command runs, every byte outside its OUT region is as at its start (20_memory R93, 42 R209). -/
def OutsideOutputKept (c : Params) (s : State) : Prop :=
  s.busy = true → ∀ a, ¬(s.regs.outOff.toNat ≤ a ∧ a < s.regs.outOff.toNat + outputBytes c s) →
    Memory.read c s.buf a = Memory.read c s.bufStart a

/-- The invariant of the machine. -/
structure Inv (c : Params) (s : State) : Prop where
  inst : InstanceOk s
  buffer : BufferOk c s
  scratch : ScratchFits s
  heldIdle : s.rst = true → s.seq.state = .idle
  sequencer : SequencerOk c s
  outside : OutsideOutputKept c s

end Sys2Proof.Machine
end

