-- ==== Sys2Proof/Certificates/Slice0/Obligations.lean ====
section
/-!
DEFINITION. The statements for the provers. They are about the machine of `Config.params`, whose values no
proof can see. The first part holds the words the statements use; none of them is used by the machine.
-/

namespace Sys2Proof.Machine

/-- The machine's buffer byte at an offset. -/
def State.byte (s : State) (a : Nat) : Byte := Memory.read Config.params s.buf a

/-- The buffer's bytes [off, off + n). -/
def State.bytesAt (s : State) (off n : Nat) : Bytes := Memory.readBytes Config.params s.buf off n

/-- Not held in reset, and no command running: a host write is accepted. -/
abbrev Ready (s : State) : Prop := s.rst = false ∧ s.busy = false

/-- The buffer is in its canonical form. -/
abbrev BufWf (s : State) : Prop := Memory.wf Config.params s.buf

/-- A bit as a number. -/
def bitNat (b : Bool) : Nat := if b then 1 else 0

/-- The word offset of a transaction: its offset with bits 1:0 dropped (20_memory R82). -/
def wordOffset (a : Nat) : Nat := a / 4 * 4

/-- The value a register reads as, in the arithmetic of 42 R190, by word offset. -/
def regValue (s : State) (w : Nat) : Nat :=
  if w = 0x000 then 0x43434D01
  else if w = 0x004 then Config.params.cipherBs.toNat * 65536 + 16 * 256 + 16
  else if w = 0x008 then Config.params.bufBytes
  else if w = 0x00C then s.regs.cfgT.toNat * 256 + s.regs.cfgN.toNat
  else if w = 0x014 then
    s.status.lastOp.toNat * 256 + s.status.err.bits.toNat * 16 + bitNat s.inst.configured * 4 +
      bitNat s.status.done * 2 + bitNat (decide (s.seq.state ≠ .idle))
  else if w = 0x018 then bitNat s.regs.doneIe
  else if w = 0x01C then s.inst.t.toNat * 256 + s.inst.n.toNat
  else if 0x020 ≤ w ∧ w ≤ 0x02C then
    (s.regs.nonce.toList.getD (w - 0x020) 0).toNat + (s.regs.nonce.toList.getD (w - 0x020 + 1) 0).toNat * 256 +
      (s.regs.nonce.toList.getD (w - 0x020 + 2) 0).toNat * 65536 +
      (s.regs.nonce.toList.getD (w - 0x020 + 3) 0).toNat * 16777216
  else if w = 0x030 then s.regs.nonceLen.toNat
  else if w = 0x040 then s.regs.adOff.toNat
  else if w = 0x044 then s.regs.adLen.toNat
  else if w = 0x048 then s.regs.inOff.toNat
  else if w = 0x04C then s.regs.inLen.toNat
  else if w = 0x050 then s.regs.outOff.toNat
  else if w = 0x054 then s.regs.outLen.toNat
  else 0

/-- Byte `j` of a bus word (20_memory R87). -/
def busByte (d : Word) (j : Nat) : Byte := BitVec.ofNat 8 (d.toNat / 256 ^ j)

/-- The state that command `o` of opcode `op` leaves right after its start (42 R194, 43 R231). -/
def startedState (op : BitVec 4) (o : SeqOp) (s : State) : State :=
  { s with
    status := { done := false, err := .ok, lastOp := op }
    seq := { s.seq with state := .check, op := o }
    bufStart := s.buf }

/-- The command an opcode names (43 R231). -/
def commandNamed (op : Nat) : SeqOp :=
  if op = 1 then .configure else if op = 2 then .sealCmd else if op = 3 then .openCmd else .illegal

/-- The nonce store with the bytes of word `k` replaced by those of `d` (42 R191). -/
def nonceWithWord (nb : Block) (k : Nat) (d : Word) : Block :=
  Vector.ofFn fun i => if i.val / 4 = k then busByte d (i.val % 4) else nb[i]

/-- The state a REG_WRITE of `d` at word offset `w` leaves when no command runs (42 R191). -/
def afterRegWrite (s : State) (w : Nat) (d : Word) : State :=
  if w = 0x00C then
    { s with regs := { s.regs with cfgN := BitVec.ofNat 4 d.toNat, cfgT := BitVec.ofNat 5 (d.toNat / 256) } }
  else if w = 0x010 then startedState (BitVec.ofNat 4 d.toNat) (commandNamed (d.toNat % 16)) s
  else if w = 0x014 then { s with status := { s.status with done := s.status.done && !d.getLsbD 1 } }
  else if w = 0x018 then { s with regs := { s.regs with doneIe := d.getLsbD 0 } }
  else if 0x020 ≤ w ∧ w ≤ 0x02C then
    { s with regs := { s.regs with nonce := nonceWithWord s.regs.nonce ((w - 0x020) / 4) d } }
  else if w = 0x030 then { s with regs := { s.regs with nonceLen := BitVec.ofNat 5 d.toNat } }
  else if w = 0x040 then { s with regs := { s.regs with adOff := d } }
  else if w = 0x044 then { s with regs := { s.regs with adLen := d } }
  else if w = 0x048 then { s with regs := { s.regs with inOff := d } }
  else if w = 0x04C then { s with regs := { s.regs with inLen := d } }
  else if w = 0x050 then { s with regs := { s.regs with outOff := d } }
  else s

/-- The host command words: the opcode each constructor stands for (30_encoding R112). -/
def opcodeOf : Instr → BitVec 4
  | .configure => 1
  | .sealMsg => 2
  | .openMsg => 3
  | .illegal0 => 0
  | .illegal4to7 op => op
  | .illegal8toF op => op
  | .regRead _ => 0
  | .regWrite _ _ => 0
  | .bufRead _ => 0
  | .bufWrite _ _ _ => 0
  | .accReset => 0
  | .accWrite _ => 0
  | .accPadZero => 0
  | .accSum => 0

/-- The operands of a SEAL or OPEN (30_encoding R115): the nonce, the associated data, and the input. -/
def operandNonce (s : State) : Bytes := nonceBytes s s.nonceSize

/-- The associated data of a SEAL or OPEN. -/
def operandAd (s : State) : Bytes := s.bytesAt s.regs.adOff.toNat s.regs.adLen.toNat

/-- The input region of a SEAL or OPEN. -/
def operandInput (s : State) : Bytes := s.bytesAt s.regs.inOff.toNat s.regs.inLen.toNat

/-- Nothing but the accumulator, the instance, OUT_LEN, STATUS, the sequencer, the buffer and the model's note
of the buffer at the start differs (42 R197, R199). -/
def SameHost (s t : State) : Prop :=
  t.regs = { s.regs with outLen := t.regs.outLen } ∧ t.rst = s.rst ∧ t.rdata = s.rdata ∧ t.inbox = s.inbox ∧
    t.draws = s.draws

/-- The number whose 16 big-endian bytes a block holds. -/
def blockNat (b : Block) : Nat := b.toList.foldl (fun v x => v * 256 + x.toNat) 0

/-- Block `j` of a byte string, its missing bytes 0 (40 R149). -/
def macBlock (s : Bytes) (j : Nat) : Block := Vector.ofFn fun i => s.getD (16 * j + i.val) 0

/-- The CBC-MAC chain Y_r over the zero-padded blocks of `s`, from Y_0 = `y` (40 R149). -/
def cbcChain (c : Params) (y : Block) (s : Bytes) : Block :=
  (List.range (blocks s.length)).foldl (fun y j => c.E (Vector.zipWith (· ^^^ ·) y (macBlock s j))) y

/-- pad(s) of 41 R171. -/
def padded (s : Bytes) : Bytes := s ++ List.replicate ((16 - s.length % 16) % 16) 0#8

/-- `k` core steps. -/
def coreSteps (k : Nat) (s : State) : State := (coreStep Config.params)^[k] s

/-- The number of core steps of an accepted SEAL, and of an OPEN whose tag matches (70_reset R303). -/
def acceptedSteps (a m : Nat) : Nat := if a = 0 then 8 + m else 10 + a + m

/-- The word offset regions [o1, o1 + l1) and [o2, o2 + l2) share a byte (42 R203). -/
def Meet (o1 l1 o2 l2 : Nat) : Prop := 0 < l1 ∧ 0 < l2 ∧ o1 < o2 + l2 ∧ o2 < o1 + l1

/-- Whether AD, IN or OUT (of `n` bytes) leaves the buffer (42 R203). -/
def LeavesBuffer (s : State) (n : Nat) : Prop :=
  Config.params.bufBytes < s.regs.adOff.toNat + s.regs.adLen.toNat ∨
    Config.params.bufBytes < s.regs.inOff.toNat + s.regs.inLen.toNat ∨
    Config.params.bufBytes < s.regs.outOff.toNat + n

/-- Whether OUT (of `n` bytes) overlaps AD, or IN other than exactly in place (42 R203). -/
def ForbiddenOverlap (s : State) (n : Nat) : Prop :=
  Meet s.regs.outOff.toNat n s.regs.adOff.toNat s.regs.adLen.toNat ∨
    (Meet s.regs.outOff.toNat n s.regs.inOff.toNat s.regs.inLen.toNat ∧
      s.regs.outOff.toNat ≠ s.regs.inOff.toNat)

end Sys2Proof.Machine

open Sys2Proof Sys2Proof.Machine

/-! ### Encodings -/

/-- Decoding the bytes that hold an operation's word gives the operation back, every operand at every value
(30_encoding R111-R113, R116; the packing of a bus word's operands is the model's, log 1). -/
def Obligations.DecodeInvertsEncode : Prop :=
  ∀ i : Instr, i.wellFormed = true → decode (formatOf i) (encode i) = .ok i

/-- What the decoder gives is well formed and of the format asked for (30_encoding R110, R116). -/
def Obligations.DecodedOperationIsWellFormed : Prop :=
  ∀ (f : Format) (bs : Bytes) (i : Instr), decode f bs = .ok i → i.wellFormed = true ∧ formatOf i = f

/-- Every word of each format matches exactly one row of the opcode map, the row of the operation the decoder
reads (30_encoding R116; the bus word's width is the model's, log 1). -/
def Obligations.EveryWordMatchesOneOpcodeRow : Prop :=
  (∀ w : BitVec 70, rowsMatching .bus w.toNat = [mnemonicOf (decodeBus w)]) ∧
    (∀ w : BitVec 32, rowsMatching .cmd w.toNat = [mnemonicOf (decodeCmd w)]) ∧
    (∀ w : BitVec 10, rowsMatching .acc w.toNat = [mnemonicOf (decodeAcc w)])

/-- A command word is decoded from its bits 3:0 alone (30_encoding R112, R117, R119). -/
def Obligations.CommandWordFields : Prop :=
  ∀ w : BitVec 32, decodeCmd w =
    if w.toNat % 16 = 1 then .configure
    else if w.toNat % 16 = 2 then .sealMsg
    else if w.toNat % 16 = 3 then .openMsg
    else if w.toNat % 16 = 0 then .illegal0
    else if w.toNat % 16 < 8 then .illegal4to7 (BitVec.ofNat 4 w.toNat)
    else .illegal8toF (BitVec.ofNat 4 w.toNat)

/-- An accumulator port word is ACC_OP in bits 1:0 and, for ACC_WRITE, ACC_DATA in bits 9:2 (30_encoding R113). -/
def Obligations.AccumulatorWordFields : Prop :=
  ∀ w : BitVec 10, decodeAcc w =
    if w.toNat % 4 = 0 then .accReset
    else if w.toNat % 4 = 1 then .accWrite (BitVec.ofNat 8 (w.toNat / 4))
    else if w.toNat % 4 = 2 then .accPadZero
    else .accSum

/-- Words written out from the spec's encodings decode to what they stand for: lines of program P1
(95 section L3) and port words of 30_encoding R113 (the packing of a bus word is the model's, log 1). -/
def Obligations.SampleWordsDecode : Prop :=
  decode .bus [0x31, 0x00, 0x00, 0x00, 0xC0, 0x01, 0x01, 0x00, 0x00] = .ok (.regWrite 0x00C 0x00000407) ∧
    decode .bus [0x50, 0x00, 0x00, 0x00, 0x00, 0x00, 0x00, 0x00, 0x00] = .ok (.regRead 0x014) ∧
    decode .bus [0x03, 0x08, 0x00, 0x00, 0x3C, 0x48, 0x88, 0xC8, 0x08] = .ok (.bufWrite 0x200 0x23222120 0xF) ∧
    decode .bus [0x02, 0x0C, 0x00, 0x00, 0x00, 0x00, 0x00, 0x00, 0x00] = .ok (.bufRead 0x300) ∧
    decode .cmd [0x02, 0x00, 0x00, 0x00] = .ok .sealMsg ∧
    decode .cmd [0xF3, 0xFF, 0xFF, 0xFF] = .ok .openMsg ∧
    decode .cmd [0x07, 0x00, 0x00, 0x00] = .ok (.illegal4to7 0x7) ∧
    decode .acc [0xA9, 0x02] = .ok (.accWrite 0xAA) ∧
    decode .acc [0x03, 0x00] = .ok .accSum

/-! ### A step -/

/-- A word placed where the machine takes its next operation, if it decodes, is the operation the very next step
runs, on the state with the word taken away (the model's order of events, logs 3, 5, 19). The second part says the
same for the host's table words. -/
def Obligations.StepRunsPlacedWord : Prop :=
  (∀ (f : Format) (w : Nat) (i : Instr) (s : State), decode f (bytesOfNat (formatBytes f) w) = .ok i →
      step (placeWord f w s) =
        exec i { s with eng := { s.eng with port := if f = .acc then s.eng.port else [] } }) ∧
    ∀ (nbits w : Nat) (i : Instr) (s : State), decodeTableWord nbits w = some i →
      step (s.withFetchWord nbits w) =
        exec i { s with eng := { s.eng with port := if formatOf i = .acc then s.eng.port else [] } }

/-- What a step does, in every state: a pending port word runs first; else the oldest event happens; on a tick, and
with no event, the core takes a step: none while rst = 1, and a fault at the state value 15 (the model's order of
events, logs 3, 5, 15, 20). -/
def Obligations.StepFollowsInbox : Prop :=
  ∀ s : State,
    (∀ w ws, s.eng.port = w :: ws → step s = exec (decodeAcc w) { s with eng := { s.eng with port := ws } }) ∧
    (s.eng.port = [] →
      (∀ w es, s.inbox = .txn w :: es → step s = exec (decodeBus w) { s with inbox := es }) ∧
      (∀ w es, s.inbox = .command w :: es → step s = exec (decodeCmd w) { s with inbox := es }) ∧
      (∀ l es, s.inbox = .rst l :: es → step s = .next (resetEvent Config.params l { s with inbox := es })) ∧
      (∀ es, s.inbox = .tick :: es → s.rst = false → s.seq.state ≠ .reserved15 →
        step s = .next (coreStep Config.params { s with inbox := es })) ∧
      (∀ es, s.inbox = .tick :: es → s.rst = true → step s = .next { s with inbox := es }) ∧
      (∀ es, s.inbox = .tick :: es → s.rst = false → s.seq.state = .reserved15 →
        step s = .fault .sequencerState15) ∧
      (s.inbox = [] → s.rst = false → s.seq.state ≠ .reserved15 → step s = .next (coreStep Config.params s)) ∧
      (s.inbox = [] → s.rst = true → step s = .next s) ∧
      (s.inbox = [] → s.rst = false → s.seq.state = .reserved15 → step s = .fault .sequencerState15))

/-! ### Reset -/

/-- While rst is 1, and when it falls, every register holds its reset value, no interrupt is raised, and the
instance, the accumulator and the scratch registers are zero (70_reset R290, R291; for op the zero is read as
CONFIGURE, log 10); a buffer that no command was writing is unchanged (R292). While rst stays 0 nothing changes. The
events that give rst its level are the model's (log 15); what a read returns while rst is 1 is another statement. -/
def Obligations.ResetEventGivesResetValues : Prop :=
  (∀ (level : Bool) (s : State), (level = true ∨ s.rst = true) →
    let t := resetEvent Config.params level s
    t.rst = level ∧
      (∀ w, regValue t w =
        if w = 0x000 then 0x43434D01
        else if w = 0x004 then Config.params.cipherBs.toNat * 65536 + 16 * 256 + 16
        else if w = 0x008 then Config.params.bufBytes
        else 0) ∧
      irqLine t = false ∧ t.inst = { configured := false, n := 0, t := 0 } ∧
      t.eng.ci = zeroBlock ∧ t.eng.p = 0 ∧ t.seq.state = .idle ∧
      t.seq.op = .configure ∧ t.seq.ctr = zeroBlock ∧ t.seq.s0 = zeroBlock ∧ t.seq.x = zeroBlock ∧ t.seq.ks = zeroBlock ∧
      t.seq.tagc = zeroBlock ∧ t.seq.diff = 0 ∧ t.seq.blk = 0 ∧ t.seq.k = 0 ∧ t.seq.code = .ok ∧ t.seq.rlen = 0 ∧
      t.seq.plen = 0 ∧ t.seq.m = 0 ∧ t.seq.q = 0 ∧
      (s.busy = false → t.buf = s.buf)) ∧
    ∀ s : State, s.rst = false → resetEvent Config.params false s = s

/-- After a reset during a SEAL or OPEN that passed its checks, each byte of its OUT region holds its value before
the command, the value the command computes there, or 0; every byte outside is unchanged (70_reset R293). For an OPEN
the value is the recovered plaintext's byte (log 8). -/
def Obligations.AbortedCommandOutput : Prop :=
  ∀ s : State, Inv Config.params s → s.busy = true →
    let t := resetEvent Config.params true s
    (∀ a, ¬(s.regs.outOff.toNat ≤ a ∧ a < s.regs.outOff.toNat + outputBytes Config.params s) →
      t.byte a = Memory.read Config.params s.bufStart a) ∧
    (∀ k, k < outputBytes Config.params s →
      let a := s.regs.outOff.toNat + k
      let s0 := { s with buf := s.bufStart }
      t.byte a = s0.byte a ∨ t.byte a = 0 ∨
        (s.seq.op = .sealCmd ∧ ∃ r,
          ccmSeal Config.params s.nonceSize s.tagSize (operandNonce s) (operandAd s0) (operandInput s0) = .ok r ∧
          t.byte a = r.getD k 0) ∨
        (s.seq.op = .openCmd ∧
          t.byte a = (ctrXor Config.params s.nonceSize (operandNonce s)
            ((operandInput s0).take (s.regs.inLen.toNat - s.tagSize))).getD k 0))

/-- While rst = 1 no host transaction is served (reads return 0, writes are ignored), no command starts and no
accumulator word runs (70_reset R290; the lost port word and core event are the model's, log 15). -/
def Obligations.HeldInResetServesNothing : Prop :=
  ∀ s : State, s.rst = true →
    (∀ a, exec (.regRead a) s = .next { s with rdata := 0 }) ∧
    (∀ a, exec (.bufRead a) s = .next { s with rdata := 0 }) ∧
    (∀ i, i.wellFormed = true → (∀ a, i ≠ .regRead a) → (∀ a, i ≠ .bufRead a) → exec i s = .next s) ∧
    coreEvent Config.params s = .next s

/-! ### Host bus operations -/

/-- REG_READ returns the register's value and changes nothing else (42 R190, 20_memory R92). -/
def Obligations.RegReadReturnsRegister : Prop :=
  ∀ (s : State) (a : BitVec 12), s.rst = false →
    ∃ v : Word, exec (.regRead a) s = .next { s with rdata := v } ∧ v.toNat = regValue s (wordOffset a.toNat)

/-- REG_WRITE stores the implemented bits, starts a command at CMD, acknowledges at STATUS, and changes nothing
else; while BUSY = 1 it changes nothing (42 R191). -/
def Obligations.RegWriteStoresRegister : Prop :=
  ∀ (s : State) (a : BitVec 12) (d : Word),
    (Ready s → exec (.regWrite a d) s = .next (afterRegWrite s (wordOffset a.toNat) d)) ∧
    (s.busy = true → exec (.regWrite a d) s = .next s)

/-- Starting a command by a write to CMD sets BUSY, clears DONE and ERR, notes the opcode, enters CHECK and drops the
interrupt line; no register, buffer byte, accumulator or instance field changes (42 R194, 43 R231). -/
def Obligations.CommandStartSetsBusy : Prop :=
  ∀ (s : State) (d : Word), Ready s →
    ∃ t, exec (.regWrite 0x010 d) s = .next t ∧ t.busy = true ∧ t.status.done = false ∧ t.status.err = .ok ∧
      t.status.lastOp.toNat = d.toNat % 16 ∧ t.seq.state = .check ∧ t.seq.op = commandNamed (d.toNat % 16) ∧
      irqLine t = false ∧ t.regs = s.regs ∧ t.inst = s.inst ∧ t.eng = s.eng ∧ t.buf = s.buf ∧ t.rst = s.rst ∧
      t.rdata = s.rdata ∧ t.inbox = s.inbox ∧ t.draws = s.draws

/-- While BUSY = 1 every BUF read returns 0, every BUF write and REG write changes nothing, and REG reads are served
with current values (20_memory R89, R90). -/
def Obligations.RunningCommandLocksHostOut : Prop :=
  ∀ s : State, s.busy = true →
    (∀ a, exec (.bufRead a) s = .next { s with rdata := 0 }) ∧
    (∀ a d be, exec (.bufWrite a d be) s = .next s) ∧
    (∀ a d, exec (.regWrite a d) s = .next s) ∧
    (s.rst = false → ∀ a, ∃ v : Word, exec (.regRead a) s = .next { s with rdata := v } ∧
      v.toNat = regValue s (wordOffset a.toNat))

/-- BUF_READ returns the little-endian word at the word offset, 0 while BUSY = 1 and out of range, and changes
nothing else (42 R192). -/
def Obligations.BufReadReturnsWord : Prop :=
  ∀ (s : State) (a : Word), s.rst = false →
    ∃ v : Word, exec (.bufRead a) s = .next { s with rdata := v } ∧
      v.toNat =
        if s.busy = true ∨ Config.params.bufBytes < wordOffset a.toNat + 4 then 0
        else (s.byte (wordOffset a.toNat)).toNat + (s.byte (wordOffset a.toNat + 1)).toNat * 256 +
          (s.byte (wordOffset a.toNat + 2)).toNat * 65536 + (s.byte (wordOffset a.toNat + 3)).toNat * 16777216

/-- BUF_WRITE stores the enabled lanes of an in-range word, every other byte and everything else unchanged; while
BUSY = 1 or out of range it changes nothing (42 R193). -/
def Obligations.BufWriteStoresEnabledLanes : Prop :=
  ∀ (s : State) (a d : Word) (be : BitVec 4), s.rst = false → BufWf s →
    ∃ t, exec (.bufWrite a d be) s = .next t ∧ t = { s with buf := t.buf } ∧
      (s.busy = true ∨ Config.params.bufBytes < wordOffset a.toNat + 4 → t = s) ∧
      (s.busy = false → wordOffset a.toNat + 4 ≤ Config.params.bufBytes →
        ∀ x, t.byte x =
          if wordOffset a.toNat ≤ x ∧ x < wordOffset a.toNat + 4 ∧ be.getLsbD (x - wordOffset a.toNat) = true
          then busByte d (x - wordOffset a.toNat) else s.byte x)

/-- A word written with all enables reads back as written (20_memory R84, R87). -/
def Obligations.BufWordReadsBackAsWritten : Prop :=
  ∀ (s : State) (a d : Word), Ready s → BufWf s → wordOffset a.toNat + 4 ≤ Config.params.bufBytes →
    ∃ t, exec (.bufWrite a d 0xF) s = .next t ∧ exec (.bufRead a) t = .next { t with rdata := d }

/-- Bits 1:0 of the offset are ignored by all four bus operations (20_memory R82). -/
def Obligations.LowAddressBitsIgnored : Prop :=
  ∀ s : State,
    (∀ a, exec (.regRead a) s = exec (.regRead (BitVec.ofNat 12 (wordOffset a.toNat))) s) ∧
    (∀ a d, exec (.regWrite a d) s = exec (.regWrite (BitVec.ofNat 12 (wordOffset a.toNat)) d) s) ∧
    (∀ a, exec (.bufRead a) s = exec (.bufRead (BitVec.ofNat 32 (wordOffset a.toNat))) s) ∧
    (∀ a d be, exec (.bufWrite a d be) s = exec (.bufWrite (BitVec.ofNat 32 (wordOffset a.toNat)) d be) s)

/-- A write of 1 to STATUS bit 1 clears DONE and drops the interrupt line; a write of 0 there changes nothing; every
other bit of the data is ignored (42 R202). -/
def Obligations.StatusWriteOneClearsDone : Prop :=
  ∀ (s : State) (d : Word), Ready s →
    (d.getLsbD 1 = true → ∃ t, exec (.regWrite 0x014 d) s = .next t ∧
      t = { s with status := { s.status with done := false } } ∧ irqLine t = false) ∧
    (d.getLsbD 1 = false → exec (.regWrite 0x014 d) s = .next s)

/-- What a register written reads back as: its implemented bits, the reserved ones 0 (10_state R36, R39, R41-R47). -/
def Obligations.RegisterReadsBackImplementedBits : Prop :=
  ∀ (s : State) (d : Word), Ready s → ∀ (a : BitVec 12) (mask : Word),
    (a, mask) ∈ [(0x00C#12, 0x00001F0F#32), (0x018#12, 0x1#32), (0x020#12, 0xFFFFFFFF#32), (0x024#12, 0xFFFFFFFF#32),
      (0x028#12, 0xFFFFFFFF#32), (0x02C#12, 0xFFFFFFFF#32), (0x030#12, 0x1F#32), (0x040#12, 0xFFFFFFFF#32),
      (0x044#12, 0xFFFFFFFF#32), (0x048#12, 0xFFFFFFFF#32), (0x04C#12, 0xFFFFFFFF#32), (0x050#12, 0xFFFFFFFF#32)] →
    ∃ t, exec (.regWrite a d) s = .next t ∧ exec (.regRead a) t = .next { t with rdata := d &&& mask }

/-! ### The accumulator -/

/-- ACC_WRITE XORs the byte into ci at the cursor and advances it; the 16th byte encrypts ci once and returns the
cursor to 0. Nothing else changes (40 R141, R146). -/
def Obligations.AccWriteXorsAndEncrypts : Prop :=
  ∀ (s : State) (b : Byte), s.rst = false →
    ∃ (x : Block) (e : Engine), exec (.accWrite b) s = .next { s with eng := e } ∧
      (∀ k (hk : k < 16), x[k] = if k = s.eng.p.val then s.eng.ci[k] ^^^ b else s.eng.ci[k]) ∧
      (s.eng.p.val ≠ 15 →
        e = { s.eng with ci := x, p := e.p } ∧ e.p.val = s.eng.p.val + 1) ∧
      (s.eng.p.val = 15 → e = { s.eng with ci := Config.params.E x, p := 0, calls := s.eng.calls ++ [x] })

/-- ACC_PADZERO encrypts a pending partial block once and returns the cursor to 0; with none pending it changes
nothing (40 R142). -/
def Obligations.AccPadZeroFlushes : Prop :=
  ∀ s : State, s.rst = false →
    (s.eng.p = 0 → exec .accPadZero s = .next s) ∧
    (s.eng.p ≠ 0 → exec .accPadZero s = .next { s with eng :=
      { s.eng with ci := Config.params.E s.eng.ci, p := 0, calls := s.eng.calls ++ [s.eng.ci] } })

/-- ACC_SUM flushes as ACC_PADZERO does and responds with ci, which it leaves; it does not reset (40 R143). -/
def Obligations.AccSumRespondsWithMac : Prop :=
  ∀ s : State, s.rst = false →
    (s.eng.p = 0 → exec .accSum s = .next { s with eng := { s.eng with resp := s.eng.ci } }) ∧
    (s.eng.p ≠ 0 → exec .accSum s = .next { s with eng :=
      { s.eng with
        ci := Config.params.E s.eng.ci, p := 0, resp := Config.params.E s.eng.ci
        calls := s.eng.calls ++ [s.eng.ci] } })

/-- ACC_RESET zeroes ci and the cursor, with no cipher call and nothing else changed (40 R144). -/
def Obligations.AccResetZeroes : Prop :=
  ∀ s : State, s.rst = false →
    exec .accReset s = .next { s with eng := { s.eng with ci := Vector.replicate 16 0#8, p := 0 } }

/-- Padding has the effect of writing 16 - p zero bytes (40 R142). -/
def Obligations.PaddingEqualsZeroBytes : Prop :=
  ∀ e : Engine, e.p ≠ 0 →
    accWriteAll Config.params (List.replicate (16 - e.p.val) 0#8) e = accPadZero Config.params e

/-- From ACC_RESET, writing a string and padding leaves p = 0 and ci the CBC-MAC chain over its zero-padded blocks;
writing a further string continues the chain (40 R149). -/
def Obligations.CbcMacChain : Prop :=
  ∀ (e : Engine) (s s' : Bytes),
    let y := accPadZero Config.params (accWriteAll Config.params s (accReset e))
    let y' := accPadZero Config.params (accWriteAll Config.params s' y)
    y.p = 0 ∧ y.ci = cbcChain Config.params (Vector.replicate 16 0#8) s ∧
      y'.p = 0 ∧ y'.ci = cbcChain Config.params y.ci s'

/-- A string of whole blocks from p = 0 leaves nothing to pad: ACC_PADZERO then calls E zero times and changes nothing
(40 R150). -/
def Obligations.WholeBlocksNeedNoPadding : Prop :=
  ∀ (e : Engine) (s : Bytes), e.p = 0 → s.length % 16 = 0 →
    accPadZero Config.params (accWriteAll Config.params s e) = accWriteAll Config.params s e

/-- How often each accumulator operation calls E (40 R151), as the model's record of the calls shows it (log 17). -/
def Obligations.AccumulatorCallCounts : Prop :=
  ∀ (e : Engine) (s : Bytes),
    (accWriteAll Config.params s e).calls.length = e.calls.length + (e.p.val + s.length) / 16 ∧
    (accPadZero Config.params e).calls.length = e.calls.length + (if e.p = 0 then 0 else 1) ∧
    (accSum Config.params e).calls.length = e.calls.length + (if e.p = 0 then 0 else 1) ∧
    (accReset e).calls.length = e.calls.length

/-! ### Formatting -/

/-- T_full is the CBC-MAC chain over B0, the padded prefix and associated data, and the padded payload; ACC_SUM after
a padding makes no cipher call (41 R171). -/
def Obligations.TagOverPaddedBlocks : Prop :=
  (∀ e : Engine,
    (accSum Config.params (accPadZero Config.params e)).calls = (accPadZero Config.params e).calls) ∧
  ∀ (n t : Nat) (nonce ad pt : Bytes),
    tagCompute Config.params n t nonce ad pt =
      cbcChain Config.params (Vector.replicate 16 0#8)
        ((b0Block (ctrBlock n nonce 0) (15 - n) t pt.length ad.length).toList ++
          padded (adPrefix ad.length ++ ad) ++ padded pt)

/-- The layout of Ctr_i: the flags byte q - 1, the nonce, the big-endian counter (41 R162, R163). -/
def Obligations.CounterBlockLayout : Prop :=
  ∀ (n i : Nat) (nonce : Bytes), 7 ≤ n → n ≤ 13 → nonce.length = n → i < 2 ^ (8 * (15 - n)) →
    ∀ k (hk : k < 16), (ctrBlock n nonce i)[k].toNat =
      if k = 0 then 15 - n - 1
      else if k ≤ n then (nonce.getD (k - 1) 0).toNat
      else i / 256 ^ (15 - k) % 256

/-- The layout of B0: the flags byte, the nonce, the big-endian payload length (41 R166, R167). -/
def Obligations.FirstAuthBlockLayout : Prop :=
  ∀ (n t p a : Nat) (nonce : Bytes), 7 ≤ n → n ≤ 13 → 4 ≤ t → t ≤ 16 → t % 2 = 0 → nonce.length = n →
    p ≤ 2 ^ (8 * (15 - n)) - 1 →
    ∀ k (hk : k < 16), (b0Block (ctrBlock n nonce 0) (15 - n) t p a)[k].toNat =
      if k = 0 then (if 0 < a then 64 else 0) + 8 * ((t - 2) / 2) + (15 - n - 1)
      else if k ≤ n then (nonce.getD (k - 1) 0).toNat
      else p / 256 ^ (15 - k) % 256

/-- The associated-data length prefix by its three tiers (41 R168). -/
def Obligations.LengthPrefixTiers : Prop :=
  ∀ a : Nat, a < 2 ^ 64 →
    (a = 0 → adPrefix a = []) ∧
    (0 < a → a < 65280 → adPrefix a = [BitVec.ofNat 8 (a / 256), BitVec.ofNat 8 a]) ∧
    (65280 ≤ a → a ≤ 2 ^ 31 - 1 → adPrefix a =
      [0xFF, 0xFE, BitVec.ofNat 8 (a / 256 ^ 3), BitVec.ofNat 8 (a / 256 ^ 2), BitVec.ofNat 8 (a / 256),
        BitVec.ofNat 8 a]) ∧
    (2 ^ 31 - 1 < a → adPrefix a =
      [0xFF, 0xFF, BitVec.ofNat 8 (a / 256 ^ 7), BitVec.ofNat 8 (a / 256 ^ 6), BitVec.ofNat 8 (a / 256 ^ 5),
        BitVec.ofNat 8 (a / 256 ^ 4), BitVec.ofNat 8 (a / 256 ^ 3), BitVec.ofNat 8 (a / 256 ^ 2),
        BitVec.ofNat 8 (a / 256), BitVec.ofNat 8 a])

/-- For an admitted payload the counter stays below 2^(8q), and each next counter block is the former plus one as a
16-byte big-endian number (41 R164). -/
def Obligations.CounterNeverWraps : Prop :=
  ∀ (n p : Nat) (nonce : Bytes), 7 ≤ n → n ≤ 13 → nonce.length = n → p ≤ maxPayload n →
    blocks p < 2 ^ (8 * (15 - n)) ∧
    ∀ i, i < blocks p → blockNat (ctrBlock n nonce (i + 1)) = blockNat (ctrBlock n nonce i) + 1

/-- The keystream cancels itself, and opening what was sealed gives the plaintext back, for every non-empty admitted
plaintext (41 R181). -/
def Obligations.SealThenOpenRecovers : Prop :=
  ∀ (n t : Nat) (nonce ad pt : Bytes), 7 ≤ n → n ≤ 13 → 4 ≤ t → t ≤ 16 → t % 2 = 0 → nonce.length = n →
    pt.length ≤ maxPayload n →
    ctrXor Config.params n nonce (ctrXor Config.params n nonce pt) = pt ∧
    (0 < pt.length → ∃ r, ccmSeal Config.params n t nonce ad pt = .ok r ∧ ccmOpen Config.params n t nonce ad r = .ok pt)

/-- A sealed message with any other tag in place of its own is rejected (41 R177, R178). -/
def Obligations.WrongTagIsRejected : Prop :=
  ∀ (n t : Nat) (nonce ad pt tag : Bytes), 7 ≤ n → n ≤ 13 → 4 ≤ t → t ≤ 16 → t % 2 = 0 → nonce.length = n →
    0 < pt.length → pt.length ≤ maxPayload n → tag.length = t → tag ≠ ccmTag Config.params n t nonce ad pt →
    ccmOpen Config.params n t nonce ad (ctrXor Config.params n nonce pt ++ tag) = .error .authenticationFailed

/-! ### The checks -/

/-- SealCheck reports the first failing check in its order (42 R198, R203, 60 R271). -/
def Obligations.SealCheckOrder : Prop :=
  ∀ s : State,
    let n := s.regs.inLen.toNat + s.inst.t.toNat
    (s.inst.configured = false → sealCheck Config.params s = .notConfigured) ∧
    (s.inst.configured = true →
      (s.regs.nonceLen.toNat ≠ s.inst.n.toNat → sealCheck Config.params s = .invalidNonceSize) ∧
      (s.regs.nonceLen.toNat = s.inst.n.toNat →
        (2 ^ (8 * (15 - s.inst.n.toNat)) - 1 < s.regs.inLen.toNat →
          sealCheck Config.params s = .maxPayloadSizeReached) ∧
        (s.regs.inLen.toNat ≤ 2 ^ (8 * (15 - s.inst.n.toNat)) - 1 →
          (LeavesBuffer s n → sealCheck Config.params s = .range) ∧
          (¬LeavesBuffer s n → ForbiddenOverlap s n → sealCheck Config.params s = .overlap) ∧
          (¬LeavesBuffer s n → ¬ForbiddenOverlap s n → sealCheck Config.params s = .ok))))

/-- OpenCheck reports the first failing check in its order (42 R200, R203, 60 R271). -/
def Obligations.OpenCheckOrder : Prop :=
  ∀ s : State,
    let n := s.regs.inLen.toNat - s.inst.t.toNat
    (s.inst.configured = false → openCheck Config.params s = .notConfigured) ∧
    (s.inst.configured = true →
      (s.regs.nonceLen.toNat ≠ s.inst.n.toNat → openCheck Config.params s = .invalidNonceSize) ∧
      (s.regs.nonceLen.toNat = s.inst.n.toNat →
        (s.regs.inLen.toNat ≤ s.inst.t.toNat → openCheck Config.params s = .invalidTagSize) ∧
        (s.inst.t.toNat < s.regs.inLen.toNat →
          (2 ^ (8 * (15 - s.inst.n.toNat)) - 1 < n → openCheck Config.params s = .maxPayloadSizeReached) ∧
          (n ≤ 2 ^ (8 * (15 - s.inst.n.toNat)) - 1 →
            (LeavesBuffer s n → openCheck Config.params s = .range) ∧
            (¬LeavesBuffer s n → ForbiddenOverlap s n → openCheck Config.params s = .overlap) ∧
            (¬LeavesBuffer s n → ¬ForbiddenOverlap s n → openCheck Config.params s = .ok)))))

/-! ### The commands

The meaning of a command word is the host's write of it to CMD with the whole command it starts (log 4). -/

/-- CONFIGURE completes with the code of its first failing check, or OK; it creates the instance and resets the
accumulator, or drops the instance and leaves the accumulator; no register, no buffer byte and nothing on the host's
side changes (42 R196, R195). -/
def Obligations.ConfigureCreatesOrDropsInstance : Prop :=
  ∀ s : State, Ready s → s.eng.port = [] →
    let code : ResultCode :=
      if Config.params.cipherBs.toNat ≠ 16 then .invalidBlockSize
      else if ¬(7 ≤ s.regs.cfgN.toNat ∧ s.regs.cfgN.toNat ≤ 13) then .invalidNonceSize
      else if ¬(4 ≤ s.regs.cfgT.toNat ∧ s.regs.cfgT.toNat ≤ 16 ∧ s.regs.cfgT.toNat % 2 = 0) then .invalidTagSize
      else .ok
    ∃ t, exec .configure s = .next t ∧ t.busy = false ∧ t.status = { done := true, err := code, lastOp := 1 } ∧
      (code = .ok → t.inst = { configured := true, n := s.regs.cfgN, t := s.regs.cfgT } ∧
        t.eng = { s.eng with ci := Vector.replicate 16 0#8, p := 0 }) ∧
      (code ≠ .ok → t.inst = { configured := false, n := 0, t := 0 } ∧ t.eng = s.eng) ∧
      t.regs = s.regs ∧ t.buf = s.buf ∧ SameHost s t

/-- An illegal opcode completes with ILLEGAL_COMMAND and LAST_OP its opcode; no register, instance field,
accumulator state or buffer byte and nothing on the host's side changes (42 R201). -/
def Obligations.IllegalOpcodeOnlyReports : Prop :=
  ∀ (s : State) (i : Instr), Ready s → i.wellFormed = true → formatOf i = .cmd →
    i ≠ .configure → i ≠ .sealMsg → i ≠ .openMsg →
    ∃ t, exec i s = .next t ∧ t.busy = false ∧
      t.status = { done := true, err := .illegalCommand, lastOp := opcodeOf i } ∧
      t.regs = s.regs ∧ t.inst = s.inst ∧ t.eng = s.eng ∧ t.buf = s.buf ∧ SameHost s t

/-- A SEAL or OPEN that fails a check completes with the check's code and OUT_LEN = 0, and changes no buffer byte,
no accumulator state, no cipher call, no instance field (42 R207). -/
def Obligations.FailedChecksChangeNothing : Prop :=
  ∀ (s : State), Ready s →
    (sealCheck Config.params s ≠ .ok → ∃ t, exec .sealMsg s = .next t ∧ t.busy = false ∧
      t.status = { done := true, err := sealCheck Config.params s, lastOp := 2 } ∧ t.regs.outLen = 0 ∧
      t.inst = s.inst ∧ t.eng = s.eng ∧ t.buf = s.buf ∧ SameHost s t) ∧
    (openCheck Config.params s ≠ .ok → ∃ t, exec .openMsg s = .next t ∧ t.busy = false ∧
      t.status = { done := true, err := openCheck Config.params s, lastOp := 3 } ∧ t.regs.outLen = 0 ∧
      t.inst = s.inst ∧ t.eng = s.eng ∧ t.buf = s.buf ∧ SameHost s t)

/-- SEAL: when its checks pass, the OUT region holds CCMSeal of the operands at the start (in place or not), every
other byte is unchanged, OUT_LEN = P + T, STATUS = 0x206, the accumulator holds T_full with p = 0, and no other
register, no instance field and nothing on the host's side changes (42 R205, R208). -/
def Obligations.SealComputesCcm : Prop :=
  ∀ s : State, Ready s → InstanceOk s → BufWf s → sealCheck Config.params s = .ok →
    ∃ t r, exec .sealMsg s = .next t ∧
      ccmSeal Config.params s.nonceSize s.tagSize (operandNonce s) (operandAd s) (operandInput s) = .ok r ∧
      r.length = s.regs.inLen.toNat + s.tagSize ∧
      (∀ a, t.byte a =
        if s.regs.outOff.toNat ≤ a ∧ a < s.regs.outOff.toNat + (s.regs.inLen.toNat + s.tagSize)
        then r.getD (a - s.regs.outOff.toNat) 0 else s.byte a) ∧
      t.regs.outLen.toNat = s.regs.inLen.toNat + s.tagSize ∧ statusWord t = 0x00000206 ∧
      t.status = { done := true, err := .ok, lastOp := 2 } ∧ t.busy = false ∧ t.inst = s.inst ∧
      t.eng.ci = tagCompute Config.params s.nonceSize s.tagSize (operandNonce s) (operandAd s) (operandInput s) ∧
      t.eng.p = 0 ∧ SameHost s t

/-- OPEN: when its checks pass, either CCMOpen accepts, and the OUT region holds the plaintext, OUT_LEN = P and
STATUS = 0x306; or it fails, and the OUT region holds zeros, OUT_LEN = 0 and STATUS = 0x356. Every other byte is
unchanged, the accumulator holds T_full with p = 0, and no other register, no instance field and nothing on the host's
side changes (42 R206, R208). -/
def Obligations.OpenVerifiesOrWipes : Prop :=
  ∀ s : State, Ready s → InstanceOk s → BufWf s → openCheck Config.params s = .ok →
    let p := s.regs.inLen.toNat - s.tagSize
    let pt := ctrXor Config.params s.nonceSize (operandNonce s) ((operandInput s).take p)
    let result := ccmOpen Config.params s.nonceSize s.tagSize (operandNonce s) (operandAd s) (operandInput s)
    ∃ t, exec .openMsg s = .next t ∧ t.busy = false ∧ t.inst = s.inst ∧
      t.eng.ci = tagCompute Config.params s.nonceSize s.tagSize (operandNonce s) (operandAd s) pt ∧
      t.eng.p = 0 ∧ SameHost s t ∧
      ((result = .ok pt ∧ t.regs.outLen.toNat = p ∧ statusWord t = 0x00000306 ∧
          t.status = { done := true, err := .ok, lastOp := 3 } ∧
          ∀ a, t.byte a = if s.regs.outOff.toNat ≤ a ∧ a < s.regs.outOff.toNat + p
            then pt.getD (a - s.regs.outOff.toNat) 0 else s.byte a) ∨
        (result = .error .authenticationFailed ∧ t.regs.outLen = 0 ∧ statusWord t = 0x00000356 ∧
          t.status = { done := true, err := .authenticationFailed, lastOp := 3 } ∧
          ∀ a, t.byte a = if s.regs.outOff.toNat ≤ a ∧ a < s.regs.outOff.toNat + p then 0 else s.byte a))

/-- A message sealed on the machine and opened in place on the machine gives its plaintext back in the buffer
(41 R181, 42 R205, R206): `t` is the state after the SEAL, with IN set to its OUT region for the OPEN. -/
def Obligations.MachineRoundTripInPlace : Prop :=
  ∀ s : State, Ready s → InstanceOk s → BufWf s → sealCheck Config.params s = .ok → 0 < s.regs.inLen.toNat →
    ∃ t u, exec .sealMsg s = .next t ∧
      exec .openMsg { t with regs := { t.regs with inOff := t.regs.outOff, inLen := t.regs.outLen } } = .next u ∧
      statusWord u = 0x00000306 ∧ u.regs.outLen = s.regs.inLen ∧
      u.bytesAt s.regs.outOff.toNat s.regs.inLen.toNat = operandInput s

/-- A command word while a command runs, or while rst = 1, does nothing: it is not queued (10_state R37,
20_memory R90, 70_reset R290). -/
def Obligations.CommandIgnoredWhileLocked : Prop :=
  ∀ (s : State) (i : Instr), (s.busy = true ∨ s.rst = true) → formatOf i = .cmd → exec i s = .next s

/-- Every command completes: BUSY falls, DONE rises, LAST_OP is its opcode, and the interrupt line is up exactly when
it is enabled (42 R195, 60 R274). -/
def Obligations.EveryCommandCompletes : Prop :=
  ∀ (s : State) (i : Instr), Ready s → BufWf s → i.wellFormed = true → formatOf i = .cmd →
    ∃ t, exec i s = .next t ∧ t.busy = false ∧ t.status.done = true ∧ t.status.lastOp = opcodeOf i ∧
      irqLine t = s.regs.doneIe ∧ t.regs = { s.regs with outLen := t.regs.outLen }

/-- The number of core steps from a command's start to IDLE: 2 for CONFIGURE, for illegal opcodes and after a failed
check; else 8 + m without and 10 + a + m with associated data, and one more for the wipe (70_reset R303). -/
def Obligations.CoreStepCounts : Prop :=
  ∀ (s : State) (op : BitVec 4), Ready s → InstanceOk s → BufWf s →
    let a := s.regs.adLen.toNat
    let p := s.regs.inLen.toNat - s.tagSize
    let n : Nat :=
      if op = 2 then
        (if sealCheck Config.params s = .ok then acceptedSteps a ((s.regs.inLen.toNat + 15) / 16) else 2)
      else if op = 3 then
        (if openCheck Config.params s = .ok then
          (if ccmOpen Config.params s.nonceSize s.tagSize (operandNonce s) (operandAd s) (operandInput s) =
              .error .authenticationFailed
            then acceptedSteps a ((p + 15) / 16) + 1 else acceptedSteps a ((p + 15) / 16))
          else 2)
      else 2
    (∀ k, k < n → (coreSteps k (s.start op)).busy = true) ∧ (coreSteps n (s.start op)).busy = false

/-- The meaning of a command word is what the machine's own steps reach after the host's write of that word to CMD:
no event intervening, some number of steps leads there (20_memory R97, 43 preamble). -/
def Obligations.MergedCommandEqualsCoreSteps : Prop :=
  ∀ (s : State) (w : Word), Ready s → s.eng.port = [] → s.inbox = [] →
    ∃ u n t, exec (.regWrite 0x010 w) s = .next u ∧ Sys2Proof.core.run n u = .next t ∧
      exec (decodeCmd w) s = .next t

/-- Up to EMIT or VERIFY the sequence of sequencer states depends on the command, the associated-data length and the
payload length alone: not on the cipher, the nonce, or any data byte (43 R249). -/
def Obligations.StateSequenceDataIndependent : Prop :=
  ∀ (c₁ c₂ : Params) (s₁ s₂ : State) (op : BitVec 4) (p : Nat),
    Ready s₁ → Ready s₂ → s₁.regs.adLen = s₂.regs.adLen →
    ((op = 2 ∧ sealCheck c₁ s₁ = .ok ∧ sealCheck c₂ s₂ = .ok ∧ s₁.regs.inLen.toNat = p ∧ s₂.regs.inLen.toNat = p) ∨
      (op = 3 ∧ openCheck c₁ s₁ = .ok ∧ openCheck c₂ s₂ = .ok ∧ s₁.regs.inLen.toNat = p + s₁.tagSize ∧
        s₂.regs.inLen.toNat = p + s₂.tagSize)) →
    ∀ k, k ≤ acceptedSteps s₁.regs.adLen.toNat (blocks p) - 2 →
      ((coreStep c₁)^[k] (s₁.start op)).seq.state = ((coreStep c₂)^[k] (s₂.start op)).seq.state

/-- How often a SEAL or OPEN that passes its checks calls the cipher: S0, B0, the blocks of prefix and associated
data, and twice per payload block (43 R246), as the model's record of the calls shows it (log 17). -/
def Obligations.CipherCallCounts : Prop :=
  ∀ s : State, Ready s → BufWf s → s.eng.port = [] →
    let a := s.regs.adLen.toNat
    let la := if a = 0 then 0 else (adPrefix a).length + a
    (sealCheck Config.params s = .ok → ∃ t, exec .sealMsg s = .next t ∧
      t.eng.calls.length = s.eng.calls.length + (2 + (la + 15) / 16 + 2 * ((s.regs.inLen.toNat + 15) / 16))) ∧
    (openCheck Config.params s = .ok → ∃ t, exec .openMsg s = .next t ∧
      t.eng.calls.length = s.eng.calls.length +
        (2 + (la + 15) / 16 + 2 * ((s.regs.inLen.toNat - s.tagSize + 15) / 16)))

/-- A core step writes no buffer byte outside the OUT region of a SEAL or OPEN that passed its checks; CONFIGURE and
illegal commands write none (20_memory R93). -/
def Obligations.CoreWritesOnlyOutput : Prop :=
  ∀ s : State, Inv Config.params s → ∀ a,
    ¬(s.regs.outOff.toNat ≤ a ∧ a < s.regs.outOff.toNat + outputBytes Config.params s) →
    (coreStep Config.params s).byte a = s.byte a

/-! ### Invariants and whole-machine rules -/

/-- The state after reset meets the invariant. -/
def Obligations.ResetStateMeetsInvariant : Prop := Inv Config.params State.reset

/-- Every step keeps the invariant: the instance's legal values (10_state R50), the buffer's canonical form and
bounds, the scratch widths (10_state R55, 43 R230), the sequencer's phases, and every byte outside the OUT region. -/
def Obligations.StepKeepsInvariant : Prop :=
  ∀ s t : State, Inv Config.params s → step s = .next t → Inv Config.params t

/-- From a state that meets the invariant every step answers a next state: the machine never stops. -/
def Obligations.StepAlwaysAnswers : Prop := ∀ s : State, Inv Config.params s → ∃ t, step s = .next t

/-- Only a CONFIGURE command and reset write the instance (10_state R50). -/
def Obligations.OnlyConfigureAndResetWriteInstance : Prop :=
  ∀ s t : State, step s = .next t → t.inst ≠ s.inst →
    (nextAction s).1 = .run .configure ∨ (∃ l, (nextAction s).1 = .reset l) ∨
      ((nextAction s).1 = .core ∧ s.seq.state = .done ∧ s.seq.op = .configure)

/-- OUT_LEN is written only at the completion of SEAL and OPEN, and by reset (10_state R48, 42 R204). -/
def Obligations.OnlySealAndOpenWriteOutLen : Prop :=
  ∀ s t : State, step s = .next t → t.regs.outLen ≠ s.regs.outLen →
    (nextAction s).1 = .run .sealMsg ∨ (nextAction s).1 = .run .openMsg ∨ (∃ l, (nextAction s).1 = .reset l) ∨
      ((nextAction s).1 = .core ∧ s.seq.state = .done ∧ (s.seq.op = .sealCmd ∨ s.seq.op = .openCmd))

/-- No host transaction writes the accumulator, and nothing a transaction does or returns depends on it
(40 R140). -/
def Obligations.HostCannotReachAccumulator : Prop :=
  ∀ (i : Instr) (s t : State) (e : Engine), formatOf i = .bus → exec i s = .next t →
    t.eng = s.eng ∧ exec i { s with eng := e } = .next { t with eng := e }

/-- Nonce bytes N to 15 are ignored by every command (10_state R41): another tail leaves every result the same. -/
def Obligations.NonceTailIgnored : Prop :=
  ∀ (s : State) (nb : Block) (i : Instr), formatOf i = .cmd → i.wellFormed = true → Ready s →
    (∀ k (hk : k < 16), k < s.nonceSize → nb[k] = s.regs.nonce[k]) →
    ∃ t, exec i s = .next t ∧
      exec i { s with regs := { s.regs with nonce := nb } } = .next { t with regs := { t.regs with nonce := nb } }

/-- Two buffers in the canonical form that read the same everywhere are the same data (the model's form, log 6). -/
def Obligations.CanonicalMemoryIsUnique : Prop :=
  ∀ m m' : Memory, Memory.wf Config.params m → Memory.wf Config.params m' →
    (∀ a, Memory.read Config.params m a = Memory.read Config.params m' a) → m = m'

/-- The interrupt line is DONE and DONE_IE: enabling it while DONE = 1 raises it at once, disabling holds it at 0
with DONE unchanged (60 R274). -/
def Obligations.InterruptLineIsLevel : Prop :=
  ∀ (s : State) (d : Word), Ready s →
    ∃ t, exec (.regWrite 0x018 d) s = .next t ∧ t.status = s.status ∧
      irqLine t = (s.status.done && d.getLsbD 0)
end

