-- ==== Sys2Proof/Laws/Encoding.lean ====
section
/-!
SUPPORT. The encodings: bytes and numbers, the fields of the three words, what each decoder gives, and
which rows of the opcode map a word matches (30_encoding R110-R116).
-/

namespace Sys2Proof

/-! ### Bytes and numbers -/

theorem bytesOfNat_length : ∀ n v, (bytesOfNat n v).length = n := by
  intro n
  induction n with
  | zero => intro v; rfl
  | succ n ih => intro v; simp [bytesOfNat, ih]

theorem natOfBytes_bytesOfNat : ∀ n v, natOfBytes (bytesOfNat n v) = v % 256 ^ n := by
  intro n
  induction n with
  | zero => intro v; simp [bytesOfNat, natOfBytes, Nat.mod_one]
  | succ n ih => intro v; simp only [bytesOfNat, natOfBytes, ih, Nat.pow_succ']; rw [Nat.mod_mul]; simp

theorem ofNat_mod (n w m : Nat) (h : 2 ^ n ∣ m) : BitVec.ofNat n (w % m) = BitVec.ofNat n w := by
  apply BitVec.eq_of_toNat_eq
  simp only [BitVec.toNat_ofNat]
  rw [Nat.mod_mod_of_dvd _ h]

/-- The decoder on the nine bytes of a number. -/
theorem decode_bus (w : Nat) : decode .bus (bytesOfNat 9 w) =
    if w % 256 ^ 9 < 2 ^ 70 then .ok (decodeBus (BitVec.ofNat 70 w)) else .error .bitsAboveFormat := by
  unfold decode
  rw [bytesOfNat_length, natOfBytes_bytesOfNat, ofNat_mod 70 w (256 ^ 9) ⟨4, by norm_num⟩, if_neg (by decide)]

/-- The decoder on the four bytes of a number. -/
theorem decode_cmd (w : Nat) : decode .cmd (bytesOfNat 4 w) = .ok (decodeCmd (BitVec.ofNat 32 w)) := by
  unfold decode
  rw [bytesOfNat_length, natOfBytes_bytesOfNat, ofNat_mod 32 w (256 ^ 4) ⟨1, by norm_num⟩, if_neg (by decide)]

/-- The decoder on the two bytes of a number. -/
theorem decode_acc (w : Nat) : decode .acc (bytesOfNat 2 w) =
    if w % 256 ^ 2 < 2 ^ 10 then .ok (decodeAcc (BitVec.ofNat 10 w)) else .error .bitsAboveFormat := by
  unfold decode
  rw [bytesOfNat_length, natOfBytes_bytesOfNat, ofNat_mod 10 w (256 ^ 2) ⟨64, by norm_num⟩, if_neg (by decide)]

/-! ### Fields -/

/-- The bits of a bus word (log 1). -/
theorem busWord_getLsbD (wdata : Word) (be : BitVec 4) (addr : Word) (k : BitVec 2) (i : Nat) :
    (busWord wdata be addr k).getLsbD i =
      if i < 2 then k.getLsbD i else if i < 34 then addr.getLsbD (i - 2)
      else if i < 38 then be.getLsbD (i - 34) else wdata.getLsbD (i - 38) := by
  unfold busWord
  refine (BitVec.getLsbD_append (x := wdata ++ be ++ addr) (y := k)).trans ?_
  split
  · rfl
  · refine (BitVec.getLsbD_append (x := wdata ++ be) (y := addr)).trans ?_
    refine if_congr (by omega) rfl ?_
    refine (BitVec.getLsbD_append (x := wdata) (y := be)).trans ?_
    rw [show i - 2 - 32 = i - 34 by omega, show i - 34 - 4 = i - 38 by omega]
    split <;> split <;> first | rfl | omega

/-- The fields of a bus word are the ones it was made of. -/
theorem busWord_fields (wdata : Word) (be : BitVec 4) (addr : Word) (k : BitVec 2) :
    (busWord wdata be addr k).extractLsb' 0 2 = k ∧ (busWord wdata be addr k).extractLsb' 2 32 = addr ∧
      (busWord wdata be addr k).extractLsb' 34 4 = be ∧ (busWord wdata be addr k).extractLsb' 38 32 = wdata ∧
      (busWord wdata be addr k).extractLsb' 2 12 = addr.setWidth 12 := by
  refine ⟨?_, ?_, ?_, ?_, ?_⟩ <;>
    (apply BitVec.eq_of_getLsbD_eq; intro i hi; rw [BitVec.getLsbD_extractLsb', busWord_getLsbD])
  · simp [hi]
  · simp [hi, show ¬(2 + i < 2) by omega, show 2 + i < 34 by omega]
  · simp [hi, show ¬(34 + i < 2) by omega, show 34 + i < 38 by omega]
  · simp [hi, show ¬(38 + i < 2) by omega, show ¬(38 + i < 34) by omega]
  · simp [hi, show ¬(2 + i < 2) by omega, show 2 + i < 34 by omega]

theorem cmdWord_opcode (op : BitVec 4) : (cmdWord op).extractLsb' 0 4 = op := by
  revert op; decide

@[simp] theorem accWord_op (d : Byte) (op : BitVec 2) : (accWord d op).extractLsb' 0 2 = op := by
  ext i hi
  rw [BitVec.getElem_extractLsb', Nat.zero_add]
  exact (BitVec.getLsbD_append (x := d) (y := op)).trans (by simp [hi])

@[simp] theorem accWord_data (d : Byte) (op : BitVec 2) : (accWord d op).extractLsb' 2 8 = d := by
  ext i hi
  rw [BitVec.getElem_extractLsb']
  exact (BitVec.getLsbD_append (x := d) (y := op)).trans (by simp [hi]; omega)

/-! ### Well-formed operations -/

/-- What the BUS decoder gives is a well-formed bus transaction. -/
theorem decodeBus_wf (w : BitVec 70) : (decodeBus w).wellFormed = true ∧ formatOf (decodeBus w) = .bus := by
  simp only [decodeBus]
  split_ifs <;> exact ⟨rfl, rfl⟩

/-- What the CMD decoder gives is a well-formed command. -/
theorem decodeCmd_wf (w : Word) : (decodeCmd w).wellFormed = true ∧ formatOf (decodeCmd w) = .cmd := by
  simp only [decodeCmd]
  generalize w.extractLsb' 0 4 = op
  revert op; decide

/-- What the ACC decoder gives is a well-formed port command. -/
theorem decodeAcc_wf (w : BitVec 10) : (decodeAcc w).wellFormed = true ∧ formatOf (decodeAcc w) = .acc := by
  simp only [decodeAcc]
  split_ifs <;> exact ⟨rfl, rfl⟩

/-! ### Rows of the opcode map -/

/-- A mask of `n` bits sees a number's lowest `n` bits only. -/
theorem masked_low_bits (v m n : Nat) (hm : m < 2 ^ n) : v &&& m = (v % 2 ^ n) &&& m := by
  apply Nat.eq_of_testBit_eq
  intro i
  simp only [Nat.testBit_and, Nat.testBit_mod_two_pow]
  by_cases hi : i < n
  · simp [hi]
  · have : m.testBit i = false :=
      Nat.testBit_lt_two_pow (lt_of_lt_of_le hm (Nat.pow_le_pow_right (by omega) (by omega)))
    simp [this]

/-- Which row a word of a format belongs to shows in its lowest four bits. -/
theorem rowsMatching_low (f : Format) (v : Nat) : rowsMatching f v = rowsMatching f (v % 16) := by
  have h : ∀ r ∈ opcodeTable, v &&& r.mask = (v % 16) &&& r.mask := by
    intro r hr
    apply masked_low_bits v r.mask 4
    revert r; decide
  unfold rowsMatching
  congr 1
  apply List.filter_congr
  intro r hr
  rw [h r hr]

theorem busWord_mod (wdata : Word) (be : BitVec 4) (addr : Word) (k : BitVec 2) :
    (busWord wdata be addr k).toNat % 4 = k.toNat := by
  have := congrArg BitVec.toNat (busWord_fields wdata be addr k).1
  simpa using this

theorem cmdWord_mod (op : BitVec 4) : (cmdWord op).toNat % 16 = op.toNat := by
  revert op; decide

theorem accWord_mod (d : Byte) (op : BitVec 2) : (accWord d op).toNat % 4 = op.toNat := by
  have := congrArg BitVec.toNat (accWord_op d op)
  rwa [BitVec.extractLsb'_toNat, Nat.shiftRight_zero] at this

end Sys2Proof
end

