-- ==== Sys2Proof/Laws/Engine.lean ====
section
/-!
SUPPORT. The laws of the accumulator and its port: what each port word does, that the pending words are no
part of what a command computes, and what an issued run of words leaves.
-/

namespace Sys2Proof.Machine

variable {c : Params} {e : Engine} {b : Byte} {bs cs : Bytes} {w : BitVec 10} {ws : List (BitVec 10)}

/-! ### Port words -/

@[simp] theorem accPortExec_reset (d : Byte) : accPortExec c (accWord d 0#2) e = accReset e := by
  simp [accPortExec]

@[simp] theorem accPortExec_write (d : Byte) : accPortExec c (accWord d 1#2) e = accWrite c d e := by
  simp [accPortExec]

@[simp] theorem accPortExec_padZero (d : Byte) : accPortExec c (accWord d 2#2) e = accPadZero c e := by
  simp [accPortExec]

@[simp] theorem accPortExec_sum (d : Byte) : accPortExec c (accWord d 3#2) e = accSum c e := by
  simp [accPortExec]

/-- The port executes a word as the operation the decoder reads from it. -/
theorem exec_decodeAcc (w : BitVec 10) (s : State) :
    exec (decodeAcc w) s = .next (onEngine (accPortExec Config.params w) s) := by
  simp only [decodeAcc]
  split_ifs with h0 h1 h2 <;>
    simp [exec, execAccReset, execAccWrite, execAccPadZero, execAccSum, onEngine, accPortExec, *]

/-! ### The pending words take no part -/

@[simp] theorem accReset_port : (accReset e).port = e.port := rfl

@[simp] theorem accWrite_port : (accWrite c b e).port = e.port := by
  simp only [accWrite]
  split <;> rfl

@[simp] theorem accPadZero_port : (accPadZero c e).port = e.port := by
  simp only [accPadZero]
  split <;> rfl

@[simp] theorem accSum_port : (accSum c e).port = e.port := accPadZero_port

@[simp] theorem accWriteAll_nil : accWriteAll c [] e = e := rfl

@[simp] theorem accWriteAll_cons : accWriteAll c (b :: bs) e = accWriteAll c bs (accWrite c b e) := rfl

theorem accWriteAll_append : accWriteAll c (bs ++ cs) e = accWriteAll c cs (accWriteAll c bs e) :=
  List.foldl_append

@[simp] theorem accWriteAll_port : (accWriteAll c bs e).port = e.port := by
  induction bs generalizing e with
  | nil => rfl
  | cons b bs ih => simp [ih]

theorem accPortExec_withPort :
    accPortExec c w { e with port := ws } = { accPortExec c w e with port := ws } := by
  simp only [accPortExec, accReset, accWrite, accPadZero, accSum]
  split_ifs <;> rfl

@[simp] theorem accPortExec_port : (accPortExec c w e).port = e.port := by
  simp only [accPortExec]
  split_ifs <;> simp

/-- Draining the port runs its words in order and leaves none pending. -/
theorem accDrain_eq :
    accDrain c ws e = { ws.foldl (fun e w => accPortExec c w e) e with port := [] } := by
  induction ws generalizing e with
  | nil => rfl
  | cons w ws ih =>
    simp only [accDrain, List.foldl_cons, ih, accPortExec_withPort]
    generalize accPortExec c w e = f
    clear ih
    suffices h : ∀ (us vs : List (BitVec 10)) (f : Engine),
        { us.foldl (fun e w => accPortExec c w e) { f with port := vs } with port := [] } =
          { us.foldl (fun e w => accPortExec c w e) f with port := [] } from h _ _ _
    intro us
    induction us with
    | nil => intros; rfl
    | cons u us ih =>
      intro vs f
      simp only [List.foldl_cons, accPortExec_withPort]
      exact ih _ _

@[simp] theorem accIssue_port : (accIssue c ws e).port = [] := by
  simp [accIssue, accDrain_eq]

/-! ### What an issued run leaves, with no word pending -/

theorem accIssue_eq (h : e.port = []) : accIssue c ws e = ws.foldl (fun e w => accPortExec c w e) e := by
  have hp : ∀ (us : List (BitVec 10)) (f : Engine), f.port = [] →
      (us.foldl (fun e w => accPortExec c w e) f).port = [] := by
    intro us
    induction us with
    | nil => exact fun f hf => hf
    | cons u us ih => exact fun f hf => ih _ (by simp [hf])
  rw [accIssue, h, List.nil_append, accDrain_eq]
  have := hp ws e h
  generalize ws.foldl (fun e w => accPortExec c w e) e = f at *
  cases f
  simp_all

theorem accIssue_write (h : e.port = []) : accIssue c (accWriteWords bs) e = accWriteAll c bs e := by
  rw [accIssue_eq h, accWriteWords, List.foldl_map, accWriteAll]
  simp

theorem accIssue_reset (h : e.port = []) : accIssue c [accWord 0 0] e = accReset e := by
  rw [accIssue_eq h]
  simp

theorem accIssue_padZero (h : e.port = []) : accIssue c [accWord 0 2] e = accPadZero c e := by
  rw [accIssue_eq h]
  simp

theorem accIssue_sum (h : e.port = []) : accIssue c [accWord 0 3] e = accSum c e := by
  rw [accIssue_eq h]
  simp

/-- A reset issued after whatever is pending leaves the accumulator zeroed and the port empty. -/
theorem accIssue_reset_ci : (accIssue c [accWord 0 0] e).ci = zeroBlock ∧ (accIssue c [accWord 0 0] e).p = 0 := by
  simp [accIssue, accDrain_eq, accReset]


end Sys2Proof.Machine
end

