-- ==== Sys2Proof/Laws/Formatting.lean ====
section
/-!
SUPPORT. The laws of the byte layouts: lengths, the bytes of a block built from a string, the counter blocks
and the keystream.
-/

namespace Sys2Proof.Machine

variable {c : Params} {n t i v p : Nat} {nonce ad pt x : Bytes}

/-! ### Lengths -/

@[simp] theorem bigEndian_length (n v : Nat) : (bigEndian n v).length = n := by simp [bigEndian]

@[simp] theorem xorBytes_length (xs ys : Bytes) : (xorBytes xs ys).length = min xs.length ys.length :=
  List.length_zipWith

theorem adPrefix_length (a : Nat) :
    (adPrefix a).length = if a = 0 then 0 else if a < 65280 then 2 else if a ≤ 2147483647 then 6 else 10 := by
  simp only [adPrefix]
  split_ifs <;> simp

theorem flatMap_blocks_length (f : Nat → Block) (m : Nat) :
    ((List.range m).flatMap fun j => (f j).toList).length = 16 * m := by
  induction m with
  | zero => rfl
  | succ m ih => simp [List.range_succ, ih, Nat.mul_succ]

@[simp] theorem keystream_length (n : Nat) (nonce : Bytes) (p : Nat) : (keystream c n nonce p).length = p := by
  simp only [keystream, List.length_take, flatMap_blocks_length, blocks]
  omega

@[simp] theorem ctrXor_length (n : Nat) (nonce x : Bytes) : (ctrXor c n nonce x).length = x.length := by
  simp [ctrXor]

theorem ccmTag_length (h : t ≤ 16) : (ccmTag c n t nonce ad pt).length = t := by
  simp [ccmTag, h]

/-! ### Blocks from strings -/

theorem blockOf_getElem (bs : Bytes) (k : Nat) (hk : k < 16) : (blockOf bs)[k] = bs.getD k 0 := by
  simp [blockOf]

/-- A block built from 16 bytes has those bytes. -/
theorem blockOf_toList {bs : Bytes} (h : bs.length = 16) : (blockOf bs).toList = bs := by
  apply List.ext_getElem (by simp [h])
  intro k h1 h2
  simp [blockOf, List.getD, h2]

theorem blockOf_toList_self (b : Block) : blockOf b.toList = b := by
  ext k hk
  simp [blockOf, List.getD]

theorem ctrBlock_toList (hn : n ≤ 15) (hl : n ≤ nonce.length) :
    (ctrBlock n nonce i).toList =
      BitVec.ofNat 8 (counterWidth n - 1) :: nonce.take n ++ bigEndian (counterWidth n) i := by
  apply blockOf_toList
  simp [counterWidth]
  omega

/-- Replacing the counter field of one counter block gives the other (41 R164). -/
theorem setField_ctrBlock (hn : n ≤ 15) (hl : n ≤ nonce.length) :
    setField (ctrBlock n nonce i) (counterWidth n) v = ctrBlock n nonce v := by
  rw [setField, ctrBlock_toList hn hl, ctrBlock]
  congr 2
  rw [List.take_append_of_le_length (by simp [counterWidth]; omega)]
  apply List.take_of_length_le
  simp [counterWidth]
  omega

/-! ### The keystream -/

theorem flatMap_blocks_getElem (f : Nat → Block) (m k : Nat) (hk : k < 16 * m) :
    ((List.range m).flatMap fun j => (f j).toList)[k]? = some (f (k / 16))[k % 16] := by
  induction m with
  | zero => omega
  | succ m ih =>
    rw [List.range_succ, List.flatMap_append]
    by_cases h : k < 16 * m
    · rw [List.getElem?_append_left (by rw [flatMap_blocks_length]; exact h), ih h]
    · rw [List.getElem?_append_right (by rw [flatMap_blocks_length]; omega), flatMap_blocks_length]
      have h1 : k / 16 = m := by omega
      have h2 : k - 16 * m = k % 16 := by omega
      simp [h1, h2, Nat.mod_lt]

/-- Byte `k` of the keystream is byte `k mod 16` of E(Ctr_(k div 16 + 1)) (41 R173). -/
theorem keystream_getElem {k : Nat} (hk : k < p) :
    (keystream c n nonce p)[k]? = some (c.E (ctrBlock n nonce (k / 16 + 1)))[k % 16] := by
  rw [keystream, List.getElem?_take_of_lt hk]
  exact flatMap_blocks_getElem (fun j => c.E (ctrBlock n nonce (j + 1))) _ _ (by simp only [blocks]; omega)

/-- Byte `k` of CTR(X) (41 R173). -/
theorem ctrXor_getElem {k : Nat} (hk : k < x.length) :
    (ctrXor c n nonce x)[k]? = some (x[k] ^^^ (c.E (ctrBlock n nonce (k / 16 + 1)))[k % 16]) := by
  simp only [ctrXor, xorBytes, List.getElem?_zipWith, keystream_getElem hk]
  simp [hk]

/-- The payload transform of one block of at most 16 bytes is the exclusive-or with its keystream block. -/
theorem ctrXor_block (j : Nat) :
    ((ctrXor c n nonce x).drop (16 * j)).take 16 =
      xorBytes ((x.drop (16 * j)).take 16) (c.E (ctrBlock n nonce (j + 1))).toList := by
  apply List.ext_getElem?
  intro k
  by_cases hk : k < 16 ∧ 16 * j + k < x.length
  · have h1 : (16 * j + k) / 16 = j := by omega
    have h2 : (16 * j + k) % 16 = k := by omega
    rw [List.getElem?_take_of_lt hk.1, List.getElem?_drop, ctrXor_getElem hk.2]
    simp [xorBytes, List.getElem?_zipWith, h1, h2, hk]
  · rw [List.getElem?_eq_none (by simp; omega), List.getElem?_eq_none (by simp; omega)]

/-- The transform is its own inverse (41 R181). -/
theorem ctrXor_ctrXor (n : Nat) (nonce x : Bytes) : ctrXor c n nonce (ctrXor c n nonce x) = x := by
  apply List.ext_getElem?
  intro k
  by_cases hk : k < x.length
  · have h := ctrXor_getElem (c := c) (n := n) (nonce := nonce) hk
    rw [ctrXor_getElem (by simpa using hk)]
    have h' : (ctrXor c n nonce x)[k]'(by simpa using hk) = x[k] ^^^ (c.E (ctrBlock n nonce (k / 16 + 1)))[k % 16] := by
      rw [List.getElem?_eq_getElem (by simpa using hk)] at h
      exact Option.some.inj h
    rw [h']
    simp [hk]
  · rw [List.getElem?_eq_none (by simp; omega), List.getElem?_eq_none (by omega)]

/-! ### The comparison -/

/-- A running or of bytes is zero when every byte is. -/
theorem foldl_or_eq_zero_iff (l : Bytes) (d : Byte) :
    l.foldl (· ||| ·) d = 0#8 ↔ d = 0#8 ∧ ∀ b ∈ l, b = 0#8 := by
  induction l generalizing d with
  | nil => simp
  | cons b l ih =>
    rw [List.foldl_cons, ih, BitVec.or_eq_zero_iff, List.forall_mem_cons, and_assoc]

theorem xorBytes_eq_zero_iff {xs ys : Bytes} (h : xs.length = ys.length) :
    (∀ b ∈ xorBytes xs ys, b = 0#8) ↔ xs = ys := by
  induction xs generalizing ys with
  | nil => simp [xorBytes, List.length_eq_zero_iff.1 h.symm]
  | cons a xs ih =>
    cases ys with
    | nil => simp at h
    | cons b ys =>
      have h2 := ih (ys := ys) (by simpa using h)
      rw [xorBytes] at h2 ⊢
      rw [List.zipWith_cons_cons, List.forall_mem_cons, h2, BitVec.xor_eq_zero_iff, List.cons.injEq]

/-- The comparison accumulator is zero exactly when the strings are equal (41 R178). -/
theorem ctDiff_eq_zero_iff {xs ys : Bytes} (h : xs.length = ys.length) : ctDiff xs ys = 0 ↔ xs = ys := by
  show ctDiff xs ys = 0#8 ↔ _
  rw [ctDiff, foldl_or_eq_zero_iff, xorBytes_eq_zero_iff h]
  simp

end Sys2Proof.Machine
end

