-- ==== Sys2Proof/Laws/Accumulator.lean ====
section
/-!
SUPPORT. Strings written to the accumulator (40 R141, R147): zero bytes, a string that ends inside
a block, a whole block, and where a string leaves the cursor.
-/

namespace Sys2Proof.Machine

variable {c : Params}

/-- A zero byte inside a block only moves the cursor. -/
theorem accWrite_zero_lt {e : Engine} (h : e.p ≠ 15) : accWrite c 0 e = { e with p := e.p + 1 } := by
  simp only [accWrite, if_neg h]
  congr 1
  ext k hk
  simp

/-- A zero byte at the last cursor encrypts ci. -/
theorem accWrite_zero_15 {e : Engine} (h : e.p = 15) :
    accWrite c 0 e = { e with ci := c.E e.ci, p := 0, calls := e.calls ++ [e.ci] } := by
  have : e.ci.set e.p (e.ci[e.p] ^^^ 0) = e.ci := by ext k hk; simp
  simp only [accWrite, if_pos h, this]

/-- A string that ends inside the block: the cursor moves, ci takes the bytes, no call is made. -/
theorem accWrite_partial (bs : Bytes) : ∀ (e : Engine), e.p.val + bs.length < 16 →
    (accWriteAll c bs e).p.val = e.p.val + bs.length ∧ (accWriteAll c bs e).calls = e.calls ∧
    ∀ k (hk : k < 16), (accWriteAll c bs e).ci[k] = if e.p.val ≤ k then e.ci[k] ^^^ bs.getD (k - e.p.val) 0 else e.ci[k] := by
  induction bs with
  | nil => intro e h; simp
  | cons b bs ih =>
    intro e h
    simp only [List.length_cons] at h
    have h15 : ¬ e.p = 15 := fun x => by rw [x] at h; simp at h; omega
    have e1 : accWrite c b e = { e with ci := e.ci.set e.p (e.ci[e.p] ^^^ b), p := e.p + 1 } := by simp only [accWrite, if_neg h15]
    have e2 : (accWrite c b e).p.val = e.p.val + 1 := by
      rw [e1]; simp only [Fin.val_add]; show (e.p.val + 1) % 16 = _; omega
    obtain ⟨a1, a2, a3⟩ := ih (accWrite c b e) (by rw [e2]; omega)
    rw [accWriteAll_cons]
    refine ⟨by rw [a1, e2]; simp; omega, by rw [a2, e1], fun k hk => ?_⟩
    rw [a3 k hk, e2]
    simp only [e1]
    rw [Vector.getElem_set]
    by_cases h1 : e.p.val = k
    · rw [if_neg (by omega), if_pos h1, if_pos (by omega)]
      subst h1; simp
    · by_cases h2 : e.p.val ≤ k
      · rw [if_pos (by omega), if_neg h1, if_pos h2]
        obtain ⟨d, rfl⟩ : ∃ d, k = e.p.val + 1 + d := ⟨k - (e.p.val + 1), by omega⟩
        rw [show e.p.val + 1 + d - e.p.val = d + 1 by omega, show e.p.val + 1 + d - (e.p.val + 1) = d by omega, List.getD_cons_succ]
      · rw [if_neg (by omega), if_neg h1, if_neg h2]

/-- A whole block from cursor 0: one encryption of ci exclusive-or the block. -/
theorem accWrite_full (bs : Bytes) (e : Engine) (h0 : e.p.val = 0) (hl : bs.length = 16) :
   accWriteAll c bs e = { e with ci := c.E (Vector.zipWith (· ^^^ ·) e.ci (blockOf bs)), p := 0, calls := (accWriteAll c bs e).calls } := by
  obtain ⟨init, b, rfl⟩ : ∃ init b, bs = init ++ [b] := ⟨bs.take 15, bs[15], by 
    apply List.ext_getElem (by simp [hl]); intro k h1 h2
    rw [List.getElem_append]; split
    · simp
    · rename_i h; simp [hl] at h; have : k = 15 := by omega
      subst this; simp [hl]⟩
  have hli : init.length = 15 := by simpa using hl
  obtain ⟨a1, a2, a3⟩ := accWrite_partial (c := c) init e (by omega)
  have hp := accWriteAll_port (c := c) (bs := init) (e := e)
  have hresp : ∀ (bs : Bytes) (e : Engine), (accWriteAll c bs e).resp = e.resp := by
    intro bs; induction bs with
    | nil => intro e; rfl
    | cons b bs ih => intro e; rw [accWriteAll_cons, ih]; simp only [accWrite]; split <;> rfl
  have hr := hresp init e
  rw [accWriteAll_append]
  generalize accWriteAll c init e = f at *
  have hf : f.p = 15 := Fin.ext (by rw [a1]; show e.p.val + init.length = 15; omega)
  have e1 : accWriteAll c [b] f = { f with ci := c.E (f.ci.set f.p (f.ci[f.p] ^^^ b)), p := 0, calls := f.calls ++ [f.ci.set f.p (f.ci[f.p] ^^^ b)] } := by
    show accWrite c b f = _
    simp only [accWrite, if_pos hf]
  have e2 : f.ci.set f.p (f.ci[f.p] ^^^ b) = Vector.zipWith (· ^^^ ·) e.ci (blockOf (init ++ [b])) := by
    ext1 k hk
    rw [Vector.getElem_set, Vector.getElem_zipWith, blockOf_getElem]
    by_cases h : f.p.val = k
    · rw [if_pos h]
      have h15 : f.p.val = 15 := by rw [hf]; rfl
      obtain rfl : k = 15 := by omega
      have e3 : f.ci[f.p] = f.ci[15] := by simp [h15]
      rw [e3, a3 _ hk, if_pos (by omega), h0]
      simp [List.getD, hli]
    · rw [if_neg h, a3 _ hk, if_pos (by omega), h0]
      have h15 : f.p.val = 15 := by rw [hf]; rfl
      simp [List.getD, List.getElem?_append_left (show k < init.length by omega)]
  rw [e1, e2]
  simp only [hp, hr]

/-- Where a byte leaves the cursor. -/
theorem accWrite_cursor (b : Byte) (e : Engine) : (accWrite c b e).p.val = (e.p.val + 1) % 16 := by
  simp only [accWrite]
  split
  · rename_i h
    have : e.p.val = 15 := by rw [h]; rfl
    simp [this]
  · simp [Fin.val_add]

/-- Where a string leaves the cursor. -/
theorem accWriteAll_cursor (bs : Bytes) :
    ∀ e : Engine, (accWriteAll c bs e).p.val = (e.p.val + bs.length) % 16 := by
  induction bs with
  | nil => intro e; have := e.p.isLt; simp; omega
  | cons b bs ih =>
    intro e
    rw [accWriteAll_cons, ih, accWrite_cursor]
    simp only [List.length_cons]
    omega

end Sys2Proof.Machine
end

