-- ==== Sys2Proof/Laws/Memory.lean ====
section
/-!
SUPPORT. The laws of the message buffer: a read after a write, the canonical form and the bounds kept by
every operation, and what a byte string read or written is.
-/

namespace Sys2Proof.Machine

variable {c : Params} {m : Memory} {a x off w n : Nat} {b : Byte} {bs : Bytes}

@[simp] theorem Memory.read_nil : Memory.read c [] a = c.powerOn a := rfl

theorem Memory.read_cons {e : Host.Cell} :
    Memory.read c (e :: m) a = if a = e.1 then e.2 else Memory.read c m a := rfl

/-- An offset below every listed one reads as its power-on byte. -/
theorem Memory.read_of_lt_all (h : ∀ e ∈ m, x < e.1) : Memory.read c m x = c.powerOn x := by
  induction m with
  | nil => rfl
  | cons e m ih =>
    have he := h e (by simp)
    rw [Memory.read_cons, if_neg (by omega), ih fun f hf => h f (by simp [hf])]

theorem Memory.wf_cons {e : Host.Cell} :
    Memory.wf c (e :: m) ↔ (∀ f ∈ m, e.1 < f.1) ∧ e.2 ≠ c.powerOn e.1 ∧ Memory.wf c m := by
  simp only [Memory.wf, List.pairwise_cons, List.forall_mem_cons]
  tauto

/-- Every entry a write leaves was there or is the one written. -/
theorem Memory.mem_write {e : Host.Cell} (h : e ∈ Memory.write c m a b) :
    e ∈ m ∨ (e = (a, b) ∧ b ≠ c.powerOn a) := by
  induction m with
  | nil =>
    simp only [Memory.write] at h
    split at h <;> simp_all
  | cons f m ih =>
    simp only [Memory.write] at h
    split_ifs at h with h1 h2 h3 h4
    · exact .inl h
    · rcases List.mem_cons.1 h with h | h
      · exact .inr ⟨h, h2⟩
      · exact .inl h
    · exact .inl (by simp [h])
    · rcases List.mem_cons.1 h with h | h
      · exact .inr ⟨h, h4⟩
      · exact .inl (by simp [h])
    · rcases List.mem_cons.1 h with h | h
      · exact .inl (by simp [h])
      · exact (ih h).imp_left (by simp +contextual)

/-- A write keeps the canonical form. -/
theorem Memory.wf_write (h : Memory.wf c m) : Memory.wf c (Memory.write c m a b) := by
  induction m with
  | nil =>
    simp only [Memory.write]
    split <;> simp_all [Memory.wf]
  | cons f m ih =>
    obtain ⟨hlt, hne, hm⟩ := Memory.wf_cons.1 h
    simp only [Memory.write]
    split_ifs with h1 h2 h3 h4
    · exact h
    · refine Memory.wf_cons.2 ⟨?_, h2, h⟩
      intro g hg
      rcases List.mem_cons.1 hg with rfl | hg
      · exact h1
      · exact h1.trans (hlt g hg)
    · exact hm
    · exact Memory.wf_cons.2 ⟨fun g hg => h3 ▸ hlt g hg, h4, hm⟩
    · refine Memory.wf_cons.2 ⟨fun g hg => ?_, hne, ih hm⟩
      rcases Memory.mem_write hg with hg | ⟨rfl, -⟩
      · exact hlt g hg
      · show f.1 < a
        omega

/-- A write inside the buffer keeps every offset inside. -/
theorem Memory.inside_write (h : Memory.inside c m) (ha : a < c.bufBytes) :
    Memory.inside c (Memory.write c m a b) := by
  intro e he
  rcases Memory.mem_write he with he | ⟨rfl, -⟩
  · exact h e he
  · exact ha

/-- A read after a write: the byte written at its offset, every other byte as before. -/
theorem Memory.read_write (h : Memory.wf c m) :
    Memory.read c (Memory.write c m a b) x = if x = a then b else Memory.read c m x := by
  induction m with
  | nil =>
    simp only [Memory.write]
    split_ifs <;> simp_all [Memory.read]
  | cons f m ih =>
    obtain ⟨hlt, -, hm⟩ := Memory.wf_cons.1 h
    have hx : x ≤ a → a < f.1 → Memory.read c (f :: m) x = c.powerOn x := fun h1 h2 =>
      Memory.read_of_lt_all fun g hg => by
        rcases List.mem_cons.1 hg with rfl | hg
        · omega
        · exact lt_of_le_of_lt h1 (h2.trans (hlt g hg))
    have hm' : a = f.1 → Memory.read c m a = c.powerOn a := fun h1 =>
      Memory.read_of_lt_all fun g hg => h1 ▸ hlt g hg
    rcases Nat.lt_trichotomy a f.1 with h1 | h1 | h1
    · simp only [Memory.write, if_pos h1]
      by_cases h2 : b = c.powerOn a
      · rw [if_pos h2]
        split_ifs with h4
        · subst h4
          rw [h2]
          exact hx le_rfl h1
        · rfl
      · rw [if_neg h2]
        rfl
    · simp only [Memory.write, if_neg (show ¬a < f.1 by omega), if_pos h1]
      by_cases h2 : b = c.powerOn a
      · rw [if_pos h2]
        split_ifs with h4
        · rw [h4, h2, hm' h1]
        · rw [Memory.read_cons, if_neg (by omega)]
      · rw [if_neg h2, Memory.read_cons, Memory.read_cons, ← h1]
        split_ifs <;> rfl
    · simp only [Memory.write, if_neg (show ¬a < f.1 by omega), if_neg (show ¬a = f.1 by omega)]
      rw [Memory.read_cons, ih hm, Memory.read_cons]
      show (if x = f.1 then f.2 else _) = _
      split_ifs <;> first | rfl | omega

@[simp] theorem Memory.readBytes_length (off n : Nat) : (Memory.readBytes c m off n).length = n := by
  induction n generalizing off with
  | zero => rfl
  | succ n ih => simp [Memory.readBytes, ih]

/-- Byte `k` of BufRead(off, n) is the buffer byte at off + k. -/
theorem Memory.readBytes_get {k : Nat} (hk : k < n) :
    (Memory.readBytes c m off n)[k]? = some (Memory.read c m (off + k)) := by
  induction n generalizing off k with
  | zero => omega
  | succ n ih =>
    cases k with
    | zero => simp [Memory.readBytes]
    | succ k =>
      simp only [Memory.readBytes, List.getElem?_cons_succ]
      rw [ih (by omega)]
      congr 2
      omega

/-- Two buffers that agree on a region read the same byte string there. -/
theorem Memory.readBytes_congr {m' : Memory}
    (h : ∀ a, off ≤ a → a < off + n → Memory.read c m a = Memory.read c m' a) :
    Memory.readBytes c m off n = Memory.readBytes c m' off n := by
  induction n generalizing off with
  | zero => rfl
  | succ n ih =>
    simp only [Memory.readBytes]
    rw [h off (by omega) (by omega), ih fun a h1 h2 => h a (by omega) (by omega)]

/-- A region read in two parts. -/
theorem Memory.readBytes_add (off k n : Nat) :
    Memory.readBytes c m off (k + n) = Memory.readBytes c m off k ++ Memory.readBytes c m (off + k) n := by
  induction k generalizing off with
  | zero => simp [Memory.readBytes]
  | succ k ih =>
    rw [show k + 1 + n = (k + n) + 1 by omega]
    simp only [Memory.readBytes, List.cons_append, ih]
    congr 3
    omega

theorem Memory.wf_writeBytes (h : Memory.wf c m) : Memory.wf c (Memory.writeBytes c m off bs) := by
  induction bs generalizing m off with
  | nil => exact h
  | cons b bs ih => exact ih (Memory.wf_write h)

theorem Memory.inside_writeBytes (h : Memory.inside c m) (hb : off + bs.length ≤ c.bufBytes) :
    Memory.inside c (Memory.writeBytes c m off bs) := by
  induction bs generalizing m off with
  | nil => exact h
  | cons b bs ih =>
    simp only [List.length_cons] at hb
    exact ih (Memory.inside_write h (by omega)) (by omega)

/-- A byte after BufWrite(off, |bs|, bs): the byte of the string inside the region, as before outside. -/
theorem Memory.read_writeBytes (h : Memory.wf c m) :
    Memory.read c (Memory.writeBytes c m off bs) x =
      if off ≤ x ∧ x < off + bs.length then bs.getD (x - off) 0 else Memory.read c m x := by
  induction bs generalizing m off with
  | nil =>
    rw [if_neg (by simp)]
    rfl
  | cons b bs ih =>
    simp only [Memory.writeBytes, List.length_cons]
    rw [ih (Memory.wf_write h), Memory.read_write h]
    rcases Nat.lt_trichotomy x off with hx | rfl | hx
    · rw [if_neg (by omega), if_neg (by omega), if_neg (by omega)]
    · rw [if_neg (by omega), if_pos rfl, if_pos (by omega)]
      simp
    · rw [if_neg (show ¬x = off by omega)]
      obtain ⟨d, rfl⟩ : ∃ d, x = off + 1 + d := ⟨x - (off + 1), by omega⟩
      rw [show off + 1 + d - off = d + 1 by omega, show off + 1 + d - (off + 1) = d by omega]
      simp only [List.getD_cons_succ]
      exact if_congr (by omega) rfl rfl

theorem Memory.writeBytes_append (bs cs : Bytes) :
    Memory.writeBytes c m off (bs ++ cs) =
      Memory.writeBytes c (Memory.writeBytes c m off bs) (off + bs.length) cs := by
  induction bs generalizing m off with
  | nil => rfl
  | cons b bs ih =>
    simp only [List.cons_append, Memory.writeBytes, ih, List.length_cons]
    congr 1
    omega

/-- Reading back the region just written. -/
theorem Memory.readBytes_writeBytes (h : Memory.wf c m) :
    Memory.readBytes c (Memory.writeBytes c m off bs) off bs.length = bs := by
  apply List.ext_getElem?
  intro k
  by_cases hk : k < bs.length
  · rw [Memory.readBytes_get hk, Memory.read_writeBytes h, if_pos (by omega)]
    simp [List.getD, hk]
  · rw [List.getElem?_eq_none (by simp; omega), List.getElem?_eq_none (by omega)]

/-! ### The word accesses of the host -/

theorem Memory.wf_writeLane {d : Word} {be : BitVec 4} {j : Nat} (h : Memory.wf c m) :
    Memory.wf c (Memory.writeLane c w d be m j) := by
  unfold Memory.writeLane
  split
  · exact Memory.wf_write h
  · exact h

theorem Memory.inside_writeLane {d : Word} {be : BitVec 4} {j : Nat} (h : Memory.inside c m)
    (hw : w + j < c.bufBytes) : Memory.inside c (Memory.writeLane c w d be m j) := by
  unfold Memory.writeLane
  split
  · exact Memory.inside_write h hw
  · exact h

theorem Memory.read_writeLane {d : Word} {be : BitVec 4} {j : Nat} (h : Memory.wf c m) :
    Memory.read c (Memory.writeLane c w d be m j) x =
      if x = w + j ∧ be.getLsbD j = true then lane d j else Memory.read c m x := by
  unfold Memory.writeLane
  split
  · rw [Memory.read_write h]
    simp_all
  · simp_all

theorem Memory.wf_writeWord {d : Word} {be : BitVec 4} (h : Memory.wf c m) :
    Memory.wf c (Memory.writeWord c m w d be) := by
  simp only [Memory.writeWord, List.foldl]
  exact wf_writeLane (wf_writeLane (wf_writeLane (wf_writeLane h)))

theorem Memory.inside_writeWord {d : Word} {be : BitVec 4} (h : Memory.inside c m) (hw : w + 4 ≤ c.bufBytes) :
    Memory.inside c (Memory.writeWord c m w d be) := by
  simp only [Memory.writeWord, List.foldl]
  exact inside_writeLane (inside_writeLane (inside_writeLane (inside_writeLane h (by omega)) (by omega))
    (by omega)) (by omega)

/-- A byte after a BUF_WRITE: the enabled lane at its offset, as before everywhere else. -/
theorem Memory.read_writeWord {d : Word} {be : BitVec 4} (h : Memory.wf c m) :
    Memory.read c (Memory.writeWord c m w d be) x =
      if w ≤ x ∧ x < w + 4 ∧ be.getLsbD (x - w) = true then lane d (x - w) else Memory.read c m x := by
  simp only [Memory.writeWord, List.foldl]
  rw [read_writeLane (wf_writeLane (wf_writeLane (wf_writeLane h))), read_writeLane (wf_writeLane (wf_writeLane h)),
    read_writeLane (wf_writeLane h), read_writeLane h]
  by_cases hx : w ≤ x ∧ x < w + 4
  · obtain ⟨j, rfl⟩ : ∃ j, x = w + j := ⟨x - w, by omega⟩
    have hj : j = 0 ∨ j = 1 ∨ j = 2 ∨ j = 3 := by omega
    rcases hj with rfl | rfl | rfl | rfl <;> simp
  · rw [if_neg (by omega), if_neg (by omega), if_neg (by omega), if_neg (by omega), if_neg (by tauto)]

end Sys2Proof.Machine
end

