-- ==== Sys2Proof/Laws/State.lean ====
section
/-!
SUPPORT. The fields of the state after each named update, so that no later proof unfolds a record update.
-/

namespace Sys2Proof.Machine

variable (op : BitVec 4) (code : ResultCode) (f : Engine → Engine) (d : Word) (p : Nat) (s : State)

/-! ### start (42 R194) -/

@[simp] theorem State.start_regs : (s.start op).regs = s.regs := rfl
@[simp] theorem State.start_status : (s.start op).status = { done := false, err := .ok, lastOp := op } := rfl
@[simp] theorem State.start_inst : (s.start op).inst = s.inst := rfl
@[simp] theorem State.start_eng : (s.start op).eng = s.eng := rfl
@[simp] theorem State.start_seq : (s.start op).seq = { s.seq with state := .check, op := seqOpOf op } := rfl
@[simp] theorem State.start_buf : (s.start op).buf = s.buf := rfl
@[simp] theorem State.start_bufStart : (s.start op).bufStart = s.buf := rfl
@[simp] theorem State.start_rst : (s.start op).rst = s.rst := rfl
@[simp] theorem State.start_rdata : (s.start op).rdata = s.rdata := rfl
@[simp] theorem State.start_inbox : (s.start op).inbox = s.inbox := rfl
@[simp] theorem State.start_draws : (s.start op).draws = s.draws := rfl

/-! ### finish (42 R195) -/

@[simp] theorem State.finish_regs : (s.finish code).regs = s.regs := rfl
@[simp] theorem State.finish_status :
    (s.finish code).status = { s.status with err := code, done := true } := rfl
@[simp] theorem State.finish_inst : (s.finish code).inst = s.inst := rfl
@[simp] theorem State.finish_eng : (s.finish code).eng = s.eng := rfl
@[simp] theorem State.finish_seq : (s.finish code).seq = { s.seq with state := .idle } := rfl
@[simp] theorem State.finish_buf : (s.finish code).buf = s.buf := rfl
@[simp] theorem State.finish_bufStart : (s.finish code).bufStart = s.bufStart := rfl
@[simp] theorem State.finish_rst : (s.finish code).rst = s.rst := rfl
@[simp] theorem State.finish_rdata : (s.finish code).rdata = s.rdata := rfl
@[simp] theorem State.finish_inbox : (s.finish code).inbox = s.inbox := rfl
@[simp] theorem State.finish_draws : (s.finish code).draws = s.draws := rfl

/-! ### acknowledge (42 R202): only DONE can change -/

theorem State.acknowledge_eq :
    s.acknowledge d = { s with status := { s.status with done := s.status.done && !d.getLsbD 1 } } := by
  unfold State.acknowledge
  split <;> simp_all

/-! ### The checks read only registers and the instance (43 R232) -/

theorem sealCheck_congr {c : Params} {s t : State} (h1 : t.regs = s.regs) (h2 : t.inst = s.inst) :
    sealCheck c t = sealCheck c s := by
  cases s
  cases t
  cases h1
  cases h2
  rfl

theorem openCheck_congr {c : Params} {s t : State} (h1 : t.regs = s.regs) (h2 : t.inst = s.inst) :
    openCheck c t = openCheck c s := by
  cases s
  cases t
  cases h1
  cases h2
  rfl

theorem configCheck_congr {c : Params} {s t : State} (h1 : t.regs = s.regs) :
    configCheck c t = configCheck c s := by
  cases s
  cases t
  cases h1
  rfl

/-! ### BUSY -/

@[simp] theorem State.start_busy : (s.start op).busy = true := rfl
@[simp] theorem State.finish_busy : (s.finish code).busy = false := rfl

theorem State.busy_eq_false_iff : s.busy = false ↔ s.seq.state = .idle := by
  simp [State.busy]

theorem State.locked_eq_false_iff : s.locked = false ↔ s.rst = false ∧ s.seq.state = .idle := by
  simp [State.locked, State.busy]

end Sys2Proof.Machine
end

