-- ==== Sys2Proof/Laws/Sequencer.lean ====
section
/-!
SUPPORT. What the sequencer does, said once: what no core step changes, how core steps compose to the run of
a command, and the values each phase of an accepted SEAL or OPEN leaves.
-/

namespace Sys2Proof.Machine

variable {c : Params} {s t : State}

/-! ### What no core step changes -/

/-- The parts of the state that belong to the host, the inputs and the start of the command. -/
structure SameHostSide (s t : State) : Prop where
  regs : { t.regs with outLen := s.regs.outLen } = s.regs
  lastOp : t.status.lastOp = s.status.lastOp
  bufStart : t.bufStart = s.bufStart
  rst : t.rst = s.rst
  rdata : t.rdata = s.rdata
  inbox : t.inbox = s.inbox
  draws : t.draws = s.draws

theorem SameHostSide.refl (s : State) : SameHostSide s s := ⟨rfl, rfl, rfl, rfl, rfl, rfl, rfl⟩

theorem SameHostSide.trans {s t u : State} (h : SameHostSide s t) (k : SameHostSide t u) : SameHostSide s u := by
  refine ⟨?_, k.lastOp.trans h.lastOp, k.bufStart.trans h.bufStart, k.rst.trans h.rst, k.rdata.trans h.rdata,
    k.inbox.trans h.inbox, k.draws.trans h.draws⟩
  have h1 := h.regs
  rw [← k.regs] at h1
  simpa using h1

/-- A core step changes nothing on the host's side but OUT_LEN, DONE and ERR. -/
theorem coreStep_sameHostSide (c : Params) (s : State) : SameHostSide s (coreStep c s) := by
  unfold coreStep
  split
  case h_2 =>
    unfold actCheck acceptPayload rejectCommand
    split <;> (try split) <;> exact ⟨rfl, rfl, rfl, rfl, rfl, rfl, rfl⟩
  case h_15 =>
    unfold actDone commandResults
    split <;> (try split) <;> exact ⟨rfl, rfl, rfl, rfl, rfl, rfl, rfl⟩
  all_goals exact ⟨rfl, rfl, rfl, rfl, rfl, rfl, rfl⟩

/-- Before DONE a core step writes no register, no STATUS field and no instance field, and keeps op. -/
theorem coreStep_regs (h : s.seq.state ≠ .done) :
    (coreStep c s).regs = s.regs ∧ (coreStep c s).status = s.status ∧ (coreStep c s).inst = s.inst ∧
      (coreStep c s).seq.op = s.seq.op := by
  unfold coreStep
  split
  case h_2 =>
    unfold actCheck acceptPayload rejectCommand
    split <;> (try split) <;> exact ⟨rfl, rfl, rfl, rfl⟩
  case h_15 => simp_all
  case h_5 =>
    refine ⟨rfl, rfl, rfl, ?_⟩
    simp only [actB0, enterPay]
    split <;> rfl
  case h_13 =>
    refine ⟨rfl, rfl, rfl, ?_⟩
    simp only [actVerify]
    split <;> rfl
  all_goals exact ⟨rfl, rfl, rfl, rfl⟩

/-! ### Composing core steps -/

/-- `n` core steps lead from `s` to `t`, none of them taken at IDLE. -/
def Reaches (c : Params) (n : Nat) (s t : State) : Prop :=
  (coreStep c)^[n] s = t ∧ ∀ k < n, ((coreStep c)^[k] s).seq.state ≠ .idle

theorem Reaches.zero (s : State) : Reaches c 0 s s := ⟨rfl, by omega⟩

theorem Reaches.one (h : s.seq.state ≠ .idle) : Reaches c 1 s (coreStep c s) :=
  ⟨rfl, fun k hk => by obtain rfl : k = 0 := by omega
                       exact h⟩

theorem Reaches.trans {m n : Nat} {s t u : State} (h : Reaches c m s t) (k : Reaches c n t u) :
    Reaches c (m + n) s u := by
  obtain ⟨rfl, h⟩ := h
  obtain ⟨rfl, k⟩ := k
  refine ⟨by rw [Nat.add_comm, Function.iterate_add_apply], fun j hj => ?_⟩
  by_cases hjm : j < m
  · exact h j hjm
  · obtain ⟨i, rfl⟩ : ∃ i, j = i + m := ⟨j - m, by omega⟩
    rw [Function.iterate_add_apply]
    exact k i (by omega)

/-- A run with fuel enough ends where the core steps reach IDLE. -/
theorem runCore_of_reaches {n fuel : Nat} {s t : State} (h : Reaches c n s t) (ht : t.seq.state = .idle)
    (hf : n ≤ fuel) : runCore c fuel s = t := by
  induction n generalizing s fuel with
  | zero =>
    obtain ⟨rfl, -⟩ := h
    cases fuel with
    | zero => rfl
    | succ fuel => simpa [runCore] using fun h => absurd ht h
  | succ n ih =>
    obtain ⟨fuel, rfl⟩ : ∃ k, fuel = k + 1 := ⟨fuel - 1, by omega⟩
    obtain ⟨h1, h2⟩ := h
    have h0 := h2 0 (by omega)
    rw [runCore, if_neg (by simpa using h0)]
    refine ih ⟨?_, fun k hk => ?_⟩ (by omega)
    · rw [← Function.iterate_succ_apply]
      exact h1
    · rw [← Function.iterate_succ_apply]
      exact h2 (k + 1) (by omega)

/-! ### The accumulator's value, apart from the observations of its ports -/

/-- Two engines with the same accumulator. -/
def SameMac (e f : Engine) : Prop := e.ci = f.ci ∧ e.p = f.p

theorem SameMac.refl (e : Engine) : SameMac e e := ⟨rfl, rfl⟩

theorem SameMac.trans {e f g : Engine} (h : SameMac e f) (k : SameMac f g) : SameMac e g :=
  ⟨h.1.trans k.1, h.2.trans k.2⟩

theorem SameMac.accWrite {e f : Engine} {b : Byte} (h : SameMac e f) :
    SameMac (accWrite c b e) (accWrite c b f) := by
  obtain ⟨⟨ci, p, _, _, _⟩, ⟨ci', p', _, _, _⟩⟩ := e, f
  obtain ⟨rfl, rfl⟩ := h
  simp only [Machine.accWrite]
  split <;> exact ⟨rfl, rfl⟩

theorem SameMac.accWriteAll {e f : Engine} {bs : Bytes} (h : SameMac e f) :
    SameMac (accWriteAll c bs e) (accWriteAll c bs f) := by
  induction bs generalizing e f with
  | nil => exact h
  | cons b bs ih => exact ih h.accWrite

theorem SameMac.accPadZero {e f : Engine} (h : SameMac e f) : SameMac (accPadZero c e) (accPadZero c f) := by
  obtain ⟨⟨ci, p, _, _, _⟩, ⟨ci', p', _, _, _⟩⟩ := e, f
  obtain ⟨rfl, rfl⟩ := h
  simp only [Machine.accPadZero]
  split <;> exact ⟨rfl, rfl⟩

theorem SameMac.accSum {e f : Engine} (h : SameMac e f) :
    SameMac (accSum c e) (accSum c f) ∧ (accSum c e).resp = (accSum c f).resp :=
  ⟨h.accPadZero, h.accPadZero.1⟩

theorem sameMac_accReset (e : Engine) : SameMac (accReset e) Engine.reset := ⟨rfl, rfl⟩

theorem sameMac_cipherCall (b : Block) (e : Engine) : SameMac (cipherCall b e) e := ⟨rfl, rfl⟩

end Sys2Proof.Machine
end

