-- ==== Sys2Proof/Laws/Phases.lean ====
section
/-!
SUPPORT. An accepted SEAL or OPEN, phase by phase (43 R232-R241): how many core steps each phase takes and what
it leaves. `s` is the state in which the command was started, `t` the state a phase begins in.
-/

namespace Sys2Proof.Machine

variable {c : Params} {s t : State} {p : Nat} {st st' : SeqState}

/-- An accepted command midway: the registers, flags and instance are those at its start, and P, m and q are
fixed. -/
structure Midway (s t : State) (p : Nat) (st : SeqState) : Prop where
  regs : t.regs = s.regs
  status : t.status = s.status
  inst : t.inst = s.inst
  side : SameHostSide s t
  op : t.seq.op = s.seq.op
  state : t.seq.state = st
  plen : t.seq.plen = p
  m : t.seq.m = blocks p
  q : t.seq.q = counterWidth s.nonceSize
  port : st ≠ .init → t.eng.port = []

/-- After CHECK no core step changes P, m or q. -/
theorem coreStep_payload (h : t.seq.state ≠ .check) :
    (coreStep c t).seq.plen = t.seq.plen ∧ (coreStep c t).seq.m = t.seq.m ∧ (coreStep c t).seq.q = t.seq.q := by
  unfold coreStep
  split
  case h_2 => simp_all
  case h_5 =>
    simp only [actB0, enterPay]
    split <;> exact ⟨rfl, rfl, rfl⟩
  case h_13 =>
    simp only [actVerify]
    split <;> exact ⟨rfl, rfl, rfl⟩
  case h_15 =>
    unfold actDone commandResults
    split <;> (try split) <;> exact ⟨rfl, rfl, rfl⟩
  all_goals exact ⟨rfl, rfl, rfl⟩

/-- No core step leaves a port word pending that was not there before. -/
theorem coreStep_port (h : t.eng.port = [] ∨ t.seq.state = .init) : (coreStep c t).eng.port = [] := by
  by_cases hi : t.seq.state = .init
  · unfold coreStep
    rw [hi]
    exact accIssue_port
  · have h := h.resolve_right hi
    unfold coreStep
    split
    case h_2 =>
      unfold actCheck acceptPayload rejectCommand
      split <;> (try split) <;> exact h
    case h_15 =>
      unfold actDone commandResults
      split <;> (try split) <;> first | exact h | exact accIssue_port
    all_goals first | exact h | exact accIssue_port

theorem Midway.step (h : Midway s t p st) (h1 : st ≠ .check) (h2 : st ≠ .done)
    (h3 : (coreStep c t).seq.state = st') : Midway s (coreStep c t) p st' := by
  have hr := coreStep_regs (c := c) (s := t) (by rw [h.state]; exact h2)
  have hp := coreStep_payload (c := c) (t := t) (by rw [h.state]; exact h1)
  refine ⟨hr.1.trans h.regs, hr.2.1.trans h.status, hr.2.2.1.trans h.inst,
    h.side.trans (coreStep_sameHostSide c t), hr.2.2.2.trans h.op, h3, hp.1.trans h.plen, hp.2.1.trans h.m,
    hp.2.2.trans h.q, fun _ => coreStep_port ?_⟩
  by_cases hi : st = .init
  · exact .inr (h.state.trans hi)
  · exact .inl (h.port hi)

theorem Midway.one (h : Midway s t p st) (h1 : st ≠ .idle) : Reaches c 1 t (coreStep c t) :=
  Reaches.one (by rw [h.state]; exact h1)

theorem Midway.nonceSize (h : Midway s t p st) : t.nonceSize = s.nonceSize := by rw [State.nonceSize, h.inst]; rfl
theorem Midway.tagSize (h : Midway s t p st) : t.tagSize = s.tagSize := by rw [State.tagSize, h.inst]; rfl
theorem Midway.adBytes (h : Midway s t p st) : t.adBytes = s.adBytes := by rw [State.adBytes, h.regs]; rfl

/-- The nonce of the command: the first aN bytes of the nonce store (30_encoding R115). -/
def cmdNonce (s : State) : Bytes := nonceBytes s s.nonceSize

/-- Ctr_0 of the command (43 R233). -/
def cmdCtr (s : State) (i : Nat) : Block := ctrBlock s.nonceSize (cmdNonce s) i

/-- The associated data of the command, as the buffer at its start holds it. -/
def cmdAd (c : Params) (s : State) : Bytes := Memory.readBytes c s.buf s.regs.adOff.toNat s.adBytes

/-- B0 of the command for a payload of `p` bytes (43 R235). -/
def cmdB0 (s : State) (p : Nat) : Block := b0Block (cmdCtr s 0) (counterWidth s.nonceSize) s.tagSize p s.adBytes

/-- The state in which the payload is begun (43 R239). -/
def payStart (p : Nat) : SeqState := if blocks p = 0 then .plpad else .pay

@[simp] theorem cmdAd_length (c : Params) (s : State) : (cmdAd c s).length = s.adBytes := by simp [cmdAd]

theorem cmdNonce_length (s : State) : (cmdNonce s).length = s.nonceSize := by
  have := s.inst.n.isLt
  simp only [cmdNonce, nonceBytes, State.nonceSize, List.length_take, Vector.length_toList]
  omega

/-! ### INIT, S0, B0 (43 R233-R235) -/

/-- What the prologue leaves: S0, Ctr_0 and the accumulator over B0 and the associated data. -/
structure Prologue (c : Params) (s t : State) (p : Nat) : Prop where
  mid : Midway s t p (payStart p)
  buf : t.buf = s.buf
  ctr : t.seq.ctr = cmdCtr s 0
  s0 : t.seq.s0 = c.E (cmdCtr s 0)
  blk : t.seq.blk = 1
  mac : SameMac t.eng (headEngine c (cmdB0 s p) (cmdAd c s) Engine.reset)

/-- The AD loop from byte `k` (43 R237). -/
theorem ad_reaches (r : Nat) : ∀ {t : State}, Midway s t p .ad → t.buf = s.buf → t.seq.k + r = s.adBytes → 0 < r →
    ∃ u, Reaches c r t u ∧ Midway s u p .adpad ∧ u.buf = s.buf ∧ u.seq.ctr = t.seq.ctr ∧ u.seq.s0 = t.seq.s0 ∧
      SameMac u.eng
        (accWriteAll c (Memory.readBytes c s.buf (s.regs.adOff.toNat + t.seq.k) r) t.eng) := by
  induction r with
  | zero => omega
  | succ r ih =>
    intro t h hb hk _
    have hstep : coreStep c t = actAd c t := by unfold coreStep; rw [h.state]
    have hst : (coreStep c t).seq.state = if r = 0 then .adpad else .ad := by
      rw [hstep]
      show (if t.seq.k + 1 = t.adBytes then SeqState.adpad else .ad) = _
      rw [h.adBytes]
      exact if_congr (by omega) rfl rfl
    have heng : (coreStep c t).eng =
        accWriteAll c [Memory.read c s.buf (s.regs.adOff.toNat + t.seq.k)] t.eng := by
      rw [hstep, ← hb, ← h.regs]
      exact accIssue_write (h.port (by decide))
    by_cases hr : r = 0
    · subst hr
      refine ⟨coreStep c t, h.one (by decide), h.step (by decide) (by decide) (by simpa using hst), ?_, ?_, ?_, ?_⟩
      · rw [hstep]; exact hb
      · rw [hstep]; rfl
      · rw [hstep]; rfl
      · rw [heng]; exact SameMac.refl _
    · rw [if_neg hr] at hst
      have hmid := h.step (c := c) (by decide) (by decide) hst
      have hk' : (coreStep c t).seq.k = t.seq.k + 1 := by rw [hstep]; rfl
      obtain ⟨u, h1, h2, h3, h4, h5, h6⟩ := ih hmid (by rw [hstep]; exact hb) (by omega) (by omega)
      refine ⟨u, ?_, h2, h3, ?_, ?_, ?_⟩
      · rw [Nat.add_comm]
        exact (h.one (by decide)).trans h1
      · rw [h4, hstep]; rfl
      · rw [h5, hstep]; rfl
      · refine h6.trans ?_
        rw [heng, hk', ← accWriteAll_append]
        exact SameMac.refl _

theorem prologue_reaches (h : Midway s t p .init) (hb : t.buf = s.buf) :
    ∃ u, Reaches c (if s.adBytes = 0 then 3 else 5 + s.adBytes) t u ∧ Prologue c s u p := by
  -- INIT
  have e1 : coreStep c t = actInit c t := by unfold coreStep; rw [h.state]
  have m1 : Midway s (coreStep c t) p .s0 := h.step (by decide) (by decide) (by rw [e1]; rfl)
  have c1 : (coreStep c t).seq.ctr = cmdCtr s 0 := by
    rw [e1]
    show ctrBlock t.nonceSize (nonceBytes t t.nonceSize) 0 = _
    rw [h.nonceSize, nonceBytes, h.regs]
    rfl
  have k1 : SameMac (coreStep c t).eng Engine.reset := by rw [e1]; exact accIssue_reset_ci
  have b1 : (coreStep c t).buf = s.buf := by rw [e1]; exact hb
  have r1 := h.one (c := c) (by decide)
  generalize coreStep c t = t1 at *
  -- S0
  have e2 : coreStep c t1 = actS0 c t1 := by unfold coreStep; rw [m1.state]
  have m2 : Midway s (coreStep c t1) p .b0 := m1.step (by decide) (by decide) (by rw [e2]; rfl)
  have c2 : (coreStep c t1).seq.ctr = cmdCtr s 0 := by rw [e2]; exact c1
  have s2 : (coreStep c t1).seq.s0 = c.E (cmdCtr s 0) := by rw [e2, ← c1]; rfl
  have k2 : SameMac (coreStep c t1).eng Engine.reset := by
    rw [e2]; exact (sameMac_cipherCall _ _).trans k1
  have b2 : (coreStep c t1).buf = s.buf := by rw [e2]; exact b1
  have r2 := r1.trans (m1.one (c := c) (by decide))
  generalize coreStep c t1 = t2 at *
  -- B0
  have e3 : coreStep c t2 = actB0 c t2 := by unfold coreStep; rw [m2.state]
  have k3 : SameMac (coreStep c t2).eng (accWriteAll c (cmdB0 s p).toList Engine.reset) := by
    have hb0 : b0Block t2.seq.ctr t2.seq.q t2.tagSize t2.seq.plen t2.adBytes = cmdB0 s p := by
      rw [c2, m2.q, m2.tagSize, m2.plen, m2.adBytes]; rfl
    rw [e3]
    show SameMac (accIssue c _ t2.eng) _
    rw [hb0, accIssue_write (m2.port (by decide))]
    exact k2.accWriteAll
  have hhead : accWriteAll c (cmdB0 s p).toList Engine.reset =
      accWriteAll c (cmdB0 s p).toList (accReset Engine.reset) := rfl
  have b3 : (coreStep c t2).buf = s.buf := by rw [e3]; exact b2
  have r3 := r2.trans (m2.one (c := c) (by decide))
  by_cases ha : s.adBytes = 0
  · have hst : (coreStep c t2).seq = enterPay t2.seq := by
      rw [e3]
      show (if 0 < t2.adBytes then _ else _) = _
      rw [m2.adBytes, if_neg (by omega)]
    refine ⟨_, by rw [if_pos ha]; exact r3, ⟨m2.step (by decide) (by decide) ?_, b3, ?_, ?_, ?_, ?_⟩⟩
    · rw [hst]
      show (if t2.seq.m = 0 then SeqState.plpad else .pay) = _
      rw [m2.m]; rfl
    · rw [hst]; exact c2
    · rw [hst]; exact s2
    · rw [hst]; rfl
    · refine k3.trans ?_
      rw [headEngine, if_pos (by simpa using ha), hhead]
      exact SameMac.refl _
  · have hst : (coreStep c t2).seq = { t2.seq with state := .alen } := by
      rw [e3]
      show (if 0 < t2.adBytes then _ else _) = _
      rw [m2.adBytes, if_pos (by omega)]
    have m3 : Midway s (coreStep c t2) p .alen := m2.step (by decide) (by decide) (by rw [hst])
    have c3 : (coreStep c t2).seq.ctr = cmdCtr s 0 := by rw [hst]; exact c2
    have s3 : (coreStep c t2).seq.s0 = c.E (cmdCtr s 0) := by rw [hst]; exact s2
    clear hst
    generalize coreStep c t2 = t3 at *
    -- ALEN
    have e4 : coreStep c t3 = actAlen c t3 := by unfold coreStep; rw [m3.state]
    have m4 : Midway s (coreStep c t3) p .ad := m3.step (by decide) (by decide) (by rw [e4]; rfl)
    have c4 : (coreStep c t3).seq.ctr = cmdCtr s 0 := by rw [e4]; exact c3
    have s4 : (coreStep c t3).seq.s0 = c.E (cmdCtr s 0) := by rw [e4]; exact s3
    have k4 : SameMac (coreStep c t3).eng
        (accWriteAll c (adPrefix s.adBytes) (accWriteAll c (cmdB0 s p).toList Engine.reset)) := by
      rw [e4]
      show SameMac (accIssue c (accWriteWords (adPrefix t3.adBytes)) t3.eng) _
      rw [m3.adBytes, accIssue_write (m3.port (by decide))]
      exact k3.accWriteAll
    have b4 : (coreStep c t3).buf = s.buf := by rw [e4]; exact b3
    have hk : (coreStep c t3).seq.k = 0 := by rw [e4]; rfl
    have r4 := r3.trans (m3.one (c := c) (by decide))
    generalize coreStep c t3 = t4 at *
    -- AD
    obtain ⟨t5, r5, m5, b5, c5, s5, k5⟩ := ad_reaches (c := c) s.adBytes m4 b4 (by omega) (by omega)
    have r5 := r4.trans r5
    -- ADPAD
    have e6 : coreStep c t5 = actAdPad c t5 := by unfold coreStep; rw [m5.state]
    refine ⟨coreStep c t5, ?_, ⟨m5.step (by decide) (by decide) ?_, ?_, ?_, ?_, ?_, ?_⟩⟩
    · rw [if_neg ha]
      have := r5.trans (m5.one (c := c) (by decide))
      rwa [show 1 + 1 + 1 + 1 + s.adBytes + 1 = 5 + s.adBytes by omega] at this
    · rw [e6]
      show (if t5.seq.m = 0 then SeqState.plpad else .pay) = _
      rw [m5.m]; rfl
    · rw [e6]; exact b5
    · rw [e6]; exact c5.trans c4
    · rw [e6]; exact s5.trans s4
    · rw [e6]; rfl
    · rw [e6]
      show SameMac (accIssue c [accWord 0 2] t5.eng) _
      rw [accIssue_padZero (m5.port (by decide)), headEngine, if_neg (by simpa using ha), cmdAd_length, ← hhead]
      refine SameMac.accPadZero (k5.trans ?_)
      rw [hk]
      exact k4.accWriteAll

/-! ### The payload (43 R239, R247) -/

/-- The payload input of the command, as the buffer at its start holds it. -/
def cmdInput (c : Params) (s : State) (p : Nat) : Bytes := Memory.readBytes c s.buf s.regs.inOff.toNat p

/-- What PAY writes: CTR of the input (43 R248). -/
def cmdOutput (c : Params) (s : State) (p : Nat) : Bytes := ctrXor c s.nonceSize (cmdNonce s) (cmdInput c s p)

/-- The plaintext, which is what the accumulator is fed: the input of a SEAL, the output of an OPEN. -/
def cmdPlain (c : Params) (s : State) (p : Nat) : Bytes :=
  if s.seq.op = .sealCmd then cmdInput c s p else cmdOutput c s p

@[simp] theorem cmdInput_length (c : Params) (s : State) (p : Nat) : (cmdInput c s p).length = p := by simp [cmdInput]
@[simp] theorem cmdOutput_length (c : Params) (s : State) (p : Nat) : (cmdOutput c s p).length = p := by
  simp [cmdOutput]
@[simp] theorem cmdPlain_length (c : Params) (s : State) (p : Nat) : (cmdPlain c s p).length = p := by
  simp only [cmdPlain]
  split <;> simp

/-- The payload's output overwrites no input byte before it is read: the regions are the same or apart. -/
def PayloadApart (s : State) (p : Nat) : Prop :=
  p = 0 ∨ s.regs.outOff = s.regs.inOff ∨ s.regs.outOff.toNat + p ≤ s.regs.inOff.toNat ∨
    s.regs.inOff.toNat + p ≤ s.regs.outOff.toNat

/-- `j` payload blocks are done; `e` is the accumulator the payload began with. -/
structure PayAt (c : Params) (s u : State) (p j : Nat) (e : Engine) : Prop where
  mid : Midway s u p (if j = blocks p then .plpad else .pay)
  blk : j < blocks p → u.seq.blk = j + 1
  ctr : ∃ i, u.seq.ctr = cmdCtr s i
  s0 : u.seq.s0 = c.E (cmdCtr s 0)
  buf : u.buf = Memory.writeBytes c s.buf s.regs.outOff.toNat ((cmdOutput c s p).take (16 * j))
  mac : SameMac u.eng (accWriteAll c ((cmdPlain c s p).take (16 * j)) e)

theorem readBytes_block (m : Memory) (off p j : Nat) :
    ((Memory.readBytes c m off p).drop (16 * j)).take 16 =
      Memory.readBytes c m (off + 16 * j) (min 16 (p - 16 * j)) := by
  apply List.ext_getElem?
  intro k
  by_cases hk : k < 16 ∧ 16 * j + k < p
  · rw [List.getElem?_take_of_lt hk.1, List.getElem?_drop, Memory.readBytes_get hk.2,
      Memory.readBytes_get (by omega)]
    congr 2
    omega
  · rw [List.getElem?_eq_none (by simp; omega), List.getElem?_eq_none (by simp; omega)]

theorem take_next_block (l : Bytes) (j : Nat) :
    l.take (16 * (j + 1)) = l.take (16 * j) ++ (l.drop (16 * j)).take 16 := by
  rw [show 16 * (j + 1) = 16 * j + 16 by omega, List.take_add]

theorem pay_step {u : State} {j : Nat} {e : Engine} (hw : Memory.wf c s.buf) (hap : PayloadApart s p)
    (h : PayAt c s u p j e) (hj : j < blocks p) :
    Reaches c 1 u (coreStep c u) ∧ PayAt c s (coreStep c u) p (j + 1) e := by
  have hm := h.mid
  rw [if_neg (by omega)] at hm
  have e1 : coreStep c u = actPay c u := by unfold coreStep; rw [hm.state]
  have hp : 16 * j < p := by simp only [blocks] at hj; omega
  have hblk := h.blk hj
  have hbase : 16 * (u.seq.blk - 1) = 16 * j := by omega
  -- the input block
  have hx : Memory.readBytes c u.buf (u.regs.inOff.toNat + 16 * (u.seq.blk - 1))
      (min 16 (u.seq.plen - 16 * (u.seq.blk - 1))) = ((cmdInput c s p).drop (16 * j)).take 16 := by
    rw [hbase, hm.regs, hm.plen, cmdInput, readBytes_block, h.buf]
    apply Memory.readBytes_congr
    intro a ha1 ha2
    rw [Memory.read_writeBytes hw, if_neg]
    simp only [List.length_take, cmdOutput_length]
    rcases hap with hap | hap | hap | hap
    · omega
    · rw [hap]; omega
    · omega
    · omega
  -- the keystream block
  have hc : setField u.seq.ctr u.seq.q u.seq.blk = cmdCtr s (j + 1) := by
    obtain ⟨i, hi⟩ := h.ctr
    have hN := s.inst.n.isLt
    rw [hi, hm.q, hblk]
    exact setField_ctrBlock (by simp only [State.nonceSize]; omega) (by rw [cmdNonce_length])
  have hy : xorBytes (((cmdInput c s p).drop (16 * j)).take 16) (c.E (cmdCtr s (j + 1))).toList =
      ((cmdOutput c s p).drop (16 * j)).take 16 := (ctrXor_block j).symm
  have hst : (coreStep c u).seq.state = if j + 1 = blocks p then .plpad else .pay := by
    rw [e1]
    show (if u.seq.blk = u.seq.m then SeqState.plpad else .pay) = _
    rw [hblk, hm.m]
  have hbk : (coreStep c u).seq.blk = if j + 1 = blocks p then j + 1 else j + 2 := by
    rw [e1]
    show (if u.seq.blk = u.seq.m then u.seq.blk else u.seq.blk + 1) = _
    rw [hblk, hm.m]
  refine ⟨hm.one (by decide), ⟨hm.step (by decide) (by decide) hst, ?_, ⟨j + 1, ?_⟩, ?_, ?_, ?_⟩⟩
  · intro hj2
    rw [hbk, if_neg (by omega)]
  · rw [e1]; exact hc
  · rw [e1]; exact h.s0
  · rw [e1]
    simp only [actPay]
    rw [hx, hc, hy, hbase, h.buf, hm.regs, take_next_block, Memory.writeBytes_append]
    congr 1
    simp only [List.length_take, cmdOutput_length]
    omega
  · rw [e1]
    simp only [actPay]
    rw [hx, hc, hy, accIssue_write (by show u.eng.port = []; exact hm.port (by decide)), take_next_block,
      accWriteAll_append, hm.op]
    have hplain : (if s.seq.op = SeqOp.sealCmd then ((cmdInput c s p).drop (16 * j)).take 16
        else ((cmdOutput c s p).drop (16 * j)).take 16) = ((cmdPlain c s p).drop (16 * j)).take 16 := by
      simp only [cmdPlain]
      split <;> rfl
    rw [hplain]
    exact SameMac.accWriteAll ((sameMac_cipherCall _ _).trans h.mac)

theorem pay_reaches {t : State} (hw : Memory.wf c s.buf) (hap : PayloadApart s p) (h : Prologue c s t p) (j : Nat)
    (hj : j ≤ blocks p) : ∃ u, Reaches c j t u ∧ PayAt c s u p j t.eng := by
  induction j with
  | zero =>
    refine ⟨t, Reaches.zero t, ⟨?_, fun _ => h.blk, ⟨0, h.ctr⟩, h.s0, ?_, ?_⟩⟩
    · have := h.mid
      rwa [payStart, if_congr eq_comm rfl rfl] at this
    · rw [h.buf]; rfl
    · exact SameMac.refl _
  | succ j ih =>
    obtain ⟨u, h1, h2⟩ := ih (by omega)
    obtain ⟨h3, h4⟩ := pay_step hw hap h2 (by omega)
    exact ⟨coreStep c u, h1.trans h3, h4⟩

/-! ### The tag (43 R240, R241) -/

/-- T_full of the command (43 R241). -/
def cmdTagFull (c : Params) (s : State) (p : Nat) : Block :=
  (tagEngine c (cmdB0 s p) (cmdAd c s) (cmdPlain c s p) Engine.reset).resp

/-- What the tag phase leaves: the output written, the masked tag, the accumulator holding T_full with p = 0. -/
structure Tagged (c : Params) (s u : State) (p : Nat) : Prop where
  mid : Midway s u p (if s.seq.op = .sealCmd then .emit else .verify)
  buf : u.buf = Memory.writeBytes c s.buf s.regs.outOff.toNat (cmdOutput c s p)
  tagc : u.seq.tagc.toList = xorBytes (cmdTagFull c s p).toList (c.E (cmdCtr s 0)).toList
  ci : u.eng.ci = cmdTagFull c s p
  p0 : u.eng.p = 0

@[simp] theorem accPadZero_p (e : Engine) : (accPadZero c e).p = 0 := by
  simp only [accPadZero]
  split
  · assumption
  · rfl

@[simp] theorem accSum_p (e : Engine) : (accSum c e).p = 0 := accPadZero_p e

theorem accSum_ci (e : Engine) : (accSum c e).ci = (accSum c e).resp := rfl

/-- How many core steps lead from CHECK to EMIT or VERIFY (43 R252). -/
def stepsToTag (s : State) (p : Nat) : Nat := (if s.adBytes = 0 then 6 else 8 + s.adBytes) + blocks p

theorem tag_reaches (hw : Memory.wf c s.buf) (hap : PayloadApart s p) (h : Midway s t p .init) (hb : t.buf = s.buf) :
    ∃ u, Reaches c (stepsToTag s p - 1) t u ∧ Tagged c s u p := by
  obtain ⟨t1, r1, h1⟩ := prologue_reaches (c := c) h hb
  obtain ⟨t2, r2, h2⟩ := pay_reaches hw hap h1 (blocks p) le_rfl
  have m2 := h2.mid
  rw [if_pos rfl] at m2
  have e3 : coreStep c t2 = actPlPad c t2 := by unfold coreStep; rw [m2.state]
  have m3 : Midway s (coreStep c t2) p .tag := m2.step (by decide) (by decide) (by rw [e3]; rfl)
  have hall : 16 * blocks p ≥ p := by simp only [blocks]; omega
  have k3 : SameMac (coreStep c t2).eng
      (accPadZero c (accWriteAll c (cmdPlain c s p) (headEngine c (cmdB0 s p) (cmdAd c s) Engine.reset))) := by
    rw [e3]
    show SameMac (accIssue c [accWord 0 2] t2.eng) _
    rw [accIssue_padZero (m2.port (by decide))]
    refine SameMac.accPadZero (h2.mac.trans ?_)
    rw [List.take_of_length_le (by simpa using hall)]
    exact h1.mac.accWriteAll
  have b3 : (coreStep c t2).buf = t2.buf := by rw [e3]; rfl
  have s3 : (coreStep c t2).seq.s0 = c.E (cmdCtr s 0) := by rw [e3]; exact h2.s0
  have r3 := m2.one (c := c) (by decide)
  generalize coreStep c t2 = t3 at *
  have e4 : coreStep c t3 = actTag c t3 := by unfold coreStep; rw [m3.state]
  have k4 : (coreStep c t3).eng = accSum c t3.eng := by
    rw [e4]; exact accIssue_sum (m3.port (by decide))
  have hresp : (accSum c t3.eng).resp = cmdTagFull c s p := k3.accSum.2
  have r4 := m3.one (c := c) (by decide)
  refine ⟨coreStep c t3, ?_, ⟨m3.step (by decide) (by decide) ?_, ?_, ?_, ?_, ?_⟩⟩
  · have := (r1.trans r2).trans (r3.trans r4)
    rwa [show (if s.adBytes = 0 then 3 else 5 + s.adBytes) + blocks p + (1 + 1) = stepsToTag s p - 1 by
      simp only [stepsToTag]; split <;> omega] at this
  · rw [e4]
    show (if t3.seq.op = .sealCmd then SeqState.emit else .verify) = _
    rw [m3.op]
  · rw [e4]
    show t3.buf = _
    rw [b3, h2.buf, List.take_of_length_le (by simpa using hall)]
  · have : (coreStep c t3).seq.tagc =
        blockOf (xorBytes (coreStep c t3).eng.resp.toList t3.seq.s0.toList) := by rw [e4]; rfl
    rw [this, k4, hresp, s3]
    exact blockOf_toList (by simp)
  · rw [k4, accSum_ci, hresp]
  · rw [k4]; exact accSum_p _

end Sys2Proof.Machine
end

