-- ==== Sys2Proof/Laws/Commands.lean ====
section
/-!
SUPPORT. What each command does from its start to its completion: what its checks grant, the number of its core
steps and the state it ends in.
-/

namespace Sys2Proof.Machine

variable {c : Params} {s t : State} {p : Nat}

/-! ### What a passed check grants (42 R198, R200, R203) -/

/-- The regions of a command whose output has `n` bytes. -/
structure RegionsOk (c : Params) (s : State) (n : Nat) : Prop where
  ad : s.regs.adOff.toNat + s.regs.adLen.toNat ≤ c.bufBytes
  input : s.regs.inOff.toNat + s.regs.inLen.toNat ≤ c.bufBytes
  output : s.regs.outOff.toNat + n ≤ c.bufBytes
  apartAd : n = 0 ∨ s.regs.adLen.toNat = 0 ∨ s.regs.outOff.toNat + n ≤ s.regs.adOff.toNat ∨
    s.regs.adOff.toNat + s.regs.adLen.toNat ≤ s.regs.outOff.toNat
  apartIn : n = 0 ∨ s.regs.inLen.toNat = 0 ∨ s.regs.outOff = s.regs.inOff ∨
    s.regs.outOff.toNat + n ≤ s.regs.inOff.toNat ∨ s.regs.inOff.toNat + s.regs.inLen.toNat ≤ s.regs.outOff.toNat

theorem regionsOk_of_check {n : Nat} (h : regionCheck c s n = .ok) : RegionsOk c s n := by
  unfold regionCheck at h
  split at h
  · cases h
  · split at h
    · cases h
    · split at h
      · cases h
      · rename_i h1 h2 h3
        simp only [inBuf, overlaps, Bool.or_eq_true, Bool.not_eq_true', decide_eq_false_iff_not, not_or, not_not,
          decide_eq_true_eq, Bool.and_eq_true, ne_eq, not_and] at h1 h2 h3
        refine ⟨h1.1.1, h1.1.2, h1.2, by omega, ?_⟩
        by_cases hs : s.regs.outOff = s.regs.inOff
        · exact .inr (.inr (.inl hs))
        · have : ¬(0 < n ∧ 0 < s.regs.inLen.toNat ∧ s.regs.outOff.toNat < s.regs.inOff.toNat + s.regs.inLen.toNat ∧
              s.regs.inOff.toNat < s.regs.outOff.toNat + n) := fun x => hs (h3 x)
          omega

/-- What SealCheck grants. -/
theorem sealCheck_ok (h : sealCheck c s = .ok) :
    s.inst.configured = true ∧ s.regs.nonceLen.toNat = s.nonceSize ∧ s.regs.inLen.toNat ≤ maxPayload s.nonceSize ∧
      RegionsOk c s (s.regs.inLen.toNat + s.tagSize) := by
  simp only [sealCheck] at h
  split at h
  · cases h
  · split at h
    · cases h
    · split at h
      · cases h
      · exact ⟨by simp_all, by simp_all, by omega, regionsOk_of_check h⟩

/-- What OpenCheck grants. -/
theorem openCheck_ok (h : openCheck c s = .ok) :
    s.inst.configured = true ∧ s.regs.nonceLen.toNat = s.nonceSize ∧ s.tagSize < s.regs.inLen.toNat ∧
      s.regs.inLen.toNat - s.tagSize ≤ maxPayload s.nonceSize ∧ RegionsOk c s (s.regs.inLen.toNat - s.tagSize) := by
  simp only [openCheck] at h
  split at h
  · cases h
  · split at h
    · cases h
    · split at h
      · cases h
      · split at h
        · cases h
        · exact ⟨by simp_all, by simp_all, by omega, by omega, regionsOk_of_check h⟩

theorem tagSize_le (hi : InstanceOk s) : s.tagSize ≤ 16 := by
  simp only [InstanceOk] at hi
  split at hi
  · omega
  · simp [State.tagSize, hi.2]

/-- BUF_BYTES <= 2^32 - 16 (00_scope R12). -/
theorem bufBytes_le (c : Params) : c.bufBytes ≤ 2 ^ 32 - 16 := by
  have := c.bufUnits.isLt
  simp only [Params.bufBytes]
  omega

/-! ### SEAL (42 R197, R205, R208) -/

/-- The end of an accepted SEAL started in `s`. -/
structure Sealed (c : Params) (s u : State) : Prop where
  idle : u.seq.state = .idle
  side : SameHostSide s u
  outLen : u.regs.outLen = BitVec.ofNat 32 (s.regs.inLen.toNat + s.tagSize)
  status : u.status = { done := true, err := .ok, lastOp := s.status.lastOp }
  inst : u.inst = s.inst
  ci : u.eng.ci = cmdTagFull c s s.regs.inLen.toNat
  p0 : u.eng.p = 0
  port : u.eng.port = []
  buf : u.buf = Memory.writeBytes c s.buf s.regs.outOff.toNat
    (cmdOutput c s s.regs.inLen.toNat ++
      (xorBytes (cmdTagFull c s s.regs.inLen.toNat).toList (c.E (cmdCtr s 0)).toList).take s.tagSize)

theorem midway_of_accept {p : Nat} (h : s.seq.state = .check) (hs : coreStep c s = acceptPayload s p) :
    Reaches c 1 s (coreStep c s) ∧ Midway s (coreStep c s) p .init ∧ (coreStep c s).buf = s.buf := by
  refine ⟨Reaches.one (by rw [h]; decide), ?_, by rw [hs]; rfl⟩
  have side := coreStep_sameHostSide c s
  rw [hs] at side ⊢
  exact ⟨rfl, rfl, rfl, side, rfl, rfl, rfl, rfl, rfl, fun h => absurd rfl h⟩

theorem seal_reaches (hst : s.seq.state = .check) (hop : s.seq.op = .sealCmd) (hck : sealCheck c s = .ok)
    (hw : Memory.wf c s.buf) :
    ∃ u, Reaches c (2 + stepsToTag s s.regs.inLen.toNat) s u ∧ Sealed c s u := by
  obtain ⟨-, -, -, hr⟩ := sealCheck_ok hck
  have hstep : coreStep c s = acceptPayload s s.regs.inLen.toNat := by
    unfold coreStep
    rw [hst]
    simp only [actCheck, hop, if_pos hck]
  obtain ⟨r1, m1, b1⟩ := midway_of_accept hst hstep
  obtain ⟨t2, r2, h2⟩ := tag_reaches hw (p := s.regs.inLen.toNat) (by
    rcases hr.apartIn with h | h | h | h | h <;> first | exact .inr (.inl h) | (simp only [PayloadApart]; omega)) m1 b1
  have m2 := h2.mid
  rw [if_pos hop] at m2
  have e3 : coreStep c t2 = actEmit c t2 := by unfold coreStep; rw [m2.state]
  have m3 : Midway s (coreStep c t2) _ .done := m2.step (by decide) (by decide) (by rw [e3]; rfl)
  have l3 : (coreStep c t2).seq.rlen = s.regs.inLen.toNat + s.tagSize := by
    rw [e3]
    show t2.seq.plen + t2.tagSize = _
    rw [m2.plen, m2.tagSize]
  have c3 : (coreStep c t2).seq.code = .ok := by rw [e3]; rfl
  have g3 : (coreStep c t2).eng = t2.eng := by rw [e3]; rfl
  have b3 : (coreStep c t2).buf = Memory.writeBytes c s.buf s.regs.outOff.toNat
      (cmdOutput c s s.regs.inLen.toNat ++
        (xorBytes (cmdTagFull c s s.regs.inLen.toNat).toList (c.E (cmdCtr s 0)).toList).take s.tagSize) := by
    rw [e3, Memory.writeBytes_append, cmdOutput_length, ← h2.tagc, ← h2.buf]
    show Memory.writeBytes c t2.buf (t2.regs.outOff.toNat + t2.seq.plen) (t2.seq.tagc.toList.take t2.tagSize) = _
    rw [m2.plen, m2.tagSize, m2.regs]
  have r3 := (r1.trans r2).trans (m2.one (c := c) (by decide))
  generalize coreStep c t2 = t3 at *
  have e4 : coreStep c t3 = actDone c t3 := by unfold coreStep; rw [m3.state]
  have side := m3.side.trans (coreStep_sameHostSide c t3)
  have o3 := m3.op.trans hop
  refine ⟨coreStep c t3, ?_, ?_⟩
  · have := r3.trans (m3.one (c := c) (by decide))
    rwa [show 1 + (stepsToTag s s.regs.inLen.toNat - 1) + 1 + 1 = 2 + stepsToTag s s.regs.inLen.toNat by
      simp only [stepsToTag]; split <;> omega] at this
  · rw [e4] at side ⊢
    simp only [actDone, commandResults, o3] at side ⊢
    refine ⟨rfl, side, ?_, ?_, m3.inst, ?_, ?_, ?_, b3⟩
    · simp [l3]
    · simp [c3, m3.status]
    · simp only [State.finish_eng]
      rw [g3, h2.ci]
    · simp only [State.finish_eng]
      rw [g3, h2.p0]
    · exact m3.port (by decide)

/-! ### OPEN (42 R199, R206, R208) -/

/-- Whether the tag of an accepted OPEN started in `s` matches (41 R177). -/
def cmdTagMatches (c : Params) (s : State) (p : Nat) : Prop :=
  ctDiff ((xorBytes (cmdTagFull c s p).toList (c.E (cmdCtr s 0)).toList).take s.tagSize)
    (Memory.readBytes c s.buf (s.regs.inOff.toNat + p) s.tagSize) = 0

/-- The end of an accepted OPEN started in `s`, for a payload of `p` bytes: with the tag matching (`ok`) or not. -/
structure Opened (c : Params) (s u : State) (p : Nat) (ok : Bool) : Prop where
  idle : u.seq.state = .idle
  side : SameHostSide s u
  outLen : u.regs.outLen = if ok then BitVec.ofNat 32 p else 0
  status : u.status = { done := true, err := if ok then .ok else .authenticationFailed, lastOp := s.status.lastOp }
  inst : u.inst = s.inst
  ci : u.eng.ci = cmdTagFull c s p
  p0 : u.eng.p = 0
  port : u.eng.port = []
  buf : u.buf = if ok then Memory.writeBytes c s.buf s.regs.outOff.toNat (cmdOutput c s p)
    else Memory.writeBytes c (Memory.writeBytes c s.buf s.regs.outOff.toNat (cmdOutput c s p)) s.regs.outOff.toNat
      (List.replicate p 0#8)

theorem open_reaches (hst : s.seq.state = .check) (hop : s.seq.op = .openCmd) (hck : openCheck c s = .ok)
    (hw : Memory.wf c s.buf) (hp : p = s.regs.inLen.toNat - s.tagSize) :
    (cmdTagMatches c s p → ∃ u, Reaches c (2 + stepsToTag s p) s u ∧ Opened c s u p true) ∧
      (¬cmdTagMatches c s p → ∃ u, Reaches c (3 + stepsToTag s p) s u ∧ Opened c s u p false) := by
  obtain ⟨-, -, hT, -, hr⟩ := openCheck_ok hck
  rw [← hp] at hr
  have hstep : coreStep c s = acceptPayload s p := by
    unfold coreStep
    rw [hst]
    simp only [actCheck, hop, if_pos hck, hp]
  obtain ⟨r1, m1, b1⟩ := midway_of_accept hst hstep
  have hap : PayloadApart s p := by
    simp only [PayloadApart]
    rcases hr.apartIn with h | h | h | h | h <;> first | omega | exact .inr (.inl h)
  obtain ⟨t2, r2, h2⟩ := tag_reaches hw hap m1 b1
  have m2 := h2.mid
  rw [if_neg (by rw [hop]; decide)] at m2
  have e3 : coreStep c t2 = actVerify c t2 := by unfold coreStep; rw [m2.state]
  have hread : Memory.readBytes c t2.buf (t2.regs.inOff.toNat + t2.seq.plen) t2.tagSize =
      Memory.readBytes c s.buf (s.regs.inOff.toNat + p) s.tagSize := by
    rw [m2.regs, m2.plen, m2.tagSize, h2.buf]
    apply Memory.readBytes_congr
    intro a h3 h4
    rw [Memory.read_writeBytes hw, if_neg]
    rw [cmdOutput_length]
    rcases hr.apartIn with h | h | h | h | h
    · omega
    · omega
    · rw [h]; omega
    · omega
    · omega
  have hdiff : ctDiff (t2.seq.tagc.toList.take t2.tagSize)
      (Memory.readBytes c t2.buf (t2.regs.inOff.toNat + t2.seq.plen) t2.tagSize) = 0 ↔ cmdTagMatches c s p := by
    rw [hread, m2.tagSize, h2.tagc]
    exact Iff.rfl
  have g3 : (coreStep c t2).eng = t2.eng := by rw [e3]; rfl
  have b3 : (coreStep c t2).buf = t2.buf := by rw [e3]; rfl
  have r3 := (r1.trans r2).trans (m2.one (c := c) (by decide))
  rw [show 1 + (stepsToTag s p - 1) + 1 = 1 + stepsToTag s p by simp only [stepsToTag]; split <;> omega] at r3
  have hfin : ∀ t3 : State, Midway s t3 p .done → coreStep c t3 = actDone c t3 := fun t3 m3 => by
    unfold coreStep; rw [m3.state]
  constructor
  · intro hm
    have q3 : (coreStep c t2).seq.rlen = p ∧ (coreStep c t2).seq.code = .ok ∧ (coreStep c t2).seq.state = .done := by
      rw [e3]
      simp only [actVerify]
      rw [if_pos (hdiff.2 hm)]
      exact ⟨m2.plen, rfl, rfl⟩
    have m3 := m2.step (c := c) (by decide) (by decide) q3.2.2
    clear e3
    generalize coreStep c t2 = t3 at *
    have e4 := hfin t3 m3
    have side := m3.side.trans (coreStep_sameHostSide c t3)
    have o3 := m3.op.trans hop
    refine ⟨coreStep c t3, ?_, ?_⟩
    · have := r3.trans (m3.one (c := c) (by decide))
      rwa [show 1 + stepsToTag s p + 1 = 2 + stepsToTag s p by omega] at this
    · rw [e4] at side ⊢
      simp only [actDone, commandResults, o3] at side ⊢
      refine ⟨rfl, side, ?_, ?_, m3.inst, ?_, ?_, ?_, ?_⟩
      · simp [q3.1]
      · simp [q3.2.1, m3.status]
      · simp only [State.finish_eng]
        rw [g3, h2.ci]
      · simp only [State.finish_eng]
        rw [g3, h2.p0]
      · exact m3.port (by decide)
      · simp only [State.finish_buf]
        rw [b3, h2.buf]
        exact (if_pos trivial).symm
  · intro hm
    have q3 : (coreStep c t2).seq.state = .wipe := by
      rw [e3]
      simp only [actVerify]
      rw [if_neg (fun h => hm (hdiff.1 h))]
    have m3 := m2.step (c := c) (by decide) (by decide) q3
    clear e3
    generalize coreStep c t2 = t3 at *
    have e4 : coreStep c t3 = actWipe c t3 := by unfold coreStep; rw [m3.state]
    have m4 : Midway s (coreStep c t3) p .done := m3.step (by decide) (by decide) (by rw [e4]; rfl)
    have q4 : (coreStep c t3).seq.rlen = 0 ∧ (coreStep c t3).seq.code = .authenticationFailed ∧
        (coreStep c t3).eng = t2.eng := by
      rw [e4]; exact ⟨rfl, rfl, g3⟩
    have b4 : (coreStep c t3).buf = Memory.writeBytes c t2.buf s.regs.outOff.toNat (List.replicate p 0#8) := by
      rw [e4, ← b3]
      show Memory.writeBytes c t3.buf t3.regs.outOff.toNat (List.replicate t3.seq.plen 0#8) = _
      rw [m3.plen, m3.regs]
    have r4 := r3.trans (m3.one (c := c) (by decide))
    clear e4
    generalize coreStep c t3 = t4 at *
    have e5 := hfin t4 m4
    have side := m4.side.trans (coreStep_sameHostSide c t4)
    have o4 := m4.op.trans hop
    refine ⟨coreStep c t4, ?_, ?_⟩
    · have := r4.trans (m4.one (c := c) (by decide))
      rwa [show 1 + stepsToTag s p + 1 + 1 = 3 + stepsToTag s p by omega] at this
    · rw [e5] at side ⊢
      simp only [actDone, commandResults, o4] at side ⊢
      refine ⟨rfl, side, ?_, ?_, m4.inst, ?_, ?_, ?_, ?_⟩
      · simp [q4.1]
      · simp [q4.2.1, m4.status]
      · simp only [State.finish_eng]
        rw [q4.2.2, h2.ci]
      · simp only [State.finish_eng]
        rw [q4.2.2, h2.p0]
      · exact m4.port (by decide)
      · simp only [State.finish_buf]
        rw [b4, h2.buf]
        exact (if_neg (by decide)).symm

/-! ### The commands of two core steps (43 R250, R251, 42 R207) -/

/-- The state a command of two core steps leaves: CHECK then DONE. -/
theorem two_step_reaches (h1 : s.seq.state = .check) (h2 : (coreStep c s).seq.state = .done) :
    Reaches c 2 s (actDone c (coreStep c s)) := by
  have := (Reaches.one (c := c) (s := s) (by rw [h1]; decide)).trans
    (Reaches.one (c := c) (s := coreStep c s) (by rw [h2]; decide))
  have e : coreStep c (coreStep c s) = actDone c (coreStep c s) := by
    generalize coreStep c s = u at h2 ⊢
    unfold coreStep
    rw [h2]
  rwa [e] at this

end Sys2Proof.Machine
end

