-- ==== Sys2Proof/Laws/Invariant.lean ====
section
/-!
SUPPORT. The laws of the invariant: what a core step may write, and that the named transitions keep the
invariant.
-/

namespace Sys2Proof.Machine

variable {c : Params} {s t : State}

/-- The output bytes are a function of registers, instance and op. -/
theorem outputBytes_congr (h1 : t.regs = s.regs) (h2 : t.inst = s.inst) (h3 : t.seq.op = s.seq.op) :
    outputBytes c t = outputBytes c s := by
  simp only [outputBytes, sealCheck_congr h1 h2, openCheck_congr h1 h2, h1, h3, State.tagSize, h2]

/-- `Accepted` is a function of registers, instance, op, P, m and q. -/
theorem accepted_congr (h1 : t.regs = s.regs) (h2 : t.inst = s.inst) (h3 : t.seq.op = s.seq.op)
    (h4 : t.seq.plen = s.seq.plen) (h5 : t.seq.m = s.seq.m) (h6 : t.seq.q = s.seq.q) :
    Accepted c t ↔ Accepted c s := by
  simp only [Accepted, sealCheck_congr h1 h2, openCheck_congr h1 h2, h1, h3, State.tagSize, State.nonceSize, h2, h4, h5, h6]

/-- The regions of an accepted command, and how P sits in its OUT region. -/
theorem Accepted.region (h : Accepted c s) :
    RegionsOk c s (outputBytes c s) ∧ s.seq.plen ≤ outputBytes c s ∧
      (s.seq.op = .sealCmd → outputBytes c s = s.seq.plen + s.tagSize) := by
  obtain ⟨⟨h1, h2, h3⟩ | ⟨h1, h2, h3⟩, -, -⟩ := h
  · have := (sealCheck_ok h2).2.2.2
    simp only [outputBytes, h1, h2, if_true, h3]
    exact ⟨this, by omega, by simp⟩
  · have := (openCheck_ok h2).2.2.2.2
    simp only [outputBytes, h1, h2, if_true, h3]
    exact ⟨this, by omega, by simp⟩

/-- A core step writes nothing, or bytes of the OUT region of an accepted command (20_memory R93). -/
theorem coreStep_buf (h : SequencerOk c s) :
    (coreStep c s).buf = s.buf ∨ (Accepted c s ∧ ∃ off bs, (coreStep c s).buf = Memory.writeBytes c s.buf off bs ∧
      s.regs.outOff.toNat ≤ off ∧ off + bs.length ≤ s.regs.outOff.toNat + outputBytes c s) := by
  unfold SequencerOk at h
  unfold coreStep
  cases hst : s.seq.state <;> rw [hst] at h <;> simp only at h ⊢
  case check =>
    left
    unfold actCheck acceptPayload rejectCommand
    split <;> (try split) <;> rfl
  case pay =>
    right
    obtain ⟨ha, h1, h2⟩ := h
    obtain ⟨-, hp, -⟩ := ha.region
    refine ⟨ha, _, _, rfl, by omega, ?_⟩
    simp only [xorBytes_length, Memory.readBytes_length, Vector.length_toList]
    have : s.seq.m = blocks s.seq.plen := ha.2.1
    simp only [blocks] at this
    omega
  case emit =>
    right
    obtain ⟨ha, h1⟩ := h
    obtain ⟨-, hp, ho⟩ := ha.region
    have := ho h1
    refine ⟨ha, _, _, rfl, by omega, ?_⟩
    simp only [List.length_take]
    omega
  case wipe =>
    right
    obtain ⟨ha, h1⟩ := h
    obtain ⟨-, hp, ho⟩ := ha.region
    refine ⟨ha, _, _, rfl, by omega, ?_⟩
    simp
    omega
  case done =>
    left
    unfold actDone commandResults
    split <;> (try split) <;> rfl
  all_goals first | exact .inl rfl | exact .inl trivial

/-- The instance a successful CONFIGURE creates is legal (42 R196, 10_state R50). -/
theorem instanceOk_of_config (h : configCheck c s = .ok) : 
   InstanceOk { s with inst := { configured := true, n := s.regs.cfgN, t := s.regs.cfgT } } := by
  unfold configCheck at h
  split at h
  · cases h
  split at h
  · cases h
  split at h
  · cases h
  rename_i h1 h2 h3
  simp only [InstanceOk, if_true, State.nonceSize, State.tagSize]
  tauto

/-- A core step keeps the invariant. -/
theorem inv_coreStep (hi : Inv c s) (hr : s.rst = false) : Inv c (coreStep c s) := by
  have side := coreStep_sameHostSide c s
  have hb : BufferOk c (coreStep c s) := by
    rcases coreStep_buf hi.sequencer with h | ⟨hacc, off, bs, h, h1, h2⟩
    · rw [BufferOk, h]; exact hi.buffer
    · rw [BufferOk, h]
      have := hacc.region.1.output
      exact ⟨Memory.wf_writeBytes hi.buffer.1, Memory.inside_writeBytes hi.buffer.2 (by omega)⟩
  have hh : (coreStep c s).rst = true → (coreStep c s).seq.state = .idle := by
    rw [side.rst, hr]; simp
  by_cases hd : s.seq.state = .done
  · -- done
    have hs := hi.sequencer
    unfold SequencerOk at hs
    rw [hd] at hs
    have e : coreStep c s = actDone c s := by unfold coreStep; rw [hd]
    have idle : (coreStep c s).seq.state = .idle := by rw [e]; rfl
    refine ⟨?_, hb, ?_, hh, ?_, ?_⟩
    · rw [e]
      unfold actDone commandResults
      split
      · rename_i hop
        rw [hop] at hs
        simp only at hs
        split
        · rename_i hc
          exact instanceOk_of_config (c := c) (s := s) (by rw [← hs, hc])
        · simp [InstanceOk, Instance.none]
      · exact hi.inst
      · exact hi.inst
      · exact hi.inst
    · have := hi.scratch
      rw [e]
      unfold actDone commandResults
      split <;> (try split) <;> exact this
    · unfold SequencerOk; rw [idle]; trivial
    · intro hbusy
      simp [State.busy, idle] at hbusy
  · have ⟨r1, r2, r3, r4⟩ := coreStep_regs (c := c) hd
    have hinst : InstanceOk (coreStep c s) := by
      have := hi.inst
      simpa only [InstanceOk, State.nonceSize, State.tagSize, r3] using this
    have hout : OutsideOutputKept c (coreStep c s) := by
      intro hbusy a ha
      rw [outputBytes_congr r1 r3 r4, r1] at ha
      by_cases hidle : s.seq.state = .idle
      · have e : coreStep c s = s := by unfold coreStep; rw [hidle]
        rw [e] at hbusy
        simp [State.busy, hidle] at hbusy
      · have hread : Memory.read c (coreStep c s).buf a = Memory.read c s.buf a := by
          rcases coreStep_buf hi.sequencer with h | ⟨-, off, bs, h, h1, h2⟩
          · rw [h]
          · rw [h, Memory.read_writeBytes hi.buffer.1, if_neg (by omega)]
        rw [hread, side.bufStart]
        exact hi.outside (by simpa [State.busy] using hidle) a ha
    suffices h : ScratchFits (coreStep c s) ∧ SequencerOk c (coreStep c s) from
      ⟨hinst, hb, h.1, hh, h.2, hout⟩
    have hsc := hi.scratch
    have hs := hi.sequencer
    have hbb := bufBytes_le c
    have htag := tagSize_le hi.inst
    have hN := s.inst.n.isLt
    unfold SequencerOk at hs
    -- transport of Accepted
    by_cases hck : s.seq.state = .check
    · have e : coreStep c s = actCheck c s := by unfold coreStep; rw [hck]
      have acc : ∀ p, coreStep c s = acceptPayload s p → 
          ((s.seq.op = .sealCmd ∧ sealCheck c s = .ok ∧ p = s.regs.inLen.toNat) ∨
    (s.seq.op = .openCmd ∧ openCheck c s = .ok ∧ p = s.regs.inLen.toNat - s.tagSize)) → p ≤ c.bufBytes →
          ScratchFits (coreStep c s) ∧ SequencerOk c (coreStep c s) := by
        intro p he hp hle
        rw [he]
        refine ⟨?_, ?_⟩
        · simp only [ScratchFits, acceptPayload, blocks, counterWidth] at hsc ⊢
          omega
        · exact ⟨hp, rfl, rfl⟩
      have rej : ∀ code, coreStep c s = rejectCommand s code → (s.seq.op = .sealCmd ∨ s.seq.op = .openCmd) →
          ScratchFits (coreStep c s) ∧ SequencerOk c (coreStep c s) := by
        intro code he ho
        rw [he]
        refine ⟨?_, ?_⟩
        · simp only [ScratchFits, rejectCommand] at hsc ⊢
          omega
        · rcases ho with ho | ho
          · simp [SequencerOk, rejectCommand, ho]
          · simp [SequencerOk, rejectCommand, ho]
      cases hop : s.seq.op
      · have e : coreStep c s = { s with seq := { s.seq with code := configCheck c s, state := .done } } := by
          rw [e]; simp only [actCheck, hop]
        rw [e]
        refine ⟨hsc, ?_⟩
        simp [SequencerOk, hop, configCheck]
      · by_cases hc : sealCheck c s = .ok
        · refine acc _ (by rw [e]; simp only [actCheck, hop, if_pos hc]) (.inl ⟨hop, hc, rfl⟩) ?_
          have := (sealCheck_ok hc).2.2.2.output
          omega
        · exact rej _ (by rw [e]; simp only [actCheck, hop, if_neg hc]; rfl) (.inl hop)
      · by_cases hc : openCheck c s = .ok
        · refine acc _ (by rw [e]; simp only [actCheck, hop, if_pos hc]) (.inr ⟨hop, hc, rfl⟩) ?_
          have := (openCheck_ok hc).2.2.2.2.output
          omega
        · exact rej _ (by rw [e]; simp only [actCheck, hop, if_neg hc]; rfl) (.inr hop)
      · have e : coreStep c s = { s with seq := { s.seq with code := .illegalCommand, state := .done } } := by
          rw [e]; simp only [actCheck, hop]
        rw [e]
        exact ⟨hsc, by simp [SequencerOk, hop]⟩
    have ⟨p1, p2, p3⟩ := coreStep_payload (c := c) hck
    have hA : Accepted c s → Accepted c (coreStep c s) := (accepted_congr r1 r3 r4 p1 p2 p3).2
    have hm : Accepted c s → s.seq.m = blocks s.seq.plen := fun h => h.2.1
    have hpl : Accepted c s → s.seq.plen + 16 ≤ 2 ^ 32 := by
      intro h
      have := h.region.1.output
      have := h.region.2.1
      omega
    have hk : s.adBytes < 2 ^ 32 := s.regs.adLen.isLt
    have hadc : (coreStep c s).adBytes = s.adBytes := by simp only [State.adBytes, r1]
    simp only [ScratchFits] at hsc ⊢
    rw [p1, p2, p3]
    unfold SequencerOk
    rw [hadc, r4, p2]
    cases hst : s.seq.state <;> rw [hst] at hs hck hd <;> simp only at hs hck hd
    case idle => 
      have e : coreStep c s = s := by unfold coreStep; rw [hst]
      rw [e, hst]; exact ⟨hsc, trivial⟩
    case init =>
      have e : coreStep c s = actInit c s := by unfold coreStep; rw [hst]
      have hA := hA hs
      rw [e] at hA ⊢
      exact ⟨hsc, hA⟩
    case s0 =>
      have e : coreStep c s = actS0 c s := by unfold coreStep; rw [hst]
      have hA := hA hs
      rw [e] at hA ⊢
      exact ⟨hsc, hA⟩
    case b0 =>
      have e : coreStep c s = actB0 c s := by unfold coreStep; rw [hst]
      have hA := hA hs
      rw [e] at hA ⊢
      simp only [actB0, enterPay] at hA ⊢
      by_cases ha : 0 < s.adBytes
      · simp only [if_pos ha] at hA ⊢
        exact ⟨hsc, hA, ha⟩
      · simp only [if_neg ha] at hA ⊢
        refine ⟨by omega, ?_⟩
        by_cases hm0 : s.seq.m = 0
        · simp only [if_pos hm0] at hA ⊢; exact hA
        · simp only [if_neg hm0] at hA ⊢; exact ⟨hA, by omega⟩
    case alen =>
      have e : coreStep c s = actAlen c s := by unfold coreStep; rw [hst]
      have hA := hA hs.1
      rw [e] at hA ⊢
      simp only [actAlen]
      exact ⟨by omega, hA, hs.2⟩
    case ad =>
      have e : coreStep c s = actAd c s := by unfold coreStep; rw [hst]
      have hA := hA hs.1
      rw [e] at hA ⊢
      simp only [actAd]
      refine ⟨by omega, ?_⟩
      by_cases hk1 : s.seq.k + 1 = s.adBytes
      · simp only [if_pos hk1]; exact ⟨hA, by omega⟩
      · simp only [if_neg hk1]; exact ⟨hA, by omega⟩
    case adpad =>
      have e : coreStep c s = actAdPad c s := by unfold coreStep; rw [hst]
      have hA := hA hs.1
      rw [e] at hA ⊢
      simp only [actAdPad, enterPay]
      refine ⟨by omega, ?_⟩
      by_cases hm0 : s.seq.m = 0
      · simp only [if_pos hm0]; exact hA
      · simp only [if_neg hm0]; exact ⟨hA, by omega⟩
    case pay =>
      have e : coreStep c s = actPay c s := by unfold coreStep; rw [hst]
      have hA := hA hs.1
      have hm' := hm hs.1
      have := hpl hs.1
      simp only [blocks] at hm'
      rw [e] at hA ⊢
      simp only [actPay]
      by_cases hk1 : s.seq.blk = s.seq.m
      · simp only [if_pos hk1]; exact ⟨by omega, hA⟩
      · simp only [if_neg hk1]; 
        have hmb : s.seq.m < 2 ^ 28 := by rw [hm hs.1, blocks]; omega
        exact ⟨by omega, hA, by omega⟩
    case plpad =>
      have e : coreStep c s = actPlPad c s := by unfold coreStep; rw [hst]
      have hA := hA hs
      rw [e] at hA ⊢
      exact ⟨hsc, hA⟩
    case tag =>
      have e : coreStep c s = actTag c s := by unfold coreStep; rw [hst]
      have hA := hA hs
      rw [e] at hA ⊢
      refine ⟨hsc, ?_⟩
      simp only [actTag]
      by_cases ho : s.seq.op = .sealCmd
      · simp only [if_pos ho]; exact ⟨hA, ho⟩
      · simp only [if_neg ho]; exact ⟨hA, by rcases hs.1 with h | h; exact absurd h.1 ho; exact h.1⟩
    case emit =>
      have e : coreStep c s = actEmit c s := by unfold coreStep; rw [hst]
      have hlen := hs.1.region.1.output
      have := hs.1.region.2.2 hs.2
      rw [e]
      simp only [actEmit, hs.2]
      refine ⟨by omega, by omega⟩
    case verify =>
      have e : coreStep c s = actVerify c s := by unfold coreStep; rw [hst]
      have hlen := hs.1.region.1.output
      have hle := hs.1.region.2.1
      have hA := hA hs.1
      rw [e] at hA ⊢
      simp only [actVerify] at hA ⊢
      split
      · rename_i h0
        simp only [hs.2]
        refine ⟨by omega, by omega⟩
      · rename_i h0
        rw [if_neg h0] at hA
        exact ⟨hsc, hA, hs.2⟩
    case wipe =>
      have e : coreStep c s = actWipe c s := by unfold coreStep; rw [hst]
      rw [e]
      simp only [actWipe, hs.2]
      refine ⟨by omega, by omega⟩
    all_goals simp_all

/-- The start of a command keeps the invariant. -/
theorem inv_start (op : BitVec 4) (hi : Inv c s) (hr : s.rst = false) : Inv c (s.start op) := by
  refine ⟨hi.inst, hi.buffer, hi.scratch, by simp [hr], trivial, fun _ a _ => rfl⟩

/-- A run of core steps keeps the invariant. -/
theorem inv_runCore (n : Nat) (hi : Inv c s) (hr : s.rst = false) : Inv c (runCore c n s) := by
  induction n generalizing s with
  | zero => exact hi
  | succ n ih =>
    simp only [runCore]
    split
    · exact hi
    · exact ih (inv_coreStep hi hr) ((coreStep_sameHostSide c s).rst.trans hr)

/-- A whole command keeps the invariant. -/
theorem inv_runCommand (op : BitVec 4) (hi : Inv c s) : Inv c (runCommand c op s) := by
  unfold runCommand
  split
  · exact hi
  · rename_i h
    have := (State.locked_eq_false_iff s).1 (by simpa using h)
    exact inv_runCore _ (inv_start op hi this.1) this.1

/-- The invariant does not read the accumulator and its port. -/
theorem inv_eng (e : Engine) (hi : Inv c s) : Inv c { s with eng := e } :=
  ⟨hi.inst, hi.buffer, hi.scratch, hi.heldIdle, hi.sequencer, hi.outside⟩

/-- The invariant does not read the events to come. -/
theorem inv_inbox (es : List Event) (hi : Inv c s) : Inv c { s with inbox := es } :=
  ⟨hi.inst, hi.buffer, hi.scratch, hi.heldIdle, hi.sequencer, hi.outside⟩

/-- The invariant does not read the read-data output. -/
theorem inv_rdata (d : Word) (hi : Inv c s) : Inv c { s with rdata := d } :=
  ⟨hi.inst, hi.buffer, hi.scratch, hi.heldIdle, hi.sequencer, hi.outside⟩

/-- At IDLE, registers, flags and the buffer may take any value that keeps the buffer in form. -/
theorem inv_idle (hi : Inv c s) (h : s.seq.state = .idle) (r : Regs) (st : Status) (m : Memory) (hm : BufferOk c { s with buf := m}) :
    Inv c { s with regs := r, status := st, buf := m } := by
  refine ⟨hi.inst, hm, hi.scratch, hi.heldIdle, ?_, ?_⟩
  · simp [SequencerOk, h]
  · intro hb; simp [State.busy, h] at hb

/-- The aborted region has as many bytes as the command computes. -/
theorem abortBytes_length (m : Memory) (d off : Nat) (bs : Bytes) : (abortBytes c m d off bs).length = bs.length := by
  induction bs generalizing off with
  | nil => rfl
  | cons b bs ih => simp [abortBytes, ih]

/-- While a command runs, what it computes is as long as its OUT region. -/
theorem abortedOutput_length (hi : InstanceOk s) (h : s.busy = true) : (abortedOutput c s).length = outputBytes c s := by
  have := tagSize_le hi
  simp only [abortedOutput, h, outputBytes]
  cases s.seq.op <;> simp
  · split
    · simp [ccmTag_length this]
    · simp
  · split
    · simp 
    · simp

/-- A command with output bytes passed its region checks. -/
theorem outputBytes_region (h : 0 < outputBytes c s) : RegionsOk c s (outputBytes c s) := by
  unfold outputBytes at h ⊢
  split at h
  · split at h
    · rename_i h1
      simp only [if_pos h1]
      exact (sealCheck_ok h1).2.2.2
    · omega
  · split at h
    · rename_i h1
      simp only [if_pos h1]
      exact (openCheck_ok h1).2.2.2.2
    · omega
  · omega
  · omega

/-- With no command running there is no aborted output. -/
theorem abortedOutput_idle (h : s.busy = false) : abortedOutput c s = [] := by
  simp only [abortedOutput, h, if_true]

/-- The reset input keeps the invariant (70_reset R291-R293). -/
theorem inv_reset (l : Bool) (hi : Inv c s) : Inv c (resetEvent c l s) := by
  unfold resetEvent
  split
  · refine ⟨?_, ?_, ?_, fun _ => rfl, trivial, ?_⟩
    · simp [InstanceOk, resetState, State.reset, Instance.none]
    · show Memory.wf c (bufAfterReset c s) ∧ Memory.inside c (bufAfterReset c s)
      refine ⟨Memory.wf_writeBytes hi.buffer.1, ?_⟩
      by_cases hb : s.busy
      · by_cases h0 : 0 < outputBytes c s
        · refine Memory.inside_writeBytes hi.buffer.2 ?_
          have := (outputBytes_region h0).output
          rw [abortBytes_length, abortedOutput_length hi.inst hb]
          omega
        · have := abortedOutput_length (c := c) hi.inst hb
          have : abortedOutput c s = [] := List.length_eq_zero_iff.1 (by omega)
          simp only [bufAfterReset, this, abortBytes, Memory.writeBytes]
          exact hi.buffer.2
      · simp only [bufAfterReset, abortedOutput_idle (by simpa using hb), abortBytes, Memory.writeBytes]
        exact hi.buffer.2
    · simp [ScratchFits, resetState, State.reset, Seq.reset]
    · intro h; simp [State.busy, resetState, State.reset, Seq.reset] at h
  · exact hi

end Sys2Proof.Machine
end

