-- ==== Sys2Proof/Laws/Lanes.lean ====
section
/-!
SUPPORT. Bus words in plain arithmetic: word offsets (20_memory R82), lanes (R87) and the two configuration
words (10_state R36, R40).
-/

namespace Sys2Proof.Machine

/-- The word offset of a REG transaction. -/
theorem regWordOffset_toNat (a : BitVec 12) : (a &&& 0xFFC#12).toNat = a.toNat / 4 * 4 := by
  revert a; decide +kernel

/-- The word offset of a BUF transaction. -/
theorem bufWordOffset_eq (a : Word) : bufWordOffset a = a.toNat / 4 * 4 := by
  have h : a &&& 0xFFFFFFFC#32 = (a >>> 2) <<< 2 := by
    ext i hi
    simp only [BitVec.getElem_and, BitVec.getElem_shiftLeft]
    by_cases h2 : i < 2
    · have : i = 0 ∨ i = 1 := by omega
      rcases this with rfl | rfl <;> simp
    · simp only [h2, decide_false, Bool.not_false, Bool.true_and]
      rw [BitVec.getElem_ushiftRight, show 2 + (i - 2) = i by omega]
      have : (0xFFFFFFFC#32)[i] = true := by
        clear * - h2
        interval_cases i <;> simp_all
      rw [this, BitVec.getLsbD_eq_getElem hi]; simp
  unfold bufWordOffset
  rw [h, BitVec.toNat_shiftLeft, BitVec.toNat_ushiftRight, Nat.shiftLeft_eq, Nat.shiftRight_eq_div_pow]
  have := a.isLt
  simp; omega

/-- The number a word of four lanes stands for. -/
theorem wordOfLanes_toNat (b0 b1 b2 b3 : Byte) :
    (wordOfLanes b0 b1 b2 b3).toNat = b0.toNat + b1.toNat * 256 + b2.toNat * 65536 + b3.toNat * 16777216 := by
  unfold wordOfLanes
  simp only [BitVec.toNat_append]
  have := b0.isLt
  have := b1.isLt
  have := b2.isLt
  have := b3.isLt
  rw [← Nat.shiftLeft_add_eq_or_of_lt (by omega), ← Nat.shiftLeft_add_eq_or_of_lt (by omega),
    ← Nat.shiftLeft_add_eq_or_of_lt (by omega)]
  simp only [Nat.shiftLeft_eq]
  omega

/-- Lane `j` of a word is a byte of its number. -/
theorem lane_eq (d : Word) (j : Nat) : lane d j = BitVec.ofNat 8 (d.toNat / 256 ^ j) := by
  unfold lane
  apply BitVec.eq_of_toNat_eq
  simp [Nat.shiftRight_eq_div_pow, Nat.pow_mul]

/-- CFG and ACTIVE_CFG: T in bits 12:8, N in bits 3:0. -/
theorem cfgWord_toNat (t : BitVec 5) (n : BitVec 4) :
    ((t.setWidth 32 <<< 8) ||| n.setWidth 32 : Word).toNat = t.toNat * 256 + n.toNat := by
  revert t n; decide +kernel

end Sys2Proof.Machine
end

