-- ==== Sys2Proof/Laws/Layout.lean ====
section
/-!
SUPPORT. The byte layouts of 41_formatting, byte by byte: big-endian fields, counter blocks, B0.
-/

namespace Sys2Proof.Machine

/-- Byte `k` of [v]_n (00_scope R19). -/
theorem bigEndian_getD (n v k : Nat) (hk : k < n) :
    ((bigEndian n v).getD k 0).toNat = v / 256 ^ (n - 1 - k) % 256 := by
  simp [bigEndian, List.getD, hk, Nat.shiftRight_eq_div_pow, Nat.pow_mul]

/-- [v]_n read as a big-endian number, after `x`. -/
theorem bigEndian_fold (n v : Nat) (x : Nat) :
    (bigEndian n v).foldl (fun v x => v * 256 + x.toNat) x = x * 256 ^ n + v % 256 ^ n := by
  induction n generalizing v with
  | zero => simp [bigEndian, Nat.mod_one]
  | succ n ih =>
    have : bigEndian (n + 1) v = bigEndian n (v / 256) ++ [BitVec.ofNat 8 v] := by
      apply List.ext_getElem (by simp)
      intro k h1 h2
      simp only [bigEndian_length] at h1
      rw [List.getElem_append]
      split
      · rename_i h; simp at h
        simp only [bigEndian, List.getElem_map, List.getElem_range]
        rw [Nat.shiftRight_eq_div_pow, Nat.shiftRight_eq_div_pow, Nat.pow_mul, Nat.pow_mul, show (2:Nat)^8 = 256 from rfl, Nat.div_div_eq_div_mul, ← Nat.pow_succ']
        congr 3; omega
      · rename_i h; simp at h
        have : k = n := by omega
        subst this
        simp [bigEndian]
    rw [this, List.foldl_append, ih]
    simp only [List.foldl_cons, List.foldl_nil, BitVec.toNat_ofNat]
    have h256 : v % 256 ^ (n + 1) = v % 256 + 256 * (v / 256 % 256 ^ n) := by
      rw [Nat.pow_succ', Nat.mod_mul]
    rw [h256, Nat.pow_succ 256 n]
    show (x * 256 ^ n + v / 256 % 256 ^ n) * 256 + v % 256 = _
    ring

/-- Byte `k` of Ctr_i (41 R162). -/
theorem ctrBlock_get (n i : Nat) (nonce : Bytes) (hl : nonce.length = n) (k : Nat) (hk : k < 16) :
    (ctrBlock n nonce i)[k] =
      if k = 0 then BitVec.ofNat 8 (15 - n - 1)
      else if k ≤ n then nonce.getD (k - 1) 0
      else (bigEndian (15 - n) i).getD (k - 1 - n) 0 := by
  rw [ctrBlock, blockOf_getElem, List.take_of_length_le (by omega), counterWidth]
  cases k with
  | zero => rfl
  | succ k =>
    rw [List.cons_append, List.getD_cons_succ, if_neg (by omega)]
    by_cases h : k < n
    · rw [if_pos (by omega)]; simp [List.getD, List.getElem?_append_left (show k < nonce.length by omega)]
    · rw [if_neg (by omega)]; simp [List.getD, List.getElem?_append_right (show nonce.length ≤ k by omega), hl]

/-- Byte `k` of a block whose last `q` bytes are replaced. -/
theorem setField_get (b : Block) (q v k : Nat) (hq : q ≤ 16) (hk : k < 16) :
    (setField b q v)[k] = if k < 16 - q then b[k] else (bigEndian q v).getD (k - (16 - q)) 0 := by
  rw [setField, blockOf_getElem]
  by_cases h : k < 16 - q
  · rw [if_pos h]; simp only [List.getD]; rw [List.getElem?_append_left (by simp; omega), List.getElem?_take_of_lt h]; simp [hk]
  · rw [if_neg h]; simp only [List.getD]; rw [List.getElem?_append_right (by simp; omega)]; simp

/-- The flags byte of B0 is a sum of its fields (41 R167). -/
theorem flags_byte (q t : Nat) (a : Byte) (hq1 : 2 ≤ q) (hq : q ≤ 8) (ht1 : 4 ≤ t) (ht : t ≤ 16)
    (he : t % 2 = 0) (ha : a = 0x40 ∨ a = 0) :
    (BitVec.ofNat 8 (q - 1) ||| a ||| BitVec.ofNat 8 (((t - 2) / 2) <<< 3)).toNat = a.toNat + 8 * ((t - 2) / 2) + (q - 1) := by
  obtain ⟨u, rfl⟩ : ∃ u, t = 2 * u := ⟨t / 2, by omega⟩
  have hu : (2 * u - 2) / 2 = u - 1 := by omega
  rw [hu]
  obtain ⟨x, hx⟩ : ∃ x : Fin 8, x.val = u - 1 := ⟨⟨u - 1, by omega⟩, rfl⟩
  obtain ⟨y, hy⟩ : ∃ y : Fin 8, y.val = q - 1 := ⟨⟨q - 1, by omega⟩, rfl⟩
  rw [← hx, ← hy]
  rcases ha with rfl | rfl <;> (clear * -; revert x y; decide)

end Sys2Proof.Machine
end

