-- ==== Sys2Proof/Laws/PerInstr.lean ====
section
/-!
SUPPORT. Statements made per operation. `EncodingRow`: the word the encoder gives a well-formed operation
fits its format and belongs to exactly one row of the opcode map, the operation's own (30_encoding R116).
-/

namespace Sys2Proof

/-- The width of a format's word: 70 (log 1), 32 (30_encoding R112) and 10 bits (R113). -/
def formatBits : Format → Nat
  | .bus => 70
  | .cmd => 32
  | .acc => 10

/-- The word of a well-formed operation fits its format and matches its own row alone. -/
def Laws.EncodingRow.Statement (i : Instr) : Prop :=
  i.wellFormed = true →
    encodeWord i < 2 ^ formatBits (formatOf i) ∧ rowsMatching (formatOf i) (encodeWord i) = [mnemonicOf i]

/-- Which row a bus word belongs to shows in its kind. -/
theorem rowsMatching_busWord (wdata : Word) (be : BitVec 4) (addr : Word) (k : BitVec 2) :
    rowsMatching .bus (busWord wdata be addr k).toNat = rowsMatching .bus k.toNat := by
  rw [rowsMatching_low]
  have h := busWord_mod wdata be addr k
  have h2 : (busWord wdata be addr k).toNat % 16 < 16 := Nat.mod_lt _ (by omega)
  have h3 : (busWord wdata be addr k).toNat % 16 % 4 = k.toNat := by omega
  rw [← h3]
  generalize (busWord wdata be addr k).toNat % 16 = x at h2
  interval_cases x <;> rfl

/-- Which row a port word belongs to shows in its ACC_OP. -/
theorem rowsMatching_accWord (d : Byte) (op : BitVec 2) :
    rowsMatching .acc (accWord d op).toNat = rowsMatching .acc op.toNat := by
  rw [rowsMatching_low]
  have h := accWord_mod d op
  have h2 : (accWord d op).toNat % 16 < 16 := Nat.mod_lt _ (by omega)
  have h3 : (accWord d op).toNat % 16 % 4 = op.toNat := by omega
  rw [← h3]
  generalize (accWord d op).toNat % 16 = x at h2
  interval_cases x <;> rfl

namespace Laws.EncodingRow

theorem regRead (a : BitVec 12) : Statement (.regRead a) :=
  fun _ => ⟨(busWord 0 0 (a.setWidth 32) 0).isLt, (rowsMatching_busWord _ _ _ _).trans rfl⟩

theorem regWrite (a : BitVec 12) (d : Word) : Statement (.regWrite a d) :=
  fun _ => ⟨(busWord d 0 (a.setWidth 32) 1).isLt, (rowsMatching_busWord _ _ _ _).trans rfl⟩

theorem bufRead (a : Word) : Statement (.bufRead a) :=
  fun _ => ⟨(busWord 0 0 a 2).isLt, (rowsMatching_busWord _ _ _ _).trans rfl⟩

theorem bufWrite (a d : Word) (be : BitVec 4) : Statement (.bufWrite a d be) :=
  fun _ => ⟨(busWord d be a 3).isLt, (rowsMatching_busWord _ _ _ _).trans rfl⟩

theorem configure : Statement .configure := fun _ => ⟨by decide, by decide⟩

theorem sealMsg : Statement .sealMsg := fun _ => ⟨by decide, by decide⟩

theorem openMsg : Statement .openMsg := fun _ => ⟨by decide, by decide⟩

theorem illegal0 : Statement .illegal0 := fun _ => ⟨by decide, by decide⟩

theorem illegal4to7 (op : BitVec 4) : Statement (.illegal4to7 op) := by
  unfold Statement
  revert op; decide

theorem illegal8toF (op : BitVec 4) : Statement (.illegal8toF op) := by
  unfold Statement
  revert op; decide

theorem accReset : Statement .accReset := fun _ => ⟨by decide, by decide⟩

theorem accWrite (b : Byte) : Statement (.accWrite b) :=
  fun _ => ⟨(accWord b 1).isLt, (rowsMatching_accWord _ _).trans rfl⟩

theorem accPadZero : Statement .accPadZero := fun _ => ⟨by decide, by decide⟩

theorem accSum : Statement .accSum := fun _ => ⟨by decide, by decide⟩

end Laws.EncodingRow

end Sys2Proof
end

