-- ==== Sys2Proof/Laws/Runs.lean ====
section
/-!
SUPPORT. The run of a command as one transition (log 4): what each command's run reaches, what no run
changes, and what the next action takes in.
-/

namespace Sys2Proof.Machine

variable {c : Params} {s t : State} {p : Nat} {op : BitVec 4}

/-- A command's run is what its core steps reach. -/
theorem runCommand_of_reaches {n : Nat} (hl : s.locked = false) (h : Reaches c n (s.start op) t)
    (ht : t.seq.state = .idle) (hf : n ≤ commandFuel s) : runCommand c op s = t := by
  rw [runCommand, if_neg (by simp [hl])]
  exact runCore_of_reaches h ht hf

/-- The run of a command that goes from CHECK to DONE. -/
theorem two_step_run (hl : s.locked = false) (h : (coreStep c (s.start op)).seq.state = .done) :
    runCommand c op s = actDone c (coreStep c (s.start op)) :=
  runCommand_of_reaches hl (two_step_reaches rfl h) rfl (by simp [commandFuel]; omega)

/-- CHECK of a CONFIGURE. -/
theorem check_configure : coreStep c (s.start 1) =
    { s.start 1 with seq := { (s.start 1).seq with code := configCheck c s, state := .done } } := rfl

/-- CHECK of a SEAL that fails. -/
theorem check_seal_fails (h : sealCheck c s ≠ .ok) :
    coreStep c (s.start 2) = rejectCommand (s.start 2) (sealCheck c s) := by
  have e : sealCheck c (s.start 2) = sealCheck c s := sealCheck_congr rfl rfl
  unfold coreStep actCheck
  simp only [State.start_seq, show seqOpOf 2 = SeqOp.sealCmd from rfl, e, if_neg h]

/-- CHECK of an OPEN that fails. -/
theorem check_open_fails (h : openCheck c s ≠ .ok) :
    coreStep c (s.start 3) = rejectCommand (s.start 3) (openCheck c s) := by
  have e : openCheck c (s.start 3) = openCheck c s := openCheck_congr rfl rfl
  unfold coreStep actCheck
  simp only [State.start_seq, show seqOpOf 3 = SeqOp.openCmd from rfl, e, if_neg h]

/-- CHECK of an illegal opcode. -/
theorem check_illegal (h : seqOpOf op = .illegal) : coreStep c (s.start op) =
    { s.start op with seq := { (s.start op).seq with code := .illegalCommand, state := .done } } := by
  unfold coreStep actCheck
  simp only [State.start_seq, h]

/-- The opcodes (43 R231). -/
theorem opcode_cases (op : BitVec 4) :
    op = 1 ∨ op = 2 ∨ op = 3 ∨ (seqOpOf op = .illegal ∧ op ≠ 1 ∧ op ≠ 2 ∧ op ≠ 3) := by
  revert op; decide

theorem xorBytes_take (xs ys : Bytes) (n : Nat) : (xorBytes xs ys).take n = xorBytes (xs.take n) (ys.take n) := by
  simp only [xorBytes, List.take_zipWith]

/-- The MAC value of a SEAL is TagCompute of its operands. -/
theorem seal_tagFull (h : s.seq.op = .sealCmd) : cmdTagFull c s p =
    tagCompute c s.nonceSize s.tagSize (cmdNonce s) (cmdAd c s) (cmdInput c s p) := by
  simp only [cmdTagFull, tagCompute, cmdPlain, if_pos h, cmdB0, cmdCtr, cmdInput_length, cmdAd_length]

/-- The MAC value of an OPEN is TagCompute over the recovered plaintext. -/
theorem open_tagFull (h : s.seq.op = .openCmd) : cmdTagFull c s p =
    tagCompute c s.nonceSize s.tagSize (cmdNonce s) (cmdAd c s) (cmdOutput c s p) := by
  simp only [cmdTagFull, tagCompute, cmdPlain, h, reduceCtorEq, if_false, cmdB0, cmdCtr, cmdOutput_length,
    cmdAd_length]

/-- The run of an accepted SEAL. -/
theorem seal_run (hl : s.locked = false) (hw : Memory.wf c s.buf) (hc : sealCheck c s = .ok) :
    Sealed c (s.start 2) (runCommand c 2 s) := by
  obtain ⟨u, hu, hs⟩ := seal_reaches (c := c) (s := s.start 2) rfl rfl
    (by rw [← hc]; exact sealCheck_congr rfl rfl) hw
  have : runCommand c 2 s = u := by
    refine runCommand_of_reaches hl hu hs.idle ?_
    simp only [commandFuel, stepsToTag, State.adBytes, State.start_regs]
    by_cases h0 : s.regs.adLen.toNat = 0 <;> simp only [h0, if_true, if_false] <;> omega
  rw [this]; exact hs

/-- The run of an accepted OPEN, by whether its tag matches. -/
theorem open_run (hl : s.locked = false) (hw : Memory.wf c s.buf) (hc : openCheck c s = .ok)
    (hp : p = s.regs.inLen.toNat - s.tagSize) :
    (cmdTagMatches c (s.start 3) p → Opened c (s.start 3) (runCommand c 3 s) p true) ∧
      (¬cmdTagMatches c (s.start 3) p → Opened c (s.start 3) (runCommand c 3 s) p false) := by
  obtain ⟨a, b⟩ := open_reaches (c := c) (s := s.start 3) (p := p) rfl rfl
    (by rw [← hc]; exact openCheck_congr rfl rfl) hw hp
  constructor
  · intro h
    obtain ⟨u, hu, hs⟩ := a h
    have : runCommand c 3 s = u := by
      refine runCommand_of_reaches hl hu hs.idle ?_
      simp only [commandFuel, stepsToTag, State.adBytes, State.start_regs, blocks]
      by_cases h0 : s.regs.adLen.toNat = 0 <;> simp only [h0, if_true, if_false] <;> omega
    rw [this]; exact hs
  · intro h
    obtain ⟨u, hu, hs⟩ := b h
    have : runCommand c 3 s = u := by
      refine runCommand_of_reaches hl hu hs.idle ?_
      simp only [commandFuel, stepsToTag, State.adBytes, State.start_regs, blocks]
      by_cases h0 : s.regs.adLen.toNat = 0 <;> simp only [h0, if_true, if_false] <;> omega
    rw [this]; exact hs

/-- CCMOpen of the operands of an accepted OPEN, by whether its tag matches. -/
theorem open_result (hc : openCheck c s = .ok) (hp : p = s.regs.inLen.toNat - s.tagSize) :
    let inp := Memory.readBytes c s.buf s.regs.inOff.toNat s.regs.inLen.toNat
    inp.take p = cmdInput c s p ∧
      (cmdTagMatches c (s.start 3) p →
        ccmOpen c s.nonceSize s.tagSize (cmdNonce s) (cmdAd c s) inp = .ok (cmdOutput c s p)) ∧
      (¬cmdTagMatches c (s.start 3) p →
        ccmOpen c s.nonceSize s.tagSize (cmdNonce s) (cmdAd c s) inp = .error .authenticationFailed) := by
  intro inp
  have ⟨h1, h2, h3, h4, h5⟩ := openCheck_ok hc
  have hsplit : s.regs.inLen.toNat = p + s.tagSize := by omega
  have hinp : inp = cmdInput c s p ++ Memory.readBytes c s.buf (s.regs.inOff.toNat + p) s.tagSize := by
    simp only [inp]
    rw [hsplit, Memory.readBytes_add]; rfl
  have hlen : inp.length = s.regs.inLen.toNat := by simp [inp]
  have htake : inp.take p = cmdInput c s p := by rw [hinp, List.take_left' (by simp)]
  have hdrop : inp.drop p = Memory.readBytes c s.buf (s.regs.inOff.toNat + p) s.tagSize := by
    rw [hinp, List.drop_left' (by simp)]
  have hm : cmdTagMatches c (s.start 3) p ↔
      ctDiff (ccmTag c s.nonceSize s.tagSize (cmdNonce s) (cmdAd c s) (cmdOutput c s p)) (inp.drop p) = 0 := by
    rw [hdrop, cmdTagMatches, xorBytes_take, open_tagFull rfl]
    rfl
  have hopen : ccmOpen c s.nonceSize s.tagSize (cmdNonce s) (cmdAd c s) inp =
      if ctDiff (ccmTag c s.nonceSize s.tagSize (cmdNonce s) (cmdAd c s) (cmdOutput c s p)) (inp.drop p) = 0
      then .ok (cmdOutput c s p) else .error .authenticationFailed := by
    unfold ccmOpen
    rw [if_neg (by simp [cmdNonce_length]), if_neg (by omega), if_neg (by omega)]
    simp only [hlen, ← hp, htake]
    rfl
  refine ⟨htake, fun h => ?_, fun h => ?_⟩
  · rw [hopen, if_pos (hm.1 h)]
  · rw [hopen, if_neg (fun x => h (hm.2 x))]

/-! ### What no run changes -/

/-- No core step enters the state value 15 (43 R230). -/
theorem coreStep_not_reserved (h : s.seq.state ≠ .reserved15) : (coreStep c s).seq.state ≠ .reserved15 := by
  unfold coreStep
  split
  case h_2 => unfold actCheck acceptPayload rejectCommand; split <;> (try split) <;> simp
  case h_15 => simp [actDone]
  case h_1 h1 => rw [h1]; simp
  case h_16 h1 => exact absurd h1 h
  case h_5 => simp only [actB0, enterPay]; split <;> (try split) <;> simp
  case h_7 => simp only [actAd]; split <;> simp
  case h_8 => simp only [actAdPad, enterPay]; split <;> simp
  case h_9 => simp only [actPay]; split <;> simp
  case h_11 => simp only [actTag]; split <;> simp
  case h_13 => simp only [actVerify]; split <;> simp
  all_goals simp [actInit, actS0, actAlen, actPlPad, actEmit, actWipe]

/-- No core step changes the running command. -/
theorem coreStep_op : (coreStep c s).seq.op = s.seq.op := by
  by_cases hd : s.seq.state = .done
  · unfold coreStep; rw [hd]; unfold actDone commandResults; simp only [State.finish_seq]
    split <;> (try split) <;> simp_all
  · exact (coreStep_regs hd).2.2.2

/-- A core step writes the instance only at the completion of CONFIGURE. -/
theorem coreStep_inst (h : ¬(s.seq.state = .done ∧ s.seq.op = .configure)) : (coreStep c s).inst = s.inst := by
  by_cases hd : s.seq.state = .done
  · unfold coreStep; rw [hd]; unfold actDone commandResults; simp only [State.finish_inst]
    split <;> (try split) <;> simp_all
  · exact (coreStep_regs hd).2.2.1

/-- A core step writes a register only at the completion of SEAL or OPEN. -/
theorem coreStep_outLen (h : ¬(s.seq.state = .done ∧ (s.seq.op = .sealCmd ∨ s.seq.op = .openCmd))) :
    (coreStep c s).regs = s.regs := by
  by_cases hd : s.seq.state = .done
  · unfold coreStep; rw [hd]; unfold actDone commandResults; simp only [State.finish_regs]
    split <;> (try split) <;> simp_all
  · exact (coreStep_regs hd).1

/-- A run of another command than CONFIGURE keeps the instance. -/
theorem runCore_inst (n : Nat) : ∀ {s : State}, s.seq.op ≠ .configure → (runCore c n s).inst = s.inst := by
  induction n with
  | zero => intro s _; rfl
  | succ n ih =>
    intro s h
    simp only [runCore]
    split
    · rfl
    · rw [ih (by rw [coreStep_op]; exact h), coreStep_inst (by simp [h])]

/-- A run of another command than SEAL and OPEN keeps the registers. -/
theorem runCore_regs (n : Nat) :
    ∀ {s : State}, ¬(s.seq.op = .sealCmd ∨ s.seq.op = .openCmd) → (runCore c n s).regs = s.regs := by
  induction n with
  | zero => intro s _; rfl
  | succ n ih =>
    intro s h
    simp only [runCore]
    split
    · rfl
    · rw [ih (by rw [coreStep_op]; exact h), coreStep_outLen (by simp [h])]

/-! ### The next action -/

/-- Taking in the next action removes an event or a port word and changes nothing else, and an operation it
runs is well formed. -/
theorem nextAction_keeps (s : State) :
    (∃ es ws, (nextAction s).2 = { s with inbox := es, eng := { s.eng with port := ws } }) ∧
      ∀ i, (nextAction s).1 = .run i → i.wellFormed = true := by
  unfold nextAction
  split
  · exact ⟨⟨_, _, rfl⟩, fun i h => by injection h with h; subst h; exact (decodeAcc_wf _).1⟩
  · rename_i hp
    have : s.eng = { s.eng with port := [] } := by rw [← hp]
    split
    · exact ⟨⟨s.inbox, [], by rw [← this]⟩, fun i h => by cases h⟩
    · exact ⟨⟨_, [], by rw [← this]⟩, fun i h => by injection h with h; subst h; exact (decodeBus_wf _).1⟩
    · exact ⟨⟨_, [], by rw [← this]⟩, fun i h => by injection h with h; subst h; exact (decodeCmd_wf _).1⟩
    · exact ⟨⟨_, [], by rw [← this]⟩, fun i h => by cases h⟩
    · exact ⟨⟨_, [], by rw [← this]⟩, fun i h => by cases h⟩

end Sys2Proof.Machine
end

