-- ==== Sys2Proof/Tests/Slice0.lean ====
section
/-!
SUPPORT. The model's own tests: the checks of well-formedness, words written out from the encodings of
30_encoding, one operation at a time on small states with the toy ciphers of 95_test_vectors section 1, and
for every statement with hypotheses a state and operands that meet them. Expected values come from the rules'
examples and from 95_test_vectors, each named in its docstring.
-/

namespace Sys2Proof.Tests

open Sys2Proof.Machine

/-! ### Well-formedness (30_encoding R116) -/

/-- Opcode 2 is SEAL's, no opcode of ILLEGAL_4_7. -/
theorem test_wellFormed_refuses_illegal4to7_of_2 : (Instr.illegal4to7 2).wellFormed = false := by decide

/-- Opcode 8 is ILLEGAL_8_F's, no opcode of ILLEGAL_4_7. -/
theorem test_wellFormed_refuses_illegal4to7_of_8 : (Instr.illegal4to7 8).wellFormed = false := by decide

/-- Opcode 7 is ILLEGAL_4_7's, no opcode of ILLEGAL_8_F. -/
theorem test_wellFormed_refuses_illegal8toF_of_7 : (Instr.illegal8toF 7).wellFormed = false := by decide

/-! ### Decoding: one word per constructor, bit by bit (30_encoding R111-R113; BUS packing log 1) -/

/-- wdata 0, be 0, addr 0x014, K = 0b00. -/
theorem test_decode_regRead : decode .bus
    (bytesOfNat 9 0b00000000000000000000000000000000_0000_00000000000000000000000000010100_00) =
      .ok (.regRead 0x014) := by decide

/-- wdata 0x00000407, addr 0x00C, K = 0b01. -/
theorem test_decode_regWrite : decode .bus
    (bytesOfNat 9 0b00000000000000000000010000000111_0000_00000000000000000000000000001100_01) =
      .ok (.regWrite 0x00C 0x407) := by decide

/-- addr 0x300, K = 0b10. -/
theorem test_decode_bufRead : decode .bus
    (bytesOfNat 9 0b00000000000000000000000000000000_0000_00000000000000000000001100000000_10) =
      .ok (.bufRead 0x300) := by decide

/-- wdata 0x23222120, be 0b0011, addr 0x200, K = 0b11 (R193's example). -/
theorem test_decode_bufWrite : decode .bus
    (bytesOfNat 9 0b00100011001000100010000100100000_0011_00000000000000000000001000000000_11) =
      .ok (.bufWrite 0x200 0x23222120 0b0011) := by decide

/-- OPCODE = 1. -/
theorem test_decode_configure : decode .cmd (bytesOfNat 4 0b0000000000000000000000000000_0001) =
    .ok .configure := by decide

/-- OPCODE = 2; the ignored bits 31:4 set. -/
theorem test_decode_seal : decode .cmd (bytesOfNat 4 0b1111111111111111111111111111_0010) =
    .ok .sealMsg := by decide

/-- OPCODE = 3. -/
theorem test_decode_open : decode .cmd (bytesOfNat 4 0b0000000000000000000000000000_0011) =
    .ok .openMsg := by decide

/-- OPCODE = 0. -/
theorem test_decode_illegal0 : decode .cmd (bytesOfNat 4 0b0000000000000000000000000001_0000) =
    .ok .illegal0 := by decide

/-- OPCODE = 5. -/
theorem test_decode_illegal4to7 : decode .cmd (bytesOfNat 4 0b0000000000000000000000000000_0101) =
    .ok (.illegal4to7 5) := by decide

/-- OPCODE = 0xF. -/
theorem test_decode_illegal8toF : decode .cmd (bytesOfNat 4 0b0000000000000000000000000000_1111) =
    .ok (.illegal8toF 0xF) := by decide

/-- ACC_OP = 0, ACC_DATA ignored. -/
theorem test_decode_accReset : decode .acc (bytesOfNat 2 0b11111111_00) = .ok .accReset := by decide

/-- ACC_OP = 1, ACC_DATA = 0xAA. -/
theorem test_decode_accWrite : decode .acc (bytesOfNat 2 0b10101010_01) = .ok (.accWrite 0xAA) := by decide

/-- ACC_OP = 2. -/
theorem test_decode_accPadZero : decode .acc (bytesOfNat 2 0b00000000_10) = .ok .accPadZero := by decide

/-- ACC_OP = 3. -/
theorem test_decode_accSum : decode .acc (bytesOfNat 2 0b00000000_11) = .ok .accSum := by decide

/-- A port word has 10 bits and a command word 4 bytes (30_encoding R112, R113). -/
theorem test_decode_refuses_by_name : decode .acc (bytesOfNat 2 0b1_00000000_00) = .error .bitsAboveFormat ∧
    decode .cmd [1, 0, 0] = .error .wrongLength := by decide

/-! ### Small states -/

/-- A core with the given cipher, CIPHER_BS = 16, BUF_BYTES = 4096 and a zero buffer at power-on. -/
def core (E : Block → Block) : Params :=
  { E := E, cipherBs := 16, bufUnits := 252, regBase := 0, bufBase := 0x1000, powerOn := fun _ => 0,
    abortPick := fun _ _ => 0 }

/-- E_id of 95_test_vectors section 1. -/
def eId (b : Block) : Block := b

/-- E_rot of 95_test_vectors section 1: rotate left one byte, then byte 0 xor 1. -/
def eRot (b : Block) : Block :=
  Vector.ofFn fun i => if i.val = 0 then b[1] ^^^ 1 else if h : i.val + 1 < 16 then b[i.val + 1] else b[0]

/-- A configured, idle core with N = 13, T = 4 and the nonce A0..AC. -/
def ready13 : State :=
  { State.reset with
    inst := { configured := true, n := 13, t := 4 }
    regs := { Regs.reset with
      nonce := #v[0xA0, 0xA1, 0xA2, 0xA3, 0xA4, 0xA5, 0xA6, 0xA7, 0xA8, 0xA9, 0xAA, 0xAB, 0xAC, 0, 0, 0]
      nonceLen := 13 } }

/-- The operands of L2.4: IN = (0x200, 3), OUT = 0x300, Pt = 00 01 02. -/
def seal24 : State :=
  { ready13 with
    regs := { ready13.regs with inOff := 0x200, inLen := 3, outOff := 0x300 }
    buf := [(0x201, 1), (0x202, 2)] }

/-- The sealed message of L2.4 to be opened in place. -/
def open24 : State :=
  { ready13 with
    regs := { ready13.regs with inOff := 0x300, inLen := 7, outOff := 0x300 }
    buf := [(0x300, 0x01), (0x301, 0xA1), (0x302, 0xA3), (0x303, 0x08), (0x304, 0x01), (0x305, 0x02)] }

/-! ### Host bus operations -/

/-- 42 R190's example. -/
theorem test_regRead_id_and_status : (doRegRead (core eId) 0x000 State.reset).rdata = 0x43434D01 ∧
    (doRegRead (core eId) 0x014 State.reset).rdata = 0 := by decide

/-- 95 L2.5, last rows of the register reads: INFO of a 16-byte cipher, and a reserved offset. -/
theorem test_regRead_info_and_reserved : (doRegRead (core eId) 0x007 State.reset).rdata = 0x00101010 ∧
    (doRegRead (core eId) 0x034 State.reset).rdata = 0 := by decide

/-- 42 R191's example. -/
theorem test_regWrite_cfg :
    (doRegRead (core eId) 0x00C (doRegWrite 0x00C 0xFFFFFFFF State.reset)).rdata = 0x00001F0F := by decide

/-- 42 R202's example: STATUS 0x00000356, write 0x2, gives 0x00000354. -/
theorem test_regWrite_status_w1c :
    statusWord (doRegWrite 0x014 2
      { ready13 with status := { done := true, err := .authenticationFailed, lastOp := 3 } }) = 0x354 := by decide

/-- 42 R192's example. -/
theorem test_bufRead_lanes : (doBufRead (core eId) 0x301
    { State.reset with buf := [(0x300, 0x71), (0x301, 0x62), (0x302, 0x01), (0x303, 0x5B)] }).rdata = 0x5B016271 := by
  decide

/-- 95 L2.5: BUF_READ 0x1000 = 0 with BUF_BYTES = 4096. -/
theorem test_bufRead_out_of_range :
    (doBufRead { core eId with powerOn := fun _ => 0x55 } 0x1000 State.reset).rdata = 0 ∧
      (doBufRead { core eId with powerOn := fun _ => 0x55 } 0xFFC State.reset).rdata = 0x55555555 := by decide

/-- 42 R193's example. -/
theorem test_bufWrite_enables : (doBufWrite (core eId) 0x200 0x23222120 0b0011 State.reset).buf =
    [(0x200, 0x20), (0x201, 0x21)] := by decide

/-- 95 L2.5: be = 0b0110 at 0x801 on a zero word; a write at 0x1000 is ignored. -/
theorem test_bufWrite_middle_lanes :
    (doBufWrite (core eId) 0x801 0xAABBCCDD 0b0110 State.reset).buf = [(0x801, 0xCC), (0x802, 0xBB)] ∧
      doBufWrite (core eId) 0x1000 0x55 0xF State.reset = State.reset := by decide

/-! ### Commands -/

/-- 95 L1a.6: CFG 0x406 is rejected, from an unconfigured core. -/
theorem test_configure_rejects_nonce_size :
    statusWord (runCommand (core eId) 1 (doRegWrite 0x00C 0x406 State.reset)) = 0x122 := by decide +kernel

/-- 95 L1a.6: CFG 0x1007 is accepted, ACTIVE_CFG 0x1007. -/
theorem test_configure_accepts :
    statusWord (runCommand (core eId) 1 (doRegWrite 0x00C 0x1007 State.reset)) = 0x106 ∧
      regRead (core eId) (runCommand (core eId) 1 (doRegWrite 0x00C 0x1007 State.reset)) .activeCfg = 0x1007 := by
  decide +kernel

/-- 95 L2.4: the sealed message, STATUS and OUT_LEN. -/
theorem test_seal_l24 : let t := runCommand (core eId) 2 seal24
    Memory.readBytes (core eId) t.buf 0x300 7 = [0x01, 0xA1, 0xA3, 0x08, 0x01, 0x02, 0x00] ∧
      statusWord t = 0x206 ∧ t.regs.outLen = 7 := by decide +kernel

/-- 95 L2.6: SEAL after reset is NOT_CONFIGURED, 0x00000262. -/
theorem test_seal_not_configured : statusWord (runCommand (core eId) 2 State.reset) = 0x262 := by decide +kernel

/-- 41 R181 on L2.4 in place: the plaintext comes back, the tag bytes stay (42 R199). -/
theorem test_open_l24 : let t := runCommand (core eId) 3 open24
    Memory.readBytes (core eId) t.buf 0x300 7 = [0x00, 0x01, 0x02, 0x08, 0x01, 0x02, 0x00] ∧
      statusWord t = 0x306 ∧ t.regs.outLen = 3 := by decide +kernel

/-- 42 R199: with a wrong tag byte the output is wiped, ERR = 5, OUT_LEN = 0. -/
theorem test_open_wipes :
    let t := runCommand (core eId) 3 { open24 with buf := Memory.write (core eId) open24.buf 0x306 1 }
    Memory.readBytes (core eId) t.buf 0x300 7 = [0x00, 0x00, 0x00, 0x08, 0x01, 0x02, 0x01] ∧
      statusWord t = 0x356 ∧ t.regs.outLen = 0 := by decide +kernel

/-- 95 L2.6: CMD 0x0. -/
theorem test_illegal0 : statusWord (runCommand (core eId) 0 State.reset) = 0x092 := by decide +kernel

/-- 42 R201's example: from STATUS = 0x00000106, CMD 0x7 gives 0x00000796. -/
theorem test_illegal4to7 : statusWord (runCommand (core eId) 7
    { ready13 with status := { done := true, err := .ok, lastOp := 1 } }) = 0x796 := by decide +kernel

/-- 95 L2.6: CMD 0xF. -/
theorem test_illegal8toF : statusWord (runCommand (core eId) 0xF State.reset) = 0xF92 := by decide +kernel

/-- 95 L2.7: the sequencer's states of SEAL without associated data and one block. -/
theorem test_seal_trace : (List.range 9).map (fun k => ((coreStep (core eId))^[k] (seal24.start 2)).seq.state) =
    [.check, .init, .s0, .b0, .pay, .plpad, .tag, .emit, .done] := by decide +kernel

/-! ### The accumulator -/

/-- 40 R141's example under E_id: 01 to 10, then 11. -/
theorem test_accWrite_block :
    let bs : Bytes := [1, 2, 3, 4, 5, 6, 7, 8, 9, 0xA, 0xB, 0xC, 0xD, 0xE, 0xF, 0x10, 0x11]
    let e := accWriteAll (core eId) bs Engine.reset
    e.p = 1 ∧ e.ci = #v[0x10, 2, 3, 4, 5, 6, 7, 8, 9, 0xA, 0xB, 0xC, 0xD, 0xE, 0xF, 0x10] ∧ e.calls.length = 1 := by
  decide +kernel

/-- 40 R142's example under E_rot; a second padding changes nothing. -/
theorem test_accPadZero_rot : let e := accPadZero (core eRot) (accWrite (core eRot) 0xAA Engine.reset)
    e.p = 0 ∧ e.ci = #v[1, 0, 0, 0, 0, 0, 0, 0, 0, 0, 0, 0, 0, 0, 0, 0xAA] ∧ accPadZero (core eRot) e = e := by
  decide +kernel

/-- 95 L2.1, last row under E_rot. -/
theorem test_accSum_rot : let e := accSum (core eRot) (accWrite (core eRot) 0xAA Engine.reset)
    e.p = 0 ∧ e.resp = #v[1, 0, 0, 0, 0, 0, 0, 0, 0, 0, 0, 0, 0, 0, 0, 0xAA] ∧ e.ci = e.resp := by
  decide +kernel

/-- 40 R144's example: ACC_RESET then ACC_SUM returns zeros with no call. -/
theorem test_accReset_sum : let e := accSum (core eRot) (accReset (accWrite (core eRot) 0xAA Engine.reset))
    e.resp = zeroBlock ∧ e.calls = [] := by decide +kernel

/-! ### Layouts -/

/-- 95 L2.2: B0 for N = 13, T = 16, P = 65535, a = 1. -/
theorem test_b0 : (b0Block (ctrBlock 13 [0x10, 0x11, 0x12, 0x13, 0x14, 0x15, 0x16, 0x17, 0x18, 0x19, 0x1A, 0x1B, 0x1C] 0)
      2 16 65535 1).toList =
    [0x79, 0x10, 0x11, 0x12, 0x13, 0x14, 0x15, 0x16, 0x17, 0x18, 0x19, 0x1A, 0x1B, 0x1C, 0xFF, 0xFF] := by
  decide +kernel

/-- 95 L1a.4: the prefixes at the boundaries. -/
theorem test_prefix : adPrefix 65279 = [0xFE, 0xFF] ∧ adPrefix 65280 = [0xFF, 0xFE, 0, 0, 0xFF, 0] ∧
    adPrefix 0x7FFFFFFF = [0xFF, 0xFE, 0x7F, 0xFF, 0xFF, 0xFF] ∧
    adPrefix 0x80000000 = [0xFF, 0xFF, 0, 0, 0, 0, 0x80, 0, 0, 0] := by decide +kernel

/-! ### Every statement's hypotheses are met

The parameters of the machine are hidden, so these states use only that the buffer has at least 64 bytes
(00_scope R12). -/

/-- A configured, idle core with N = 7, T = 4. -/
def ready7 : State :=
  { State.reset with
    inst := { configured := true, n := 7, t := 4 }
    regs := { Regs.reset with cfgN := 7, cfgT := 4, nonceLen := 7 } }

/-- A SEAL of the 4 bytes at 0 to the 8 bytes at 4, with no associated data. -/
def sealable : State := { ready7 with regs := { ready7.regs with inLen := 4, outOff := 4 } }

/-- A SEAL in place of the 4 bytes at 0, with associated data at 8, right after the output. -/
def sealableInPlace : State := { ready7 with regs := { ready7.regs with inLen := 4, adOff := 8, adLen := 3 } }

/-- An OPEN of the 5 bytes at 0 to the byte at 8. -/
def openable : State := { ready7 with regs := { ready7.regs with inLen := 5, outOff := 8 } }

theorem room : 64 ≤ Config.params.bufBytes := by
  simp only [Params.bufBytes]; omega

theorem room_lt : Config.params.bufBytes + 16 ≤ 2 ^ 32 := by
  have := bufBytes_le Config.params
  omega

theorem bufBytes_mod (c : Params) : c.bufBytes % 16 = 0 := by simp [Params.bufBytes]

/-- A region of the first 64 bytes lies inside the buffer. -/
theorem inBuf_small {a n : Nat} (h : a + n ≤ 64) : inBuf Config.params a n = true := by
  have := room
  simp only [inBuf, decide_eq_true_eq]; omega

/-- A region that ends above 2^32 - 16 does not. -/
theorem inBuf_large {a n : Nat} (h : 2 ^ 32 ≤ a + n) : inBuf Config.params a n = false := by
  have := room_lt
  simp only [inBuf, decide_eq_false_iff_not]; omega

theorem regionCheck_small {s : State} {n : Nat} (h1 : s.regs.adOff.toNat + s.regs.adLen.toNat ≤ 64)
    (h2 : s.regs.inOff.toNat + s.regs.inLen.toNat ≤ 64) (h3 : s.regs.outOff.toNat + n ≤ 64)
    (h4 : overlaps s.regs.outOff.toNat n s.regs.adOff.toNat s.regs.adLen.toNat = false)
    (h5 : (overlaps s.regs.outOff.toNat n s.regs.inOff.toNat s.regs.inLen.toNat &&
      decide (s.regs.outOff ≠ s.regs.inOff)) = false) :
    regionCheck Config.params s n = .ok := by
  unfold regionCheck
  rw [inBuf_small h1, inBuf_small h2, inBuf_small h3, h4, h5]
  rfl

theorem sealable_ok : sealCheck Config.params sealable = .ok :=
  regionCheck_small (s := sealable) (n := 8) (by decide) (by decide) (by decide) (by decide) (by decide)

theorem sealableInPlace_ok : sealCheck Config.params sealableInPlace = .ok :=
  regionCheck_small (s := sealableInPlace) (n := 8) (by decide) (by decide) (by decide) (by decide) (by decide)

theorem openable_ok : openCheck Config.params openable = .ok :=
  regionCheck_small (s := openable) (n := 1) (by decide) (by decide) (by decide) (by decide) (by decide)

theorem witness_DecodeInvertsEncode : (Instr.illegal4to7 4).wellFormed = true ∧
    (Instr.illegal4to7 7).wellFormed = true ∧ (Instr.illegal8toF 8).wellFormed = true ∧
    (Instr.illegal8toF 0xF).wellFormed = true ∧ (Instr.regRead 0xFFF).wellFormed = true := by decide

theorem witness_DecodedOperationIsWellFormed : decode .cmd [2, 0, 0, 0] = .ok .sealMsg ∧
    decode .acc [0xFD, 3] = .ok (.accWrite 0xFF) ∧
    decode .bus [0xFF, 0xFF, 0xFF, 0xFF, 0xFF, 0xFF, 0xFF, 0xFF, 0x3F] =
      .ok (.bufWrite 0xFFFFFFFF 0xFFFFFFFF 0xF) := by decide

theorem witness_StepRunsPlacedWord : decode .bus (bytesOfNat (formatBytes .bus) 0x50) = .ok (.regRead 0x014) ∧
    decode .cmd (bytesOfNat (formatBytes .cmd) 0xFFFFFFF3) = .ok .openMsg ∧
    decode .acc (bytesOfNat (formatBytes .acc) 0x3FF) = .ok .accSum ∧
    decodeTableWord 8 0 = some (.regRead 0) ∧ decodeTableWord 32 0xF = some (.illegal8toF 0xF) ∧
    decodeTableWord 16 1 = some (.accWrite 0) := by decide

theorem witness_StepFollowsInbox_port : ∃ s : State, ∃ w ws, s.eng.port = w :: ws :=
  ⟨{ State.reset with eng := { Engine.reset with port := [1] } }, 1, [], rfl⟩

theorem witness_StepFollowsInbox_events : State.reset.eng.port = [] ∧
    ({ State.reset with inbox := [.txn 0] } : State).inbox = .txn 0 :: [] ∧
    ({ State.reset with inbox := [.command 2] } : State).inbox = .command 2 :: [] ∧
    ({ State.reset with inbox := [.rst true] } : State).inbox = .rst true :: [] ∧
    ({ State.reset with inbox := [.tick] } : State).inbox = .tick :: [] ∧ State.reset.rst = false ∧
    State.reset.seq.state ≠ .reserved15 ∧ State.reset.inbox = [] := by decide

theorem witness_StepFollowsInbox_stops :
    let s : State := { State.reset with rst := true }
    let u : State := { State.reset with seq := { Seq.reset with state := .reserved15 } }
    (s.eng.port = [] ∧ s.inbox = [] ∧ s.rst = true) ∧
      u.eng.port = [] ∧ u.inbox = [] ∧ u.rst = false ∧ u.seq.state = .reserved15 := by decide

theorem witness_StepFollowsInbox_ticks :
    let s : State := { State.reset with rst := true, inbox := [.tick] }
    let u : State := { State.reset with inbox := [.tick], seq := { Seq.reset with state := .reserved15 } }
    (s.eng.port = [] ∧ s.inbox = .tick :: [] ∧ s.rst = true) ∧
      u.eng.port = [] ∧ u.inbox = .tick :: [] ∧ u.rst = false ∧ u.seq.state = .reserved15 := by decide

theorem witness_ResetEventGivesResetValues : ((true : Bool) = true ∨ ready7.rst = true) ∧ ready7.busy = false ∧
    ((false : Bool) = true ∨ ({ ready7 with rst := true } : State).rst = true) ∧ ready7.rst = false := by decide

theorem ready7_inv (r : Regs) : Inv Config.params { ready7 with regs := r } := by
  refine ⟨?_, ?_, ?_, fun h => absurd h (by simp [ready7, State.reset]), trivial, ?_⟩
  · show InstanceOk ready7
    decide
  · exact ⟨⟨List.Pairwise.nil, by simp [ready7, State.reset]⟩, by simp [Memory.inside, ready7, State.reset]⟩
  · show ScratchFits ready7
    decide
  · intro h; simp [State.busy, ready7, State.reset, Seq.reset] at h

/-- A SEAL that has passed its checks and one that has a byte of output to write. -/
theorem witness_AbortedCommandOutput : Inv Config.params (sealable.start 2) ∧ (sealable.start 2).busy = true ∧
    0 < outputBytes Config.params (sealable.start 2) ∧ Inv Config.params (openable.start 3) ∧
    (openable.start 3).busy = true ∧ 0 < outputBytes Config.params (openable.start 3) := by
  refine ⟨inv_start 2 (ready7_inv _) rfl, rfl, ?_, inv_start 3 (ready7_inv _) rfl, rfl, ?_⟩
  · show 0 < if sealCheck Config.params (sealable.start 2) = .ok then (4 + 4 : Nat) else 0
    rw [if_pos (show sealCheck Config.params (sealable.start 2) = .ok from sealable_ok)]
    decide
  · show 0 < if openCheck Config.params (openable.start 3) = .ok then (5 - 4 : Nat) else 0
    rw [if_pos (show openCheck Config.params (openable.start 3) = .ok from openable_ok)]
    decide

theorem witness_HeldInResetServesNothing : ({ ready7 with rst := true } : State).rst = true ∧
    Instr.sealMsg.wellFormed = true ∧ (∀ a, Instr.sealMsg ≠ .regRead a) ∧ (∀ a, Instr.sealMsg ≠ .bufRead a) :=
  ⟨rfl, rfl, nofun, nofun⟩

/-- RegReadReturnsRegister, BufReadReturnsWord, the Acc statements: a state not held in reset. -/
theorem witness_notHeld : State.reset.rst = false ∧ (sealable.start 2).rst = false := by decide

/-- RegWriteStoresRegister, CommandStartSetsBusy, StatusWriteOneClearsDone, InterruptLineIsLevel,
IllegalOpcodeOnlyReports, FailedChecksChangeNothing: an idle core; RunningCommandLocksHostOut and
RegWriteStoresRegister: a busy one. -/
theorem witness_readyAndBusy : Ready State.reset ∧ Ready ready7 ∧ (sealable.start 2).busy = true := by
  decide

/-- BufReadReturnsWord and BufWriteStoresEnabledLanes: the first and the last word of the buffer, and the first
offset past its end. -/
theorem witness_BufWrite_bounds : BufWf State.reset ∧ Ready State.reset ∧
    wordOffset (0 : Word).toNat + 4 ≤ Config.params.bufBytes ∧
    wordOffset (BitVec.ofNat 32 (Config.params.bufBytes - 4)).toNat + 4 = Config.params.bufBytes ∧
    Config.params.bufBytes < wordOffset (BitVec.ofNat 32 Config.params.bufBytes).toNat + 4 := by
  have h1 := room
  have h2 := room_lt
  have h3 := bufBytes_mod Config.params
  refine ⟨⟨List.Pairwise.nil, by simp [State.reset]⟩, by decide, ?_, ?_, ?_⟩
  · show 0 + 4 ≤ _
    omega
  · rw [BitVec.toNat_ofNat, Nat.mod_eq_of_lt (by omega), wordOffset]; omega
  · rw [BitVec.toNat_ofNat, Nat.mod_eq_of_lt (by omega), wordOffset]; omega

theorem witness_BufWordReadsBackAsWritten : Ready State.reset ∧ BufWf State.reset ∧
    wordOffset (0 : Word).toNat + 4 ≤ Config.params.bufBytes :=
  ⟨witness_BufWrite_bounds.2.1, witness_BufWrite_bounds.1, witness_BufWrite_bounds.2.2.1⟩

theorem witness_StatusWriteOneClearsDone : Ready ready7 ∧ (2 : Word).getLsbD 1 = true ∧
    (0xFFFFFFFD : Word).getLsbD 1 = false := by decide

theorem witness_RegisterReadsBackImplementedBits : Ready State.reset ∧
    (0x00C#12, 0x00001F0F#32) ∈ [(0x00C#12, 0x00001F0F#32), (0x018#12, 0x1#32)] := by decide

/-- AccWriteXorsAndEncrypts, AccPadZeroFlushes, AccSumRespondsWithMac: the first, a middle and the last cursor. -/
theorem witness_cursor : Engine.reset.p = 0 ∧ Engine.reset.p.val ≠ 15 ∧
    ({ Engine.reset with p := 14 } : Engine).p.val ≠ 15 ∧ ({ Engine.reset with p := 15 } : Engine).p.val = 15 ∧
    ({ Engine.reset with p := 1 } : Engine).p ≠ 0 := by decide

theorem witness_PaddingEqualsZeroBytes : ({ Engine.reset with p := 1 } : Engine).p ≠ 0 ∧
    ({ Engine.reset with p := 15 } : Engine).p ≠ 0 := by decide

theorem witness_WholeBlocksNeedNoPadding : Engine.reset.p = 0 ∧ ([] : Bytes).length % 16 = 0 ∧
    (List.replicate 32 1#8).length % 16 = 0 := by decide

theorem witness_CounterBlockLayout :
    (7 ≤ 7 ∧ 7 ≤ 13 ∧ (List.replicate 7 1#8).length = 7 ∧ 2 ^ 64 - 1 < 2 ^ (8 * (15 - 7))) ∧
    7 ≤ 13 ∧ 13 ≤ 13 ∧ (List.replicate 13 1#8).length = 13 ∧ 65535 < 2 ^ (8 * (15 - 13)) := by decide

theorem witness_FirstAuthBlockLayout :
    (7 ≤ 7 ∧ 7 ≤ 13 ∧ 4 ≤ 4 ∧ 4 ≤ 16 ∧ 4 % 2 = 0 ∧ (List.replicate 7 1#8).length = 7 ∧ 0 ≤ 2 ^ (8 * (15 - 7)) - 1) ∧
    7 ≤ 13 ∧ 13 ≤ 13 ∧ 4 ≤ 16 ∧ 16 ≤ 16 ∧ 16 % 2 = 0 ∧ (List.replicate 13 1#8).length = 13 ∧
    65535 ≤ 2 ^ (8 * (15 - 13)) - 1 := by decide

/-- LengthPrefixTiers: the ends of each tier. -/
theorem witness_LengthPrefixTiers : 0 < 2 ^ 64 ∧ (0 < 1 ∧ 1 < 65280) ∧ (0 < 65279 ∧ 65279 < 65280) ∧
    (65280 ≤ 65280 ∧ 65280 ≤ 2 ^ 31 - 1) ∧ (65280 ≤ 2 ^ 31 - 1) ∧ 2 ^ 31 - 1 < 2 ^ 31 ∧
    2 ^ 31 - 1 < 2 ^ 64 - 1 := by decide

theorem witness_CounterNeverWraps : 7 ≤ 13 ∧ 13 ≤ 13 ∧ (List.replicate 13 1#8).length = 13 ∧
    65535 ≤ maxPayload 13 ∧ 0 < blocks 65535 ∧ 4095 < blocks 65535 := by decide

theorem witness_SealThenOpenRecovers :
    7 ≤ 13 ∧ 13 ≤ 13 ∧ 4 ≤ 4 ∧ 4 ≤ 16 ∧ 4 % 2 = 0 ∧ (List.replicate 13 1#8).length = 13 ∧
    0 < ([7] : Bytes).length ∧ ([7] : Bytes).length ≤ maxPayload 13 ∧
    (List.replicate 65535 7#8).length ≤ maxPayload 13 := by
  refine ⟨by decide, by decide, by decide, by decide, by decide, by decide, by decide, by decide, ?_⟩
  rw [List.length_replicate]; decide

/-- Two tags of 4 bytes cannot both be the message's own. -/
theorem witness_WrongTagIsRejected : ∃ tag : Bytes, tag.length = 4 ∧
    tag ≠ ccmTag Config.params 7 4 (List.replicate 7 1#8) [] [9] ∧ (List.replicate 7 1#8).length = 7 ∧
    0 < ([9] : Bytes).length ∧ ([9] : Bytes).length ≤ maxPayload 7 := by
  by_cases h : ([0, 0, 0, 0] : Bytes) = ccmTag Config.params 7 4 (List.replicate 7 1#8) [] [9]
  · exact ⟨[1, 0, 0, 0], rfl, by rw [← h]; decide, by decide, by decide, by decide⟩
  · exact ⟨[0, 0, 0, 0], rfl, h, by decide, by decide, by decide⟩

/-- A configured core with N = 13, T = 4: the payload check can fail. -/
def ready13At (inLen : Word) : State := { ready13 with regs := { ready13.regs with inLen := inLen } }

/-- SealCheckOrder: each clause's conditions, the payload length on both sides of its bound. -/
theorem witness_SealCheckOrder : State.reset.inst.configured = false ∧ ready7.inst.configured = true ∧
    ({ ready7 with regs := { ready7.regs with nonceLen := 8 } } : State).regs.nonceLen.toNat ≠ ready7.inst.n.toNat ∧
    ready7.regs.nonceLen.toNat = ready7.inst.n.toNat ∧
    2 ^ (8 * (15 - (ready13At 0x10000).inst.n.toNat)) - 1 < (ready13At 0x10000).regs.inLen.toNat ∧
    (ready13At 0xFFFF).regs.inLen.toNat ≤ 2 ^ (8 * (15 - (ready13At 0xFFFF).inst.n.toNat)) - 1 ∧
    LeavesBuffer { ready7 with regs := { ready7.regs with inOff := 0xFFFFFFFF, inLen := 1 } } 5 ∧
    (¬LeavesBuffer { ready7 with regs := { ready7.regs with inLen := 4, outOff := 1 } } 8 ∧
      ForbiddenOverlap { ready7 with regs := { ready7.regs with inLen := 4, outOff := 1 } } 8) ∧
    (¬LeavesBuffer sealableInPlace 8 ∧ ¬ForbiddenOverlap sealableInPlace 8) := by
  have h1 := room
  have h2 := room_lt
  refine ⟨by decide, by decide, by decide, by decide, by decide, by decide, .inr (.inl ?_), ⟨?_, by unfold ForbiddenOverlap Meet; decide⟩,
    ?_, by unfold ForbiddenOverlap Meet; decide⟩
  · show _ < (0xFFFFFFFF : Word).toNat + (1 : Word).toNat
    rw [show (0xFFFFFFFF : Word).toNat + (1 : Word).toNat = 2 ^ 32 by decide]; omega
  · show ¬(_ < 0 + 0 ∨ _ < 0 + 4 ∨ _ < 1 + 8)
    omega
  · show ¬(_ < 8 + 3 ∨ _ < 0 + 4 ∨ _ < 0 + 8)
    omega

/-- OpenCheckOrder: each clause's conditions, the input length on both sides of its bounds. -/
theorem witness_OpenCheckOrder : ready13.regs.nonceLen.toNat = ready13.inst.n.toNat ∧
    (ready13At 4).regs.inLen.toNat ≤ ready13.inst.t.toNat ∧ ready13.inst.t.toNat < (ready13At 5).regs.inLen.toNat ∧
    2 ^ (8 * (15 - ready13.inst.n.toNat)) - 1 < (ready13At 0x10004).regs.inLen.toNat - ready13.inst.t.toNat ∧
    (ready13At 0x10003).regs.inLen.toNat - ready13.inst.t.toNat ≤ 2 ^ (8 * (15 - ready13.inst.n.toNat)) - 1 ∧
    LeavesBuffer { ready7 with regs := { ready7.regs with inOff := 0xFFFFFFFF, inLen := 5 } } 1 ∧
    (¬LeavesBuffer { ready7 with regs := { ready7.regs with inLen := 5, outOff := 4 } } 1 ∧
      ForbiddenOverlap { ready7 with regs := { ready7.regs with inLen := 5, outOff := 4 } } 1) ∧
    (¬LeavesBuffer openable 1 ∧ ¬ForbiddenOverlap openable 1) := by
  have h1 := room
  have h2 := room_lt
  refine ⟨by decide, by decide, by decide, by decide, by decide, .inr (.inl ?_),
    ⟨?_, by unfold ForbiddenOverlap Meet; decide⟩, ?_, by unfold ForbiddenOverlap Meet; decide⟩
  · show _ < (0xFFFFFFFF : Word).toNat + (5 : Word).toNat
    rw [show (0xFFFFFFFF : Word).toNat + (5 : Word).toNat = 2 ^ 32 + 4 by decide]; omega
  · show ¬(_ < 0 + 0 ∨ _ < 0 + 5 ∨ _ < 4 + 1)
    omega
  · show ¬(_ < 0 + 0 ∨ _ < 0 + 5 ∨ _ < 8 + 1)
    omega

/-- ConfigureCreatesOrDropsInstance; the code is OK for these registers exactly when CIPHER_BS is 16. -/
theorem witness_ConfigureCreatesOrDropsInstance : Ready ready7 ∧ ready7.eng.port = [] ∧
    (Config.params.cipherBs.toNat = 16 → configCheck Config.params ready7 = .ok) ∧
    configCheck Config.params State.reset ≠ .ok := by
  refine ⟨by decide, rfl, fun h => ?_, ?_⟩
  · unfold configCheck
    rw [if_neg (by rw [h]; decide), if_neg (by decide), if_neg (by decide)]
  · unfold configCheck
    split
    · decide
    · rw [if_pos (by decide)]; decide

theorem witness_IllegalOpcodeOnlyReports : Ready State.reset ∧ Instr.illegal0.wellFormed = true ∧
    formatOf .illegal0 = .cmd ∧ (Instr.illegal8toF 0xF).wellFormed = true ∧
    formatOf (.illegal8toF 0xF) = .cmd ∧ (Instr.illegal4to7 4).wellFormed = true ∧ Instr.illegal0 ≠ .configure ∧
    Instr.illegal0 ≠ .sealMsg ∧ Instr.illegal0 ≠ .openMsg := by decide

theorem witness_FailedChecksChangeNothing : Ready State.reset ∧ sealCheck Config.params State.reset ≠ .ok ∧
    openCheck Config.params State.reset ≠ .ok := by
  refine ⟨by decide, ?_, ?_⟩
  · show ResultCode.notConfigured ≠ .ok
    decide
  · show ResultCode.notConfigured ≠ .ok
    decide

theorem bufWf_ready7 (r : Regs) : BufWf { ready7 with regs := r } := (ready7_inv r).buffer.1

theorem witness_SealComputesCcm : Ready sealable ∧ InstanceOk sealable ∧ BufWf sealable ∧
    sealCheck Config.params sealable = .ok ∧ Ready sealableInPlace ∧ InstanceOk sealableInPlace ∧
    BufWf sealableInPlace ∧ sealCheck Config.params sealableInPlace = .ok :=
  ⟨by decide, by decide, bufWf_ready7 _, sealable_ok, by decide, by decide, bufWf_ready7 _, sealableInPlace_ok⟩

theorem witness_OpenVerifiesOrWipes : Ready openable ∧ InstanceOk openable ∧ BufWf openable ∧
    openCheck Config.params openable = .ok :=
  ⟨by decide, by decide, bufWf_ready7 _, openable_ok⟩

theorem witness_MachineRoundTripInPlace : Ready sealable ∧ InstanceOk sealable ∧ BufWf sealable ∧
    sealCheck Config.params sealable = .ok ∧ 0 < sealable.regs.inLen.toNat :=
  ⟨by decide, by decide, bufWf_ready7 _, sealable_ok, by decide⟩

theorem witness_CommandIgnoredWhileLocked :
    ((sealable.start 2).busy = true ∨ (sealable.start 2).rst = true) ∧
    (State.reset.busy = true ∨ ({ State.reset with rst := true } : State).rst = true) ∧ formatOf .sealMsg = .cmd := by
  decide

theorem witness_EveryCommandCompletes : Ready sealable ∧ BufWf sealable ∧
    (Instr.illegal4to7 7).wellFormed = true ∧ formatOf (.illegal4to7 7) = .cmd :=
  ⟨by decide, bufWf_ready7 _, rfl, rfl⟩

theorem witness_CoreStepCounts : Ready sealableInPlace ∧ InstanceOk sealableInPlace ∧ BufWf sealableInPlace ∧
    sealCheck Config.params sealableInPlace = .ok ∧ openCheck Config.params openable = .ok :=
  ⟨by decide, by decide, bufWf_ready7 _, sealableInPlace_ok, openable_ok⟩

theorem witness_MergedCommandEqualsCoreSteps : Ready sealable ∧ sealable.eng.port = [] ∧ sealable.inbox = [] := by
  decide

/-- Another core and other nonce bytes; no step and all of the steps up to EMIT. -/
theorem witness_StateSequenceDataIndependent :
    let s₂ := { seal24 with regs := { seal24.regs with inLen := 4 } }
    Ready sealable ∧ Ready s₂ ∧ sealable.regs.adLen = s₂.regs.adLen ∧
    sealCheck Config.params sealable = .ok ∧ sealCheck (core eRot) s₂ = .ok ∧ sealable.regs.inLen.toNat = 4 ∧
    s₂.regs.inLen.toNat = 4 ∧ 7 ≤ acceptedSteps sealable.regs.adLen.toNat (blocks 4) - 2 ∧
    openCheck Config.params openable = .ok ∧ openCheck (core eRot) openable = .ok ∧
    openable.regs.inLen.toNat = 1 + openable.tagSize :=
  ⟨by decide, by decide, by decide, sealable_ok, by decide +kernel, by decide, by decide, by decide, openable_ok,
    by decide +kernel, by decide⟩

theorem witness_CipherCallCounts : Ready sealableInPlace ∧ BufWf sealableInPlace ∧ sealableInPlace.eng.port = [] ∧
    sealCheck Config.params sealableInPlace = .ok ∧ Ready openable ∧ BufWf openable ∧ openable.eng.port = [] ∧
    openCheck Config.params openable = .ok :=
  ⟨by decide, bufWf_ready7 _, rfl, sealableInPlace_ok, by decide, bufWf_ready7 _, rfl, openable_ok⟩

/-- Offset 0 lies outside the output region [4, 12). -/
theorem witness_CoreWritesOnlyOutput : Inv Config.params (sealable.start 2) ∧
    ¬((sealable.start 2).regs.outOff.toNat ≤ 0 ∧
      0 < (sealable.start 2).regs.outOff.toNat + outputBytes Config.params (sealable.start 2)) :=
  ⟨inv_start 2 (ready7_inv _) rfl, fun h => absurd h.1 (by decide)⟩

/-- StepKeepsInvariant and StepAlwaysAnswers: a running command takes a step. -/
theorem witness_StepKeepsInvariant : Inv Config.params (sealable.start 2) ∧ ∃ t, step (sealable.start 2) = .next t :=
  ⟨inv_start 2 (ready7_inv _) rfl, _, rfl⟩

/-- A CONFIGURE with CFG = 0 drops the instance. -/
theorem witness_OnlyConfigureAndResetWriteInstance : ∃ t : State,
    step { ready7 with regs := Regs.reset, inbox := [.command 1] } = .next t ∧ t.inst ≠ ready7.inst := by
  refine ⟨runCommand Config.params 1 { ready7 with regs := Regs.reset }, rfl, ?_⟩
  have h : configCheck Config.params { ready7 with regs := Regs.reset } ≠ .ok :=
    witness_ConfigureCreatesOrDropsInstance.2.2.2
  rw [two_step_run (by decide) (by rw [check_configure]), check_configure]
  unfold actDone commandResults
  simp only [State.start_seq, show seqOpOf 1 = SeqOp.configure from rfl, if_neg h]
  show Instance.none ≠ ready7.inst
  decide

/-- A SEAL that fails its checks sets OUT_LEN to 0. -/
theorem witness_OnlySealAndOpenWriteOutLen : ∃ t : State,
    step { State.reset with regs := { Regs.reset with outLen := 5 }, inbox := [.command 2] } = .next t ∧
      t.regs.outLen ≠ 5 := by
  refine ⟨runCommand Config.params 2 { State.reset with regs := { Regs.reset with outLen := 5 } }, rfl, ?_⟩
  have h : sealCheck Config.params { State.reset with regs := { Regs.reset with outLen := 5 } } ≠ .ok :=
    witness_FailedChecksChangeNothing.2.1
  rw [two_step_run (by decide) (by rw [check_seal_fails h]; rfl), check_seal_fails h]
  show (0 : Word) ≠ 5
  decide

theorem witness_HostCannotReachAccumulator : formatOf (.bufWrite 0 1 0xF) = .bus ∧
    ∃ t, exec (.bufWrite 0 1 0xF) State.reset = .next t := ⟨rfl, _, rfl⟩

/-- Another byte 7 of the nonce store, N = 7. -/
theorem witness_NonceTailIgnored : formatOf .sealMsg = .cmd ∧ Instr.sealMsg.wellFormed = true ∧ Ready sealable ∧
    ∃ nb : Block, nb ≠ sealable.regs.nonce ∧
      ∀ k (hk : k < 16), k < sealable.nonceSize → nb[k] = sealable.regs.nonce[k] := by
  refine ⟨rfl, rfl, by decide, zeroBlock.set 7 1, by decide, fun k hk h => ?_⟩
  have h7 : k < 7 := h
  show (zeroBlock.set 7 1)[k] = zeroBlock[k]
  rw [Vector.getElem_set_ne _ _ (by omega)]

/-- The empty form, and one byte that differs from its power-on value. -/
theorem witness_CanonicalMemoryIsUnique : Memory.wf Config.params [] ∧
    Memory.wf Config.params [(0, Config.params.powerOn 0 + 1)] := by
  refine ⟨⟨List.Pairwise.nil, by simp⟩, List.pairwise_singleton _ _, fun e he => ?_⟩
  rw [List.mem_singleton] at he
  subst he
  show Config.params.powerOn 0 + 1 ≠ Config.params.powerOn 0
  generalize Config.params.powerOn 0 = b
  revert b; decide

theorem witness_InterruptLineIsLevel : Ready { ready7 with status := { done := true, err := .ok, lastOp := 1 } } ∧
    (1 : Word).getLsbD 0 = true ∧ (0xFFFFFFFE : Word).getLsbD 0 = false := by decide

end Sys2Proof.Tests
end

section
/-!
PROOFS. The statements of 20_memory: what one step does with what is pending, the host's accesses to the two
windows (the locks, the ignored address bits, a word read back), the canonical buffer, the frame of a core step,
and that a command taken as one transition is what the machine's own steps reach.
-/

namespace Sys2Proof.Machine

variable {c : Params} {s u : State} {i : Instr} {f : Format}

/-! ### What a step does with the next action (logs 3, 5) -/

theorem nextAction_port {w : BitVec 10} {ws : List (BitVec 10)} (h : s.eng.port = w :: ws) :
    nextAction s = (.run (decodeAcc w), { s with eng := { s.eng with port := ws } }) := by
  simp only [nextAction, h]

theorem nextAction_txn {w : BitVec 70} {es : List Event} (hp : s.eng.port = []) (h : s.inbox = .txn w :: es) :
    nextAction s = (.run (decodeBus w), { s with inbox := es }) := by
  simp only [nextAction, hp, h]

theorem nextAction_command {w : Word} {es : List Event} (hp : s.eng.port = []) (h : s.inbox = .command w :: es) :
    nextAction s = (.run (decodeCmd w), { s with inbox := es }) := by
  simp only [nextAction, hp, h]

theorem nextAction_rst {l : Bool} {es : List Event} (hp : s.eng.port = []) (h : s.inbox = .rst l :: es) :
    nextAction s = (.reset l, { s with inbox := es }) := by
  simp only [nextAction, hp, h]

theorem nextAction_tick {es : List Event} (hp : s.eng.port = []) (h : s.inbox = .tick :: es) :
    nextAction s = (.core, { s with inbox := es }) := by
  simp only [nextAction, hp, h]

theorem nextAction_no_event (hp : s.eng.port = []) (h : s.inbox = []) : nextAction s = (.core, s) := by
  simp only [nextAction, hp, h]

theorem step_of_run (h : nextAction s = (.run i, u)) : step s = exec i u := by
  rw [step, h]

theorem step_of_core (h : nextAction s = (.core, u)) : step s = coreEvent Config.params u := by
  rw [step, h]

theorem step_of_reset {l : Bool} (h : nextAction s = (.reset l, u)) :
    step s = .next (resetEvent Config.params l u) := by
  rw [step, h]

/-- While rst = 1 the core takes no step (70_reset R290). -/
theorem coreEvent_held (h : s.rst = true) : coreEvent c s = .next s := if_pos h

/-- The core stops at the state value 15 (log 20). -/
theorem coreEvent_reserved15 (hr : s.rst = false) (h : s.seq.state = .reserved15) :
    coreEvent c s = .fault .sequencerState15 := by
  simp only [coreEvent, hr, Bool.false_eq_true, if_false, h, if_true]

theorem coreEvent_steps (hr : s.rst = false) (h : s.seq.state ≠ .reserved15) :
    coreEvent c s = .next (coreStep c s) := by
  simp only [coreEvent, hr, Bool.false_eq_true, if_false, if_neg h]

/-! ### A placed word -/

/-- The operation a number's lowest bits stand for, as a word of a format (30_encoding R111-R113). -/
def wordOperation (f : Format) (w : Nat) : Instr :=
  match f with
  | .bus => decodeBus (BitVec.ofNat 70 w)
  | .cmd => decodeCmd (BitVec.ofNat 32 w)
  | .acc => decodeAcc (BitVec.ofNat 10 w)

theorem formatOf_wordOperation (f : Format) (w : Nat) : formatOf (wordOperation f w) = f := by
  cases f with
  | bus => exact (decodeBus_wf _).2
  | cmd => exact (decodeCmd_wf _).2
  | acc => exact (decodeAcc_wf _).2

/-- A number's bytes decode to its lowest bits' operation or not at all. -/
theorem decode_eq_wordOperation {w : Nat} (h : decode f (bytesOfNat (formatBytes f) w) = .ok i) :
    i = wordOperation f w := by
  cases f with
  | bus =>
    rw [formatBytes, decode_bus] at h
    split at h <;> cases h
    rfl
  | cmd =>
    rw [formatBytes, decode_cmd] at h
    cases h
    rfl
  | acc =>
    rw [formatBytes, decode_acc] at h
    split at h <;> cases h
    rfl

/-- The next action of a state with a word placed is the word's operation, with the word taken away. -/
theorem nextAction_placeWord (f : Format) (w : Nat) (s : State) :
    nextAction (placeWord f w s) =
      (.run (wordOperation f w), { s with eng := { s.eng with port := if f = .acc then s.eng.port else [] } }) := by
  cases f <;> rfl

theorem step_placeWord {w : Nat} (h : decode f (bytesOfNat (formatBytes f) w) = .ok i) (s : State) :
    step (placeWord f w s) =
      exec i { s with eng := { s.eng with port := if f = .acc then s.eng.port else [] } } := by
  rw [decode_eq_wordOperation h]
  exact step_of_run (nextAction_placeWord f w s)

theorem formatOf_of_decode {w : Nat} (h : decode f (bytesOfNat (formatBytes f) w) = .ok i) : formatOf i = f := by
  rw [decode_eq_wordOperation h, formatOf_wordOperation]

theorem decode_of_decodeTableWord {nbits w : Nat} (h : decodeTableWord nbits w = some i) :
    decode (tableFormat nbits w) (bytesOfNat (formatBytes (tableFormat nbits w)) w) = .ok i := by
  unfold decodeTableWord at h
  split at h
  · split at h <;> cases h
    assumption
  · cases h

/-! ### The host's two windows -/

theorem locked_of_busy (h : s.busy = true) : s.locked = true := by
  rw [State.locked, h, Bool.or_true]

theorem unlocked_of_ready (h : Ready s) : s.locked = false := by
  rw [State.locked, h.1, h.2, Bool.or_false]

/-- REG_READ is served whether or not a command runs (20_memory R90). -/
theorem exec_regRead_served (a : BitVec 12) (h : s.rst = false) :
    exec (.regRead a) s = .next { s with rdata := regRead Config.params s (regAt a) } := by
  simp only [exec, execRegRead, doRegRead, h, Bool.false_eq_true, if_false]

theorem exec_regWrite_locked (a : BitVec 12) (d : Word) (h : s.locked = true) :
    exec (.regWrite a d) s = .next s := by
  simp only [exec, execRegWrite, doRegWrite, h, if_true]

theorem exec_regWrite_unlocked (a : BitVec 12) (d : Word) (h : s.locked = false) :
    exec (.regWrite a d) s = .next (regWrite s d (regAt a)) := by
  simp only [exec, execRegWrite, doRegWrite, h, Bool.false_eq_true, if_false]

theorem exec_bufRead_locked (a : Word) (h : s.locked = true) : exec (.bufRead a) s = .next { s with rdata := 0 } := by
  simp only [exec, execBufRead, doBufRead, h, if_true]

theorem exec_bufRead_inside {a : Word} (h : s.locked = false) (ha : bufWordOffset a + 4 ≤ Config.params.bufBytes) :
    exec (.bufRead a) s = .next { s with rdata := Memory.readWord Config.params s.buf (bufWordOffset a) } := by
  simp only [exec, execBufRead, doBufRead, h, bufWordInside, ha, decide_true, Bool.false_eq_true, if_false, if_true]

theorem exec_bufWrite_locked (a d : Word) (be : BitVec 4) (h : s.locked = true) :
    exec (.bufWrite a d be) s = .next s := by
  simp only [exec, execBufWrite, doBufWrite, h, Bool.true_or, if_true]

theorem exec_bufWrite_inside {a : Word} (d : Word) (be : BitVec 4) (h : s.locked = false)
    (ha : bufWordOffset a + 4 ≤ Config.params.bufBytes) :
    exec (.bufWrite a d be) s =
      .next { s with buf := Memory.writeWord Config.params s.buf (bufWordOffset a) d be } := by
  simp only [exec, execBufWrite, doBufWrite, h, bufWordInside, ha, decide_true, Bool.not_true, Bool.or_self,
    Bool.false_eq_true, if_false]

/-! ### Bits 1:0 of an offset (20_memory R82) -/

theorem regAt_wordOffset (a : BitVec 12) : regAt (BitVec.ofNat 12 (wordOffset a.toNat)) = regAt a := by
  have ha := a.isLt
  have h : (BitVec.ofNat 12 (wordOffset a.toNat) &&& 0xFFC#12).toNat = (a &&& 0xFFC#12).toNat := by
    rw [regWordOffset_toNat, regWordOffset_toNat, BitVec.toNat_ofNat, wordOffset]
    omega
  rw [regAt, regAt, h]

theorem bufWordOffset_wordOffset (a : Word) :
    bufWordOffset (BitVec.ofNat 32 (wordOffset a.toNat)) = bufWordOffset a := by
  have ha := a.isLt
  rw [bufWordOffset_eq, bufWordOffset_eq, BitVec.toNat_ofNat, wordOffset]
  omega

/-! ### What a register reads as, in plain arithmetic (42 R190) -/

theorem flagWord_toNat (b : Bool) : (flagWord b).toNat = bitNat b := by
  cases b <;> rfl

/-- STATUS's fields lie apart (10_state R38). -/
theorem statusFields_toNat (op err : BitVec 4) (configured done busy : Bool) :
    ((op.setWidth 32 <<< 8) ||| (err.setWidth 32 <<< 4) ||| (flagWord configured <<< 2) ||| (flagWord done <<< 1) |||
        flagWord busy).toNat =
      op.toNat * 256 + err.toNat * 16 + bitNat configured * 4 + bitNat done * 2 + bitNat busy := by
  revert op err configured done busy
  decide +kernel

/-- INFO's fields lie apart (10_state R34). -/
theorem infoWord_toNat (b : BitVec 8) :
    ((b.setWidth 32 <<< 16) ||| 0x1010 : Word).toNat = b.toNat * 65536 + 16 * 256 + 16 := by
  revert b
  decide +kernel

theorem bufBytes_mod (c : Params) : c.bufBytes % 2 ^ 32 = c.bufBytes := by
  have := bufBytes_le c
  omega

/-- NONCE<k> holds bytes 4k to 4k + 3 of the nonce store (10_state R41). -/
theorem nonceWord_toNat (s : State) (k : Fin 4) :
    (regRead c s (.nonceWord k)).toNat = regValue s (0x020 + 4 * k.val) := by
  simp only [regRead, wordOfLanes_toNat]
  fin_cases k <;> simp [regValue]

/-- A reserved word reads as 0 (10_state R49). -/
theorem regValue_of_regAt_reserved {a : BitVec 12} (h : regAt a = .reserved) (s : State) :
    regValue s (wordOffset a.toNat) = 0 := by
  have h4 : wordOffset a.toNat % 4 = 0 := Nat.mul_mod_left _ _
  unfold regAt at h
  rw [regWordOffset_toNat a, ← wordOffset] at h
  generalize wordOffset a.toNat = w at h h4
  split at h <;> cases h
  simp only [imp_false] at *
  simp only [regValue]
  split_ifs <;> omega

/-- A REG read returns the value of the register at the word offset. -/
theorem regRead_toNat (s : State) (a : BitVec 12) :
    (regRead Config.params s (regAt a)).toNat = regValue s (wordOffset a.toNat) := by
  have reserved := regValue_of_regAt_reserved (a := a) (s := s)
  unfold regAt at reserved ⊢
  rw [regWordOffset_toNat a, ← wordOffset] at reserved ⊢
  generalize wordOffset a.toNat = w at reserved ⊢
  split at *
  case h_2 => -- INFO
    exact infoWord_toNat _
  case h_3 => -- BUF_SIZE
    exact (BitVec.toNat_ofNat _ _).trans (bufBytes_mod _)
  case h_4 => -- CFG
    exact cfgWord_toNat _ _
  case h_6 => -- STATUS
    exact statusFields_toNat _ _ _ _ _
  case h_7 => -- IRQ_EN
    exact flagWord_toNat _
  case h_8 => -- ACTIVE_CFG
    exact cfgWord_toNat _ _
  case h_9 => -- NONCE0
    exact nonceWord_toNat s 0
  case h_10 => -- NONCE1
    exact nonceWord_toNat s 1
  case h_11 => -- NONCE2
    exact nonceWord_toNat s 2
  case h_12 => -- NONCE3
    exact nonceWord_toNat s 3
  case h_13 => -- NONCE_LEN
    exact BitVec.toNat_setWidth_of_le (by decide)
  case h_20 => -- reserved
    exact (reserved rfl).symm
  -- ID, CMD and the registers that store a whole word
  all_goals rfl

/-! ### A word written whole (20_memory R84, R87) -/

theorem wordOfLanes_of_lanes (d : Word) : wordOfLanes (lane d 0) (lane d 1) (lane d 2) (lane d 3) = d := by
  apply BitVec.eq_of_toNat_eq
  have := d.isLt
  simp only [wordOfLanes_toNat, lane_eq, BitVec.toNat_ofNat]
  omega

theorem Memory.readWord_writeWord {m : Memory} (h : Memory.wf c m) (w : Nat) (d : Word) :
    Memory.readWord c (Memory.writeWord c m w d 0xF) w = d := by
  have lanes (j : Nat) (hj : j < 4) : Memory.read c (Memory.writeWord c m w d 0xF) (w + j) = lane d j := by
    have enabled : (0xF#4).getLsbD j = true := by
      interval_cases j <;> rfl
    rw [Memory.read_writeWord h, Nat.add_sub_cancel_left, if_pos ⟨by omega, by omega, enabled⟩]
  rw [Memory.readWord, lanes 1 (by decide), lanes 2 (by decide), lanes 3 (by decide)]
  rw [show Memory.read c _ w = lane d 0 from lanes 0 (by decide), wordOfLanes_of_lanes]

/-! ### The canonical buffer (log 6) -/

/-- The first listed offset does not read as at power-on. -/
theorem Memory.read_head_ne {m : Memory} {e : Host.Cell} (h : Memory.wf c (e :: m)) :
    Memory.read c (e :: m) e.1 ≠ c.powerOn e.1 := by
  obtain ⟨-, hne, -⟩ := Memory.wf_cons.1 h
  rwa [Memory.read_cons, if_pos rfl]

/-- Below the first listed offset every byte reads as at power-on. -/
theorem Memory.read_below_head {m : Memory} {e : Host.Cell} {x : Nat} (h : Memory.wf c (e :: m)) (hx : x < e.1) :
    Memory.read c (e :: m) x = c.powerOn x := by
  obtain ⟨hlt, -, -⟩ := Memory.wf_cons.1 h
  exact Memory.read_of_lt_all (List.forall_mem_cons.2 ⟨hx, fun g hg => hx.trans (hlt g hg)⟩)

/-- A buffer that reads like another lists nothing before the other's first offset. -/
theorem Memory.head_le {m m' : Memory} {e f : Host.Cell} (h : Memory.wf c (e :: m)) (h' : Memory.wf c (f :: m'))
    (hr : ∀ a, Memory.read c (e :: m) a = Memory.read c (f :: m') a) : f.1 ≤ e.1 := by
  by_contra hlt
  exact Memory.read_head_ne h ((hr e.1).trans (Memory.read_below_head h' (by omega)))

/-- Buffers that read the same and begin with the same offset begin with the same entry and go on reading the same. -/
theorem Memory.read_tail_eq {m m' : Memory} {e f : Host.Cell} (h : Memory.wf c (e :: m)) (h' : Memory.wf c (f :: m'))
    (hr : ∀ a, Memory.read c (e :: m) a = Memory.read c (f :: m') a) (hef : e.1 = f.1) :
    e = f ∧ ∀ a, Memory.read c m a = Memory.read c m' a := by
  have hv := hr e.1
  rw [Memory.read_cons, Memory.read_cons, if_pos rfl, if_pos hef] at hv
  refine ⟨Prod.ext hef hv, fun a => ?_⟩
  obtain ⟨hlt, -, -⟩ := Memory.wf_cons.1 h
  obtain ⟨hlt', -, -⟩ := Memory.wf_cons.1 h'
  by_cases ha : a = e.1
  · subst ha
    rw [Memory.read_of_lt_all hlt, Memory.read_of_lt_all (hef ▸ hlt')]
  · have := hr a
    rwa [Memory.read_cons, Memory.read_cons, if_neg ha, if_neg (hef ▸ ha)] at this

theorem Memory.eq_of_read_eq {m : Memory} : ∀ {m' : Memory}, Memory.wf c m → Memory.wf c m' →
    (∀ a, Memory.read c m a = Memory.read c m' a) → m = m' := by
  induction m with
  | nil =>
    intro m' _ h' hr
    cases m' with
    | nil => rfl
    | cons f m' => exact absurd (hr f.1).symm (Memory.read_head_ne h')
  | cons e m ih =>
    intro m' h h' hr
    cases m' with
    | nil => exact absurd (hr e.1) (Memory.read_head_ne h)
    | cons f m' =>
      have hef := le_antisymm (Memory.head_le h' h fun a => (hr a).symm) (Memory.head_le h h' hr)
      obtain ⟨rfl, htail⟩ := Memory.read_tail_eq h h' hr hef
      obtain ⟨-, -, hm⟩ := Memory.wf_cons.1 h
      obtain ⟨-, -, hm'⟩ := Memory.wf_cons.1 h'
      rw [ih hm hm' htail]

/-! ### A command as the machine's own steps (20_memory R97, log 4) -/

/-- The next thing that happens is a core step, and so it stays (`CoreFree.coreStep`): the core is not held in
reset, no port word and no event is pending, and the state is none that stops. -/
structure CoreFree (s : State) : Prop where
  rst : s.rst = false
  port : s.eng.port = []
  inbox : s.inbox = []
  state : s.seq.state ≠ .reserved15

theorem CoreFree.step (h : CoreFree s) : step s = .next (coreStep Config.params s) := by
  rw [step_of_core (nextAction_no_event h.port h.inbox), coreEvent_steps h.rst h.state]

theorem CoreFree.coreStep (h : CoreFree s) : CoreFree (coreStep c s) := by
  have side := coreStep_sameHostSide c s
  exact ⟨side.rst.trans h.rst, coreStep_port (.inl h.port), side.inbox.trans h.inbox, coreStep_not_reserved h.state⟩

theorem run_succ_of_step {M : Host.Core} {x y : M.State} (h : M.step x = .next y) (n : Nat) :
    M.run (n + 1) x = M.run n y := by
  rw [Host.Core.run, h]

/-- With no event intervening, the machine's own steps reach what a run of core steps reaches. -/
theorem CoreFree.run (fuel : Nat) :
    ∀ {s : State}, CoreFree s → ∃ n, Sys2Proof.core.run n s = .next (runCore Config.params fuel s) := by
  induction fuel with
  | zero => exact fun _ => ⟨0, rfl⟩
  | succ fuel ih =>
    intro s h
    by_cases hidle : s.seq.state = .idle
    · exact ⟨0, by rw [runCore, if_pos hidle]; rfl⟩
    · obtain ⟨n, hn⟩ := ih (h.coreStep (c := Config.params))
      refine ⟨n + 1, (run_succ_of_step h.step n).trans ?_⟩
      rw [runCore, if_neg hidle]
      exact hn

/-- The start of a command on an otherwise undisturbed core (42 R194). -/
theorem coreFree_start (op : BitVec 4) (hr : s.rst = false) (hp : s.eng.port = []) (hi : s.inbox = []) :
    CoreFree (s.start op) :=
  ⟨hr, hp, hi, by simp⟩

/-- A command word runs the command of its opcode field (30_encoding R112). -/
theorem exec_decodeCmd (w : Word) (s : State) :
    exec (decodeCmd w) s = .next (runCommand Config.params (w.extractLsb' 0 4) s) := by
  simp only [decodeCmd]
  split_ifs with h1 h2 h3 h0 h4
  · rw [h1]; rfl
  · rw [h2]; rfl
  · rw [h3]; rfl
  · rw [h0]; rfl
  · rfl
  · rfl

/-! ### The statements -/

/-- Settles O15: a running command locks the buffer and the registers, and a REG read is served all the same. -/
theorem runningCommandLocksHostOut : Obligations.RunningCommandLocksHostOut := by
  intro s hbusy
  have hl := locked_of_busy hbusy
  exact ⟨fun a => exec_bufRead_locked a hl, fun a d be => exec_bufWrite_locked a d be hl,
    fun a d => exec_regWrite_locked a d hl, fun hr a => ⟨_, exec_regRead_served a hr, regRead_toNat s a⟩⟩

/-- Settles O18: the four lanes written are the four lanes read, and together they are the word. -/
theorem bufWordReadsBackAsWritten : Obligations.BufWordReadsBackAsWritten := by
  intro s a d hready hwf ha
  have hl := unlocked_of_ready hready
  have hin : bufWordOffset a + 4 ≤ Config.params.bufBytes := by
    rwa [bufWordOffset_eq]
  have hread := exec_bufRead_inside
    (s := { s with buf := Memory.writeWord Config.params s.buf (bufWordOffset a) d 0xF }) hl hin
  rw [Memory.readWord_writeWord hwf] at hread
  exact ⟨_, exec_bufWrite_inside d 0xF hl hin, hread⟩

/-- Settles O19: a transaction sees its offset only through the register or the word offset it names. -/
theorem lowAddressBitsIgnored : Obligations.LowAddressBitsIgnored := by
  intro s
  refine ⟨fun a => ?_, fun a d => ?_, fun a => ?_, fun a d be => ?_⟩
  · simp only [exec, execRegRead, doRegRead, regAt_wordOffset]
  · simp only [exec, execRegWrite, doRegWrite, regAt_wordOffset]
  · simp only [exec, execBufRead, doBufRead, bufWordOffset_wordOffset]
  · simp only [exec, execBufWrite, doBufWrite, bufWordOffset_wordOffset]

/-- Settles O48: the write starts the command of the word's opcode, and from there the machine's own steps reach
what its run reaches. -/
theorem mergedCommandEqualsCoreSteps : Obligations.MergedCommandEqualsCoreSteps := by
  intro s w hready hport hinbox
  have hl := unlocked_of_ready hready
  obtain ⟨n, hn⟩ := (coreFree_start (w.extractLsb' 0 4) hready.1 hport hinbox).run (commandFuel s)
  refine ⟨_, n, _, exec_regWrite_unlocked 0x010 w hl, hn, ?_⟩
  rw [exec_decodeCmd, runCommand, if_neg (by simp [hl])]

/-- Settles O51: a core step writes nothing, or bytes of the OUT region of an accepted command (`coreStep_buf`). -/
theorem coreWritesOnlyOutput : Obligations.CoreWritesOnlyOutput := by
  intro s hi a ha
  rw [State.byte, State.byte]
  obtain h | ⟨-, off, bs, h, hlo, hhi⟩ := coreStep_buf hi.sequencer
  · rw [h]
  · rw [h, Memory.read_writeBytes hi.buffer.1, if_neg (by omega)]

/-- Settles O59: by induction on the lists, the first entries first. -/
theorem canonicalMemoryIsUnique : Obligations.CanonicalMemoryIsUnique :=
  fun _ _ => Memory.eq_of_read_eq

/-- Settles O7: what decodes is the word's operation, and it is the next action of the state with the word placed. -/
theorem stepRunsPlacedWord : Obligations.StepRunsPlacedWord := by
  refine ⟨fun f w i s h => step_placeWord h s, fun nbits w i s h => ?_⟩
  have hd := decode_of_decodeTableWord h
  rw [formatOf_of_decode hd]
  exact step_placeWord hd s

/-- Settles O8: the next action in each case, and what the core's event does with it. -/
theorem stepFollowsInbox : Obligations.StepFollowsInbox := by
  intro s
  refine ⟨fun w ws h => step_of_run (nextAction_port h), fun hp => ?_⟩
  have tick {es : List Event} (h : s.inbox = .tick :: es) := step_of_core (nextAction_tick hp h)
  have free (h : s.inbox = []) := step_of_core (nextAction_no_event hp h)
  exact ⟨fun w es h => step_of_run (nextAction_txn hp h), fun w es h => step_of_run (nextAction_command hp h),
    fun l es h => step_of_reset (nextAction_rst hp h),
    fun es h hr hs => (tick h).trans (coreEvent_steps hr hs), fun es h hr => (tick h).trans (coreEvent_held hr),
    fun es h hr hs => (tick h).trans (coreEvent_reserved15 hr hs),
    fun h hr hs => (free h).trans (coreEvent_steps hr hs), fun h hr => (free h).trans (coreEvent_held hr),
    fun h hr hs => (free h).trans (coreEvent_reserved15 hr hs)⟩

end Sys2Proof.Machine
end

section
/-!
PROOFS. The statements of 30_encoding: the encoder and the decoder agree, a word belongs to the row of the
operation decoded from it, and which bits of a command word and of a port word the decoder reads.
-/

namespace Sys2Proof.Machine

variable {f : Format} {i : Instr}

/-! ### Words and their fields -/

/-- The kind of a bus word and the ACC_OP of a port word are one of four. -/
theorem two_bit_cases (k : BitVec 2) : k = 0 ∨ k = 1 ∨ k = 2 ∨ k = 3 := by
  revert k; decide

/-- A bus word is made of its fields (30_encoding R111, log 1). -/
theorem busWord_extract (w : BitVec 70) :
    busWord (w.extractLsb' 38 32) (w.extractLsb' 34 4) (w.extractLsb' 2 32) (w.extractLsb' 0 2) = w := by
  rw [busWord, BitVec.extractLsb'_append_extractLsb'_eq_extractLsb' (show 38 = 34 + 4 from rfl),
    BitVec.extractLsb'_append_extractLsb'_eq_extractLsb' (show 34 = 2 + 32 from rfl),
    BitVec.extractLsb'_append_extractLsb'_eq_extractLsb' (show 2 = 0 + 2 from rfl)]
  exact BitVec.extractLsb'_eq_self

/-- A port word is made of its fields (30_encoding R113). -/
theorem accWord_extract (w : BitVec 10) : accWord (w.extractLsb' 2 8) (w.extractLsb' 0 2) = w := by
  rw [accWord, BitVec.extractLsb'_append_extractLsb'_eq_extractLsb' (show 2 = 0 + 2 from rfl)]
  exact BitVec.extractLsb'_eq_self

theorem extract_opcode_toNat (w : Word) : (w.extractLsb' 0 4).toNat = w.toNat % 16 := by
  rw [BitVec.extractLsb'_toNat, Nat.shiftRight_zero]

theorem extract_accOp_toNat (w : BitVec 10) : (w.extractLsb' 0 2).toNat = w.toNat % 4 := by
  rw [BitVec.extractLsb'_toNat, Nat.shiftRight_zero]

/-- The low four bits of a command word are its opcode (30_encoding R112). -/
theorem ofNat_toNat_opcode (w : Word) : BitVec.ofNat 4 w.toNat = w.extractLsb' 0 4 := by
  apply BitVec.eq_of_toNat_eq
  rw [extract_opcode_toNat, BitVec.toNat_ofNat]

/-- ACC_DATA is what stands above ACC_OP (30_encoding R113). -/
theorem ofNat_toNat_accData (w : BitVec 10) : BitVec.ofNat 8 (w.toNat / 4) = w.extractLsb' 2 8 := by
  apply BitVec.eq_of_toNat_eq
  rw [BitVec.extractLsb'_toNat, BitVec.toNat_ofNat, Nat.shiftRight_eq_div_pow]

/-! ### The decoder on one word -/

theorem wordOperation_wf (f : Format) (w : Nat) : (wordOperation f w).wellFormed = true := by
  cases f with
  | bus => exact (decodeBus_wf _).1
  | cmd => exact (decodeCmd_wf _).1
  | acc => exact (decodeAcc_wf _).1

/-- What the decoder gives is the operation of the number that the bytes hold. -/
theorem eq_wordOperation_of_decode {bs : Bytes} (h : decode f bs = .ok i) : i = wordOperation f (natOfBytes bs) := by
  cases f <;>
    (simp only [decode] at h
     split_ifs at h
     exact (Except.ok.inj h).symm)

/-- The bytes of a number that fits the format decode to its operation. -/
theorem decode_bytesOfNat {w : Nat} (h : w < 2 ^ formatBits f) :
    decode f (bytesOfNat (formatBytes f) w) = .ok (wordOperation f w) := by
  cases f with
  | bus => exact (decode_bus w).trans (if_pos ((Nat.mod_le _ _).trans_lt h))
  | cmd => exact decode_cmd w
  | acc => exact (decode_acc w).trans (if_pos ((Nat.mod_le _ _).trans_lt h))

/-! ### The encoder, then the decoder -/

/-- `EncodingRow` of every operation. -/
theorem encodingRow (i : Instr) : Laws.EncodingRow.Statement i := by
  cases i with
  | regRead a => exact Laws.EncodingRow.regRead a
  | regWrite a d => exact Laws.EncodingRow.regWrite a d
  | bufRead a => exact Laws.EncodingRow.bufRead a
  | bufWrite a d be => exact Laws.EncodingRow.bufWrite a d be
  | configure => exact Laws.EncodingRow.configure
  | sealMsg => exact Laws.EncodingRow.sealMsg
  | openMsg => exact Laws.EncodingRow.openMsg
  | illegal0 => exact Laws.EncodingRow.illegal0
  | illegal4to7 op => exact Laws.EncodingRow.illegal4to7 op
  | illegal8toF op => exact Laws.EncodingRow.illegal8toF op
  | accReset => exact Laws.EncodingRow.accReset
  | accWrite b => exact Laws.EncodingRow.accWrite b
  | accPadZero => exact Laws.EncodingRow.accPadZero
  | accSum => exact Laws.EncodingRow.accSum

/-- The BUS decoder on a word given by its fields. -/
theorem decodeBus_busWord (d : Word) (be : BitVec 4) (a : Word) (k : BitVec 2) :
    decodeBus (busWord d be a k) =
      if k = 0#2 then .regRead (a.setWidth 12) else if k = 1#2 then .regWrite (a.setWidth 12) d
      else if k = 2#2 then .bufRead a else .bufWrite a d be := by
  obtain ⟨hk, haddr, hbe, hdata, hreg⟩ := busWord_fields d be a k
  rw [decodeBus, hk, haddr, hbe, hdata, hreg]

/-- The operation of an encoded word is the operation encoded. -/
theorem wordOperation_encodeWord (h : i.wellFormed = true) : wordOperation (formatOf i) (encodeWord i) = i := by
  cases i with
  | regRead _ | regWrite _ _ | bufRead _ | bufWrite _ _ _ =>
    simp [wordOperation, formatOf, encodeWord, decodeBus_busWord]
  | illegal4to7 op => revert op; decide
  | illegal8toF op => revert op; decide
  | accWrite b => simp [wordOperation, formatOf, encodeWord, decodeAcc]
  | configure | sealMsg | openMsg | illegal0 | accReset | accPadZero | accSum => decide

/-! ### The row of a word -/

theorem rowsMatching_decodeBus (w : BitVec 70) : rowsMatching .bus w.toNat = [mnemonicOf (decodeBus w)] := by
  rw [← busWord_extract w, rowsMatching_busWord, decodeBus_busWord]
  obtain h | h | h | h := two_bit_cases (w.extractLsb' 0 2) <;> rw [h] <;> rfl

theorem rowsMatching_decodeCmd (w : Word) : rowsMatching .cmd w.toNat = [mnemonicOf (decodeCmd w)] := by
  rw [rowsMatching_low, ← extract_opcode_toNat, decodeCmd]
  generalize w.extractLsb' 0 4 = op
  revert op; decide

theorem rowsMatching_decodeAcc (w : BitVec 10) : rowsMatching .acc w.toNat = [mnemonicOf (decodeAcc w)] := by
  rw [← accWord_extract w, rowsMatching_accWord, decodeAcc, accWord_op]
  obtain h | h | h | h := two_bit_cases (w.extractLsb' 0 2) <;> rw [h] <;> rfl

/-! ### The obligations -/

/-- Settles O1: an encoded word fits its format, so its bytes decode to its operation, the one encoded. -/
theorem decodeInvertsEncode : Obligations.DecodeInvertsEncode := by
  intro i h
  obtain ⟨hfits, -⟩ := encodingRow i h
  rw [encode, decode_bytesOfNat hfits, wordOperation_encodeWord h]

/-- Settles O2: the decoder gives the operation of a word, and that is well formed and of the word's format. -/
theorem decodedOperationIsWellFormed : Obligations.DecodedOperationIsWellFormed := by
  intro f bs i h
  rw [eq_wordOperation_of_decode h]
  exact ⟨wordOperation_wf f _, formatOf_wordOperation f _⟩

/-- Settles O3, format by format: row and operation are both read from the kind, the opcode or ACC_OP. -/
theorem everyWordMatchesOneOpcodeRow : Obligations.EveryWordMatchesOneOpcodeRow :=
  ⟨rowsMatching_decodeBus, rowsMatching_decodeCmd, rowsMatching_decodeAcc⟩

/-- Settles O4: with the opcode named, the statement is about its 16 values. -/
theorem commandWordFields : Obligations.CommandWordFields := by
  intro w
  rw [ofNat_toNat_opcode, ← extract_opcode_toNat, decodeCmd]
  generalize w.extractLsb' 0 4 = op
  revert op; decide

/-- Settles O5: with the two fields named, by the four values of ACC_OP. -/
theorem accumulatorWordFields : Obligations.AccumulatorWordFields := by
  intro w
  rw [ofNat_toNat_accData, ← extract_accOp_toNat, decodeAcc]
  obtain h | h | h | h := two_bit_cases (w.extractLsb' 0 2) <;> rw [h] <;> rfl

/-- Settles O6: the decoder computes on each of the words. -/
theorem sampleWordsDecode : Obligations.SampleWordsDecode := by
  unfold Obligations.SampleWordsDecode
  decide

end Sys2Proof.Machine
end

section
/-!
PROOFS. The statements of 40_accumulator: what each port command does to the accumulator, the cursor and the calls,
the CBC-MAC chain that a padded string leaves (40 R149), and that no host transaction reaches the accumulator.
-/

namespace Sys2Proof.Machine

variable {c : Params} {s : State} {e : Engine} {i : Instr} {b : Byte}

/-! ### The port commands, case by case (40 R141-R144) -/

/-- ci with a byte XORed in at the cursor (40 R141). -/
def Engine.xorByte (e : Engine) (b : Byte) : Block := e.ci.set e.p (e.ci[e.p] ^^^ b)

theorem Engine.xorByte_getElem (e : Engine) (b : Byte) (k : Nat) (hk : k < 16) :
    (e.xorByte b)[k] = if k = e.p.val then e.ci[k] ^^^ b else e.ci[k] := by
  rw [Engine.xorByte, Vector.getElem_set]
  by_cases h : e.p.val = k
  · subst h
    simp
  · rw [if_neg h, if_neg (Ne.symm h)]

theorem accWrite_of_last (h : e.p = 15) :
    accWrite c b e = { e with ci := c.E (e.xorByte b), p := 0, calls := e.calls ++ [e.xorByte b] } := if_pos h

theorem accWrite_of_not_last (h : e.p ≠ 15) : accWrite c b e = { e with ci := e.xorByte b, p := e.p + 1 } := if_neg h

theorem accPadZero_of_empty (h : e.p = 0) : accPadZero c e = e := if_pos h

theorem accPadZero_of_pending (h : e.p ≠ 0) :
    accPadZero c e = { e with ci := c.E e.ci, p := 0, calls := e.calls ++ [e.ci] } := if_neg h

theorem accSum_of_empty (h : e.p = 0) : accSum c e = { e with resp := e.ci } := by
  rw [accSum, accPadZero_of_empty h]

theorem accSum_of_pending (h : e.p ≠ 0) :
    accSum c e = { e with ci := c.E e.ci, p := 0, resp := c.E e.ci, calls := e.calls ++ [e.ci] } := by
  rw [accSum, accPadZero_of_pending h]

/-- Out of reset an accumulator operation is its function of the accumulator (70_reset R290). -/
theorem onEngine_of_running (f : Engine → Engine) (h : s.rst = false) : onEngine f s = { s with eng := f s.eng } := by
  rw [onEngine, h, if_neg Bool.false_ne_true]

theorem exec_accReset_running (h : s.rst = false) :
    exec .accReset s = .next { s with eng := accReset s.eng } :=
  congrArg Host.Outcome.next (onEngine_of_running _ h)

theorem exec_accWrite_running (b : Byte) (h : s.rst = false) :
    exec (.accWrite b) s = .next { s with eng := accWrite Config.params b s.eng } :=
  congrArg Host.Outcome.next (onEngine_of_running _ h)

theorem exec_accPadZero_running (h : s.rst = false) :
    exec .accPadZero s = .next { s with eng := accPadZero Config.params s.eng } :=
  congrArg Host.Outcome.next (onEngine_of_running _ h)

theorem exec_accSum_running (h : s.rst = false) :
    exec .accSum s = .next { s with eng := accSum Config.params s.eng } :=
  congrArg Host.Outcome.next (onEngine_of_running _ h)

/-! ### Padding as zero bytes (40 R142) -/

/-- Writing the zero bytes still missing from a pending block is padding it: all but the last only move the cursor. -/
theorem accWriteAll_zeros (n : Nat) :
    ∀ e : Engine, e.p ≠ 0 → e.p.val + n = 16 → accWriteAll c (List.replicate n 0) e = accPadZero c e := by
  induction n with
  | zero => intro e _ hn; omega
  | succ n ih =>
    intro e hp hn
    rw [List.replicate_succ, accWriteAll_cons]
    by_cases hlast : e.p = 15
    · obtain rfl : n = 0 := by
        have : e.p.val = 15 := congrArg Fin.val hlast
        omega
      rw [accWrite_zero_15 hlast, accPadZero_of_pending hp]
      rfl
    · have hlt : e.p.val < 15 := by omega
      have hnext : (e.p + 1).val = e.p.val + 1 := by
        rw [Fin.val_add]
        exact Nat.mod_eq_of_lt (by omega)
      have hne : e.p + 1 ≠ 0 := fun h0 => by simp [h0] at hnext
      rw [accWrite_zero_lt hlast, ih _ hne (by simp only [hnext]; omega), accPadZero_of_pending hne,
        accPadZero_of_pending hp]

/-! ### The CBC-MAC chain (40 R149) -/

@[simp] theorem cbcChain_nil (y : Block) : cbcChain c y [] = y := rfl

theorem macBlock_succ (bs : Bytes) (j : Nat) : macBlock bs (j + 1) = macBlock (bs.drop 16) j := by
  simp only [macBlock, List.getD_eq_getElem?_getD, List.getElem?_drop, Nat.mul_succ, Nat.add_comm 16, Nat.add_right_comm]

theorem blockOf_take (bs : Bytes) : blockOf (bs.take 16) = macBlock bs 0 := by
  ext1 k hk
  simp [blockOf_getElem, macBlock, List.getElem?_take_of_lt hk]

/-- The chain over a string that is not empty goes on from its first block. -/
theorem cbcChain_step {bs : Bytes} (y : Block) (h : 0 < bs.length) :
    cbcChain c y bs = cbcChain c (c.E (Vector.zipWith (· ^^^ ·) y (macBlock bs 0))) (bs.drop 16) := by
  have hblocks : blocks bs.length = blocks (bs.drop 16).length + 1 := by
    simp only [blocks, List.length_drop]
    omega
  simp only [cbcChain, hblocks, List.range_succ_eq_map, List.foldl_cons, List.foldl_map, macBlock_succ]

/-- A string that ends inside a block, from cursor 0: ci takes its zero-padded block. -/
theorem accWriteAll_partial_ci {bs : Bytes} (h0 : e.p = 0) (hl : bs.length < 16) :
    (accWriteAll c bs e).ci = Vector.zipWith (· ^^^ ·) e.ci (macBlock bs 0) := by
  have hp : e.p.val = 0 := congrArg Fin.val h0
  obtain ⟨-, -, hci⟩ := accWrite_partial (c := c) bs e (by omega)
  ext1 k hk
  rw [hci k hk, if_pos (by omega), hp]
  simp [macBlock]

/-- From cursor 0, a string and its padding take ci along the chain over the string's zero-padded blocks. -/
theorem accPadZero_accWriteAll_ci (bs : Bytes) :
    ∀ e : Engine, e.p = 0 → (accPadZero c (accWriteAll c bs e)).ci = cbcChain c e.ci bs := by
  induction hn : bs.length using Nat.strong_induction_on generalizing bs with
  | _ n ih =>
    intro e h0
    have hp : e.p.val = 0 := congrArg Fin.val h0
    by_cases hnil : bs = []
    · rw [hnil, accWriteAll_nil, accPadZero_of_empty h0, cbcChain_nil]
    have hpos := List.length_pos_of_ne_nil hnil
    rw [cbcChain_step _ hpos]
    by_cases hl : bs.length < 16
    · have hpending : (accWriteAll c bs e).p ≠ 0 := fun h => by
        have hcur := accWriteAll_cursor (c := c) bs e
        simp only [h, hp, Fin.val_zero] at hcur
        omega
      rw [accPadZero_of_pending hpending, accWriteAll_partial_ci h0 hl, List.drop_of_length_le (by omega), cbcChain_nil]
    · have hfull := accWrite_full (c := c) (bs.take 16) e hp (by rw [List.length_take]; omega)
      conv_lhs => rw [← List.take_append_drop 16 bs]
      rw [accWriteAll_append, hfull, ih _ (by rw [List.length_drop]; omega) _ rfl _ rfl, blockOf_take]

/-! ### The calls (40 R151, log 17) -/

theorem accWrite_calls_length (b : Byte) (e : Engine) :
    (accWrite c b e).calls.length = e.calls.length + (e.p.val + 1) / 16 := by
  by_cases hlast : e.p = 15
  · rw [accWrite_of_last hlast, hlast]
    simp
  · rw [accWrite_of_not_last hlast, Nat.div_eq_of_lt (by omega)]
    rfl

theorem accWriteAll_calls_length (bs : Bytes) :
    ∀ e : Engine, (accWriteAll c bs e).calls.length = e.calls.length + (e.p.val + bs.length) / 16 := by
  induction bs with
  | nil => intro e; simp [Nat.div_eq_of_lt]
  | cons b bs ih =>
    intro e
    rw [accWriteAll_cons, ih, accWrite_calls_length, accWrite_cursor, List.length_cons]
    omega

theorem accPadZero_calls_length (e : Engine) :
    (accPadZero c e).calls.length = e.calls.length + (if e.p = 0 then 0 else 1) := by
  by_cases h : e.p = 0
  · rw [accPadZero_of_empty h, if_pos h, Nat.add_zero]
  · rw [accPadZero_of_pending h, if_neg h, List.length_append, List.length_singleton]

/-! ### Host transactions (40 R140) -/

/-- What `f` does to the state neither reads nor writes the accumulator. -/
def EngineFree (f : State → State) : Prop := ∀ (s : State) (e : Engine), f { s with eng := e } = { f s with eng := e }

theorem EngineFree.eng_eq {f : State → State} (h : EngineFree f) (s : State) : (f s).eng = s.eng :=
  (congrArg State.eng (h s s.eng) :)

theorem regRead_withEngine (s : State) (e : Engine) (r : Reg) : regRead c { s with eng := e } r = regRead c s r := by
  cases r <;> rfl

theorem engineFree_regWrite (d : Word) (r : Reg) : EngineFree fun s => regWrite s d r := by
  intro s e
  cases r with
  | status => simp only [regWrite, State.acknowledge_eq]
  | _ => rfl

theorem engineFree_doRegRead (a : BitVec 12) : EngineFree (doRegRead c a) := by
  intro s e
  simp only [doRegRead, regRead_withEngine]

theorem engineFree_doRegWrite (a : BitVec 12) (d : Word) : EngineFree (doRegWrite a d) := by
  intro s e
  have hl : State.locked { s with eng := e } = s.locked := rfl
  simp only [doRegWrite, hl]
  split
  · rfl
  · exact engineFree_regWrite d (regAt a) s e

theorem engineFree_doBufRead (a : Word) : EngineFree (doBufRead c a) := fun _ _ => rfl

theorem engineFree_doBufWrite (a d : Word) (be : BitVec 4) : EngineFree (doBufWrite c a d be) := by
  intro s e
  have hl : State.locked { s with eng := e } = s.locked := rfl
  simp only [doBufWrite, hl]
  split <;> rfl

/-- Every host transaction is a function of the rest of the state. -/
theorem exec_bus_engineFree (h : formatOf i = .bus) : ∃ f, EngineFree f ∧ ∀ s, exec i s = .next (f s) := by
  cases i with
  | regRead a => exact ⟨_, engineFree_doRegRead a, fun _ => rfl⟩
  | regWrite a d => exact ⟨_, engineFree_doRegWrite a d, fun _ => rfl⟩
  | bufRead a => exact ⟨_, engineFree_doBufRead a, fun _ => rfl⟩
  | bufWrite a d be => exact ⟨_, engineFree_doBufWrite a d be, fun _ => rfl⟩
  | _ => cases h

/-! ### The statements -/

/-- Settles O22: by whether the cursor is at the last byte of the block. -/
theorem accWriteXorsAndEncrypts : Obligations.AccWriteXorsAndEncrypts := by
  intro s b hr
  refine ⟨s.eng.xorByte b, accWrite Config.params b s.eng, exec_accWrite_running b hr, s.eng.xorByte_getElem b,
    fun h => ⟨?_, ?_⟩, fun h => ?_⟩
  · rw [accWrite_of_not_last (fun h15 => h (congrArg Fin.val h15))]
  · rw [accWrite_cursor]
    omega
  · exact accWrite_of_last (Fin.ext h)

/-- Settles O26: the 16 - p zero bytes are what is missing from the block. -/
theorem paddingEqualsZeroBytes : Obligations.PaddingEqualsZeroBytes :=
  fun e hp => accWriteAll_zeros _ e hp (by omega)

/-- Settles O27: both strings begin at cursor 0, the first after the reset, the second after the first's padding. -/
theorem cbcMacChain : Obligations.CbcMacChain := by
  intro e s s' y y'
  have hy : y.p = 0 := accPadZero_p _
  exact ⟨hy, accPadZero_accWriteAll_ci s _ rfl, accPadZero_p _, accPadZero_accWriteAll_ci s' y hy⟩

/-- Settles O28: whole blocks leave the cursor where it was. -/
theorem wholeBlocksNeedNoPadding : Obligations.WholeBlocksNeedNoPadding := by
  intro e s h0 hs
  refine accPadZero_of_empty (Fin.ext ?_)
  rw [accWriteAll_cursor, h0]
  simpa using hs

/-- Settles O29: a written byte calls E when it is the 16th; ACC_SUM calls it as the padding it begins with does. -/
theorem accumulatorCallCounts : Obligations.AccumulatorCallCounts :=
  fun e s => ⟨accWriteAll_calls_length s e, accPadZero_calls_length e, accPadZero_calls_length e, rfl⟩

/-- Settles O57: a host transaction is a function of the state that neither reads nor writes the accumulator. -/
theorem hostCannotReachAccumulator : Obligations.HostCannotReachAccumulator := by
  intro i s t e hi ht
  obtain ⟨f, hf, hexec⟩ := exec_bus_engineFree hi
  obtain rfl : f s = t := by
    rw [hexec] at ht
    cases ht
    rfl
  exact ⟨hf.eng_eq s, by rw [hexec, hf]⟩

/-- Settles O23: by whether a partial block is pending. -/
theorem accPadZeroFlushes : Obligations.AccPadZeroFlushes := by
  intro s hr
  rw [exec_accPadZero_running hr]
  exact ⟨fun h => by rw [accPadZero_of_empty h], fun h => by rw [accPadZero_of_pending h]⟩

/-- Settles O24: by whether a partial block is pending. -/
theorem accSumRespondsWithMac : Obligations.AccSumRespondsWithMac := by
  intro s hr
  rw [exec_accSum_running hr]
  exact ⟨fun h => by rw [accSum_of_empty h], fun h => by rw [accSum_of_pending h]⟩

/-- Settles O25: ACC_RESET is `accReset` of the accumulator. -/
theorem accResetZeroes : Obligations.AccResetZeroes :=
  fun _ hr => exec_accReset_running hr

end Sys2Proof.Machine
end

section
/-!
PROOFS. The statements of 41_formatting: the byte layouts, the counter as a number, the tag as one CBC-MAC chain,
and what CCMOpen makes of a sealed message and of one with another tag; then the same round trip on the machine.
-/

namespace Sys2Proof.Machine

variable {c : Params} {s t : State} {n i q v : Nat} {nonce ad : Bytes}

/-! ### Big-endian fields (00_scope R19, 41 R168) -/

theorem bigEndian_succ (n v : Nat) : bigEndian (n + 1) v = BitVec.ofNat 8 (v / 256 ^ n) :: bigEndian n v := by
  simp [bigEndian, List.range_succ_eq_map, Nat.sub_sub, Nat.add_comm, Nat.shiftRight_eq_div_pow, Nat.pow_mul]

theorem bigEndian_zero (v : Nat) : bigEndian 0 v = [] := rfl

/-- Byte `k` of a block with a field in its last `q` bytes, `k` inside the field. -/
theorem field_getD (h : q ≤ 16) {k : Nat} (hk : k < 16) (hq : 16 - q ≤ k) :
    ((bigEndian q v).getD (k - (16 - q)) 0).toNat = v / 256 ^ (15 - k) % 256 := by
  rw [bigEndian_getD _ _ _ (by omega), show q - 1 - (k - (16 - q)) = 15 - k by omega]

/-! ### The counter block as a number (41 R164) -/

/-- The bytes of Ctr_i before its counter, as a big-endian number: the flags byte and the nonce. -/
def ctrHeadNat (n : Nat) (nonce : Bytes) : Nat :=
  (BitVec.ofNat 8 (counterWidth n - 1) :: nonce).foldl (fun v x => v * 256 + x.toNat) 0

theorem blockNat_ctrBlock (hn : n ≤ 15) (hl : nonce.length = n) (hi : i < 256 ^ counterWidth n) :
    blockNat (ctrBlock n nonce i) = ctrHeadNat n nonce * 256 ^ counterWidth n + i := by
  rw [blockNat, ctrBlock_toList hn hl.ge, List.take_of_length_le hl.le, List.foldl_append, bigEndian_fold,
    Nat.mod_eq_of_lt hi, ctrHeadNat]

/-- An admitted payload has fewer blocks than the counter has values. -/
theorem blocks_lt_of_le_maxPayload {p : Nat} (h : p ≤ maxPayload n) : blocks p < 2 ^ (8 * (15 - n)) := by
  have hpos : 0 < 2 ^ (8 * (15 - n)) := Nat.two_pow_pos _
  simp only [maxPayload] at h
  simp only [blocks]
  omega

/-! ### The CBC-MAC chain over padded strings (41 R171) -/

/-- The chain does not see whether its last block was padded before. -/
theorem cbcChain_padded (y : Block) (bs : Bytes) : cbcChain c y (padded bs) = cbcChain c y bs := by
  have hblocks : blocks (padded bs).length = blocks bs.length := by
    simp only [blocks, padded, List.length_append, List.length_replicate]
    omega
  have hblock (j : Nat) : macBlock (padded bs) j = macBlock bs j := by
    ext1 k hk
    simp only [macBlock, padded, Vector.getElem_ofFn, List.getD_eq_getElem?_getD, List.getElem?_append,
      List.getElem?_replicate]
    split_ifs <;> simp_all
  simp only [cbcChain, hblocks, hblock]

theorem padded_length_mod (bs : Bytes) : (padded bs).length % 16 = 0 := by
  simp only [padded, List.length_append, List.length_replicate]
  omega

theorem padded_nil : padded [] = [] := rfl

/-- Whole blocks leave the cursor at 0. -/
theorem accWriteAll_whole_p {bs : Bytes} {e : Engine} (h0 : e.p = 0) (hb : bs.length % 16 = 0) :
    (accWriteAll c bs e).p = 0 := by
  apply Fin.ext
  rw [accWriteAll_cursor, h0]
  simpa using hb

/-- Whole blocks from cursor 0 take ci along the chain, with no padding. -/
theorem accWriteAll_whole_ci {bs : Bytes} {e : Engine} (h0 : e.p = 0) (hb : bs.length % 16 = 0) :
    (accWriteAll c bs e).ci = cbcChain c e.ci bs := by
  rw [← accPadZero_accWriteAll_ci bs e h0, accPadZero_of_empty (accWriteAll_whole_p h0 hb)]

/-- After whole blocks the chain goes on from their value: an accumulator fed both strings computes either side. -/
theorem cbcChain_append {xs : Bytes} (hx : xs.length % 16 = 0) (y : Block) (ys : Bytes) :
    cbcChain c y (xs ++ ys) = cbcChain c (cbcChain c y xs) ys := by
  let e : Engine := { Engine.reset with ci := y }
  have h0 : e.p = 0 := rfl
  calc cbcChain c y (xs ++ ys)
      = (accPadZero c (accWriteAll c ys (accWriteAll c xs e))).ci := by
        rw [← accWriteAll_append, accPadZero_accWriteAll_ci _ e h0]
    _ = cbcChain c (accWriteAll c xs e).ci ys := accPadZero_accWriteAll_ci ys _ (accWriteAll_whole_p h0 hx)
    _ = cbcChain c (cbcChain c y xs) ys := by rw [accWriteAll_whole_ci h0 hx]

/-- Steps 1 to 3 of TagCompute leave whole blocks written: the cursor is 0 and ci the chain over B0 and the padded
length field and associated data (41 R170). -/
theorem headEngine_chain (b0 : Block) (ad : Bytes) (e : Engine) :
    (headEngine c b0 ad e).p = 0 ∧
      (headEngine c b0 ad e).ci = cbcChain c zeroBlock (b0.toList ++ padded (adPrefix ad.length ++ ad)) := by
  have hb0 : b0.toList.length % 16 = 0 := by simp
  have h0 : (accReset e).p = 0 := rfl
  have hp := accWriteAll_whole_p (c := c) h0 hb0
  have hci : _ = cbcChain c zeroBlock b0.toList := accWriteAll_whole_ci (c := c) h0 hb0
  rw [headEngine]
  by_cases ha : ad.length = 0
  · rw [if_pos ha, List.length_eq_zero_iff.1 ha]
    exact ⟨hp, by simpa [adPrefix, padded_nil] using hci⟩
  · rw [if_neg ha, ← accWriteAll_append]
    refine ⟨accPadZero_p _, ?_⟩
    rw [accPadZero_accWriteAll_ci _ _ hp, hci, cbcChain_append hb0, cbcChain_padded]

/-- After a padding ACC_SUM responds with ci and changes nothing else. -/
theorem accSum_accPadZero (e : Engine) :
    accSum c (accPadZero c e) = { accPadZero c e with resp := (accPadZero c e).ci } :=
  accSum_of_empty (accPadZero_p e)

/-- T_full as one chain (41 R171). -/
theorem tagEngine_resp (b0 : Block) (ad pt : Bytes) (e : Engine) :
    (tagEngine c b0 ad pt e).resp =
      cbcChain c zeroBlock (b0.toList ++ padded (adPrefix ad.length ++ ad) ++ padded pt) := by
  obtain ⟨hp, hci⟩ := headEngine_chain (c := c) b0 ad e
  have hwhole : (b0.toList ++ padded (adPrefix ad.length ++ ad)).length % 16 = 0 := by
    have := padded_length_mod (adPrefix ad.length ++ ad)
    rw [List.length_append, Vector.length_toList]
    omega
  calc (tagEngine c b0 ad pt e).resp
      = (accPadZero c (accWriteAll c pt (headEngine c b0 ad e))).ci := by rw [tagEngine, accSum_accPadZero]
    _ = cbcChain c (headEngine c b0 ad e).ci pt := accPadZero_accWriteAll_ci pt _ hp
    _ = _ := by rw [hci, cbcChain_append hwhole, cbcChain_padded]

/-! ### Opening a message (41 R176, R177) -/

/-- CCMOpen of a non-empty admitted payload and a tag: the tags are compared. -/
theorem ccmOpen_append {x tag : Bytes} (hl : nonce.length = n) (hx : 0 < x.length) (hmax : x.length ≤ maxPayload n) :
    ccmOpen c n tag.length nonce ad (x ++ tag) =
      if ctDiff (ccmTag c n tag.length nonce ad (ctrXor c n nonce x)) tag = 0 then .ok (ctrXor c n nonce x)
      else .error .authenticationFailed := by
  have hlen : (x ++ tag).length - tag.length = x.length := by simp
  rw [ccmOpen, if_neg (not_not.2 hl), if_neg (by rw [List.length_append]; omega), hlen, if_neg (by omega),
    List.take_left, List.drop_left]

theorem ccmSeal_ok {T : Nat} {pt : Bytes} (hl : nonce.length = n) (hmax : pt.length ≤ maxPayload n) :
    ccmSeal c n T nonce ad pt = .ok (ctrXor c n nonce pt ++ ccmTag c n T nonce ad pt) := by
  rw [ccmSeal, if_neg (not_not.2 hl), if_neg (by omega)]

/-- What CCMOpen makes of a sealed payload with some tag: it gives the plaintext when the tag is the message's own. -/
theorem ccmOpen_sealed {T : Nat} {pt tag : Bytes} (hT : T ≤ 16) (hl : nonce.length = n) (hpos : 0 < pt.length)
    (hmax : pt.length ≤ maxPayload n) (htag : tag.length = T) :
    ccmOpen c n T nonce ad (ctrXor c n nonce pt ++ tag) =
      if tag = ccmTag c n T nonce ad pt then .ok pt else .error .authenticationFailed := by
  subst htag
  rw [ccmOpen_append hl (by rwa [ctrXor_length]) (by rwa [ctrXor_length]), ctrXor_ctrXor]
  refine if_congr ?_ rfl rfl
  rw [ctDiff_eq_zero_iff (ccmTag_length hT), eq_comm]

/-! ### The statements about byte strings -/

/-- Settles O30: TagCompute feeds the accumulator whole blocks up to the payload, and then the payload, padded. -/
theorem tagOverPaddedBlocks : Obligations.TagOverPaddedBlocks :=
  ⟨fun e => by rw [accSum_accPadZero], fun _ _ _ _ _ => tagEngine_resp _ _ _ _⟩

/-- Settles O31: flags byte, nonce and counter are the three parts of the block's string. -/
theorem counterBlockLayout : Obligations.CounterBlockLayout := by
  intro n i nonce hn7 hn13 hl _ k hk
  rw [ctrBlock_get n i nonce hl k hk]
  split_ifs with h0 hnonce
  · rw [BitVec.toNat_ofNat]
    omega
  · rfl
  · rw [← field_getD (q := 15 - n) (by omega) hk (by omega), show k - (16 - (15 - n)) = k - 1 - n by omega]

/-- Settles O32: B0 is Ctr_0 with the flags byte completed and the payload length in place of the counter. -/
theorem firstAuthBlockLayout : Obligations.FirstAuthBlockLayout := by
  intro n t p a nonce hn7 hn13 ht4 ht16 heven hl _ k hk
  rw [b0Block, setField_get _ _ _ _ (by omega) hk]
  by_cases h0 : k = 0
  · subst h0
    rw [if_pos (by omega), if_pos rfl, Vector.getElem_set_self, ctrBlock_get n 0 nonce hl, if_pos rfl,
      flags_byte (15 - n) t _ (by omega) (by omega) ht4 ht16 heven (ite_eq_or_eq _ _ _)]
    split <;> rfl
  rw [if_neg h0]
  by_cases hnonce : k ≤ n
  · rw [if_pos (by omega), if_pos hnonce, Vector.getElem_set_ne _ _ (Ne.symm h0), ctrBlock_get n 0 nonce hl,
      if_neg h0, if_pos hnonce]
  · rw [if_neg (by omega), if_neg hnonce, field_getD (by omega) hk (by omega)]

/-- Settles O33: each tier of the length writes its marker and its field's bytes. -/
theorem lengthPrefixTiers : Obligations.LengthPrefixTiers := by
  intro a _
  refine ⟨fun h0 => ?_, fun h0 hs => ?_, fun hs hm => ?_, fun hm => ?_⟩
  · rw [adPrefix, if_pos h0]
  · rw [adPrefix, if_neg h0.ne', if_pos hs]
    simp [bigEndian_succ, bigEndian_zero]
  · rw [adPrefix, if_neg (by omega), if_neg (Nat.not_lt.2 hs), if_pos (show a ≤ 2147483647 from hm)]
    simp [bigEndian_succ, bigEndian_zero]
  · rw [adPrefix, if_neg (by omega), if_neg (show ¬a < 65280 by omega), if_neg (show ¬a ≤ 2147483647 by omega)]
    simp [bigEndian_succ, bigEndian_zero]

/-- Settles O34: below 256^q a counter block's number is that of its first bytes, shifted, plus the counter. -/
theorem counterNeverWraps : Obligations.CounterNeverWraps := by
  intro n p nonce _ hn13 hl hp
  have hlt := blocks_lt_of_le_maxPayload hp
  have hpow : 2 ^ (8 * (15 - n)) = 256 ^ counterWidth n := by rw [Nat.pow_mul, counterWidth]
  refine ⟨hlt, fun i hi => ?_⟩
  rw [hpow] at hlt
  rw [blockNat_ctrBlock (by omega) hl (by omega), blockNat_ctrBlock (by omega) hl (by omega), Nat.add_assoc]

/-- Settles O35: the transform is its own inverse, and the tag compared is the message's own. -/
theorem sealThenOpenRecovers : Obligations.SealThenOpenRecovers := by
  intro n t nonce ad pt _ _ _ ht16 _ hl hmax
  refine ⟨ctrXor_ctrXor n nonce pt, fun hpos => ⟨_, ccmSeal_ok hl hmax, ?_⟩⟩
  rw [ccmOpen_sealed ht16 hl hpos hmax (ccmTag_length ht16), if_pos rfl]

/-- Settles O36: the payload opens to its plaintext, whose tag is not the one given. -/
theorem wrongTagIsRejected : Obligations.WrongTagIsRejected := by
  intro n t nonce ad pt tag _ _ _ ht16 _ hl hpos hmax htag hne
  rw [ccmOpen_sealed ht16 hl hpos hmax htag, if_neg hne]

/-! ### A sealed message on the machine, opened in place (42 R205, R206) -/

/-- The regions' checks pass when the regions are inside the buffer and apart (42 R203). -/
theorem regionCheck_ok {n : Nat} (h : RegionsOk c s n) : regionCheck c s n = .ok := by
  obtain ⟨had, hin, hout, hapartAd, hapartIn⟩ := h
  have hinside : ¬((!inBuf c s.regs.adOff.toNat s.regs.adLen.toNat || !inBuf c s.regs.inOff.toNat s.regs.inLen.toNat ||
      !inBuf c s.regs.outOff.toNat n) = true) := by
    simp [inBuf, had, hin, hout]
  have hovlAd : ¬overlaps s.regs.outOff.toNat n s.regs.adOff.toNat s.regs.adLen.toNat = true := by
    rw [overlaps, decide_eq_true_iff]
    omega
  have hovlIn : ¬(overlaps s.regs.outOff.toNat n s.regs.inOff.toNat s.regs.inLen.toNat &&
      decide (s.regs.outOff ≠ s.regs.inOff)) = true := by
    rw [overlaps, Bool.and_eq_true, decide_eq_true_iff, decide_eq_true_iff]
    rintro ⟨hovl, hne⟩
    simp only [hne, false_or] at hapartIn
    omega
  rw [regionCheck, if_neg hinside, if_neg hovlAd, if_neg hovlIn]

/-- The checks of OPEN pass (42 R200). -/
theorem openCheck_of_regionsOk (hc : s.inst.configured = true) (hn : s.regs.nonceLen.toNat = s.nonceSize)
    (hT : s.tagSize < s.regs.inLen.toNat) (hmax : s.regs.inLen.toNat - s.tagSize ≤ maxPayload s.nonceSize)
    (hr : RegionsOk c s (s.regs.inLen.toNat - s.tagSize)) : openCheck c s = .ok := by
  rw [openCheck, if_neg (by simp [hc]), if_neg (not_not.2 hn), if_neg (by omega), if_neg (by omega), regionCheck_ok hr]

/-- STATUS after an OPEN that completed with OK (42 R208). -/
theorem statusWord_open_ok (hst : s.status = { done := true, err := .ok, lastOp := 3 })
    (hc : s.inst.configured = true) (hi : s.seq.state = .idle) : statusWord s = 0x00000306 := by
  rw [statusWord, State.busy, hst, hc, hi]
  decide

/-- What an accepted SEAL of `s` writes: CCMSeal of the operands (41 R176). -/
def sealedBytes (c : Params) (s : State) : Bytes :=
  ctrXor c s.nonceSize (cmdNonce s) (cmdInput c s s.regs.inLen.toNat) ++
    ccmTag c s.nonceSize s.tagSize (cmdNonce s) (cmdAd c s) (cmdInput c s s.regs.inLen.toNat)

theorem sealedBytes_length (hT : s.tagSize ≤ 16) :
    (sealedBytes c s).length = s.regs.inLen.toNat + s.tagSize := by
  rw [sealedBytes, List.length_append, ctrXor_length, cmdInput_length, ccmTag_length hT]

theorem Sealed.buf_eq (h : Sealed c (s.start 2) t) :
    t.buf = Memory.writeBytes c s.buf s.regs.outOff.toNat (sealedBytes c s) := by
  rw [h.buf, xorBytes_take, seal_tagFull rfl]
  rfl

/-- The host's state between an accepted SEAL of `s` and an OPEN in place: the buffer holds the sealed message, IN is
the SEAL's OUT region, and the other operands are those of the SEAL. -/
structure HoldsSealed (c : Params) (s t : State) : Prop where
  unlocked : t.locked = false
  inst : t.inst = s.inst
  nonce : t.regs.nonce = s.regs.nonce
  nonceLen : t.regs.nonceLen = s.regs.nonceLen
  adOff : t.regs.adOff = s.regs.adOff
  adLen : t.regs.adLen = s.regs.adLen
  inOff : t.regs.inOff = s.regs.outOff
  inLen : t.regs.inLen.toNat = s.regs.inLen.toNat + s.tagSize
  outOff : t.regs.outOff = s.regs.outOff
  buf : t.buf = Memory.writeBytes c s.buf s.regs.outOff.toNat (sealedBytes c s)

/-- IN set to the OUT region, for an OPEN in place of what was sealed. -/
def inputFromOutput (t : State) : State :=
  { t with regs := { t.regs with inOff := t.regs.outOff, inLen := t.regs.outLen } }

/-- The OUT region of an accepted SEAL is inside the buffer, so OUT_LEN holds its length. -/
theorem Sealed.outLen_toNat (h : Sealed c (s.start 2) t) (hck : sealCheck c s = .ok) :
    t.regs.outLen.toNat = s.regs.inLen.toNat + s.tagSize := by
  obtain ⟨-, -, -, hr⟩ := sealCheck_ok hck
  have hle := hr.output.trans (bufBytes_le c)
  have hlen : t.regs.outLen = BitVec.ofNat 32 (s.regs.inLen.toNat + s.tagSize) := h.outLen
  rw [hlen, BitVec.toNat_ofNat]
  exact Nat.mod_eq_of_lt (by omega)

theorem Sealed.holdsSealed (h : Sealed c (s.start 2) t) (hrst : s.rst = false) (hck : sealCheck c s = .ok) :
    HoldsSealed c s (inputFromOutput t) := by
  have hregs : { t.regs with outLen := s.regs.outLen } = s.regs := h.side.regs
  exact
    { unlocked := (State.locked_eq_false_iff _).2 ⟨h.side.rst.trans hrst, h.idle⟩
      inst := h.inst
      nonce := (congrArg Regs.nonce hregs :)
      nonceLen := (congrArg Regs.nonceLen hregs :)
      adOff := (congrArg Regs.adOff hregs :)
      adLen := (congrArg Regs.adLen hregs :)
      inOff := (congrArg Regs.outOff hregs :)
      inLen := h.outLen_toNat hck
      outOff := (congrArg Regs.outOff hregs :)
      buf := h.buf_eq }

namespace HoldsSealed

variable (h : HoldsSealed c s t)
include h

theorem tagSize_eq : t.tagSize = s.tagSize := by rw [State.tagSize, h.inst, State.tagSize]

theorem nonceSize_eq : t.nonceSize = s.nonceSize := by rw [State.nonceSize, h.inst, State.nonceSize]

/-- The payload of the OPEN is as long as the SEAL's. -/
theorem payload_eq : s.regs.inLen.toNat = t.regs.inLen.toNat - t.tagSize := by
  rw [h.inLen, h.tagSize_eq, Nat.add_sub_cancel]

theorem cmdNonce_eq : cmdNonce t = cmdNonce s := by
  rw [cmdNonce, nonceBytes, h.nonceSize_eq, h.nonce, cmdNonce, nonceBytes]

/-- The sealed message is the input of the OPEN. -/
theorem input_eq (hT : s.tagSize ≤ 16) (hw : Memory.wf c s.buf) :
    Memory.readBytes c t.buf t.regs.inOff.toNat t.regs.inLen.toNat = sealedBytes c s := by
  rw [h.buf, h.inOff, h.inLen, ← sealedBytes_length hT]
  exact Memory.readBytes_writeBytes hw

variable (hck : sealCheck c s = .ok)
include hck

/-- SEAL wrote no byte of the associated data (42 R203). -/
theorem cmdAd_eq (hT : s.tagSize ≤ 16) (hw : Memory.wf c s.buf) : cmdAd c t = cmdAd c s := by
  obtain ⟨-, -, -, hr⟩ := sealCheck_ok hck
  rw [cmdAd, State.adBytes, h.adOff, h.adLen, h.buf, cmdAd, State.adBytes]
  apply Memory.readBytes_congr
  intro a hlo hhi
  have hapart := hr.apartAd
  rw [Memory.read_writeBytes hw, sealedBytes_length hT, if_neg (by omega)]

/-- The OPEN passes its checks: its regions are those of the SEAL, in place. -/
theorem openCheck_eq_ok (hpos : 0 < s.regs.inLen.toNat) : openCheck c t = .ok := by
  obtain ⟨hconf, hnonce, hmax, hr⟩ := sealCheck_ok hck
  have hout := hr.output
  have hapart := hr.apartAd
  have hp := h.payload_eq
  refine openCheck_of_regionsOk (by rw [h.inst, hconf]) (by rw [h.nonceLen, h.nonceSize_eq, hnonce]) (by omega)
    (by rwa [← hp, h.nonceSize_eq]) ?_
  rw [← hp]
  exact
    { ad := by rw [h.adOff, h.adLen]; exact hr.ad
      input := by rw [h.inOff, h.inLen]; exact hout
      output := by rw [h.outOff]; omega
      apartAd := by rw [h.adOff, h.adLen, h.outOff]; omega
      apartIn := .inr (.inr (.inl (h.outOff.trans h.inOff.symm))) }

/-- The tag in the input is the recovered plaintext's own, and that plaintext is what was sealed. -/
theorem tagMatches_plaintext (hT : s.tagSize ≤ 16) (hw : Memory.wf c s.buf) (hpos : 0 < s.regs.inLen.toNat) :
    cmdTagMatches c (t.start 3) s.regs.inLen.toNat ∧
      cmdOutput c t s.regs.inLen.toNat = cmdInput c s s.regs.inLen.toNat := by
  obtain ⟨-, -, hmax, -⟩ := sealCheck_ok hck
  obtain ⟨-, hmatch, hfail⟩ := open_result (h.openCheck_eq_ok hck hpos) h.payload_eq
  rw [h.input_eq hT hw, h.nonceSize_eq, h.tagSize_eq, h.cmdNonce_eq, h.cmdAd_eq hck hT hw] at hmatch hfail
  have hopen : ccmOpen c s.nonceSize s.tagSize (cmdNonce s) (cmdAd c s) (sealedBytes c s) =
      .ok (cmdInput c s s.regs.inLen.toNat) := by
    rw [sealedBytes, ccmOpen_sealed hT (cmdNonce_length s) (by rwa [cmdInput_length]) (by rwa [cmdInput_length])
      (ccmTag_length hT), if_pos rfl]
  by_cases hm : cmdTagMatches c (t.start 3) s.regs.inLen.toNat
  · exact ⟨hm, Except.ok.inj ((hmatch hm).symm.trans hopen)⟩
  · cases (hfail hm).symm.trans hopen

/-- The run of the OPEN: it accepts, and its OUT region is the plaintext that was sealed. -/
theorem open_run_ok (hT : s.tagSize ≤ 16) (hw : Memory.wf c s.buf) (hpos : 0 < s.regs.inLen.toNat) :
    Opened c (t.start 3) (runCommand c 3 t) s.regs.inLen.toNat true ∧
      Memory.readBytes c (runCommand c 3 t).buf s.regs.outOff.toNat s.regs.inLen.toNat =
        cmdInput c s s.regs.inLen.toNat := by
  obtain ⟨hmatch, hplain⟩ := h.tagMatches_plaintext hck hT hw hpos
  have hwt : Memory.wf c t.buf := by rw [h.buf]; exact Memory.wf_writeBytes hw
  obtain ⟨haccept, -⟩ := open_run h.unlocked hwt (h.openCheck_eq_ok hck hpos) h.payload_eq
  have hopened := haccept hmatch
  have hbuf : (runCommand c 3 t).buf =
      Memory.writeBytes c t.buf s.regs.outOff.toNat (cmdInput c s s.regs.inLen.toNat) := by
    rw [← hplain, ← h.outOff]
    exact hopened.buf
  refine ⟨hopened, ?_⟩
  rw [hbuf]
  have hread := Memory.readBytes_writeBytes (off := s.regs.outOff.toNat) (bs := cmdInput c s s.regs.inLen.toNat) hwt
  rwa [cmdInput_length] at hread

end HoldsSealed

/-- Settles O44: what the SEAL wrote is CCMSeal of its operands, and the OPEN in place reads it as its input. -/
theorem machineRoundTripInPlace : Obligations.MachineRoundTripInPlace := by
  intro s hready hinst hw hck hpos
  have hT := tagSize_le hinst
  have hsealed := seal_run (unlocked_of_ready hready) hw hck
  have hholds := hsealed.holdsSealed hready.1 hck
  obtain ⟨hopened, hplain⟩ := hholds.open_run_ok hck hT hw hpos
  obtain ⟨hconf, -⟩ := sealCheck_ok hck
  have hlive := (congrArg Instance.configured (hopened.inst.trans hholds.inst) :).trans hconf
  exact ⟨_, _, rfl, rfl, statusWord_open_ok hopened.status hlive hopened.idle,
    hopened.outLen.trans (BitVec.ofNat_toNat _ _), hplain⟩

end Sys2Proof.Machine
end

section
/-!
PROOFS. The statements of 42_commands: what the host reads and writes through its two windows, the order of the
checks, and what each command leaves when it has run: a CONFIGURE, an illegal opcode, a SEAL or OPEN that is refused
by a check, and one that is accepted.
-/

namespace Sys2Proof.Machine

variable {c : Params} {s t : State} {op : BitVec 4} {code : ResultCode} {i : Instr} {n : Nat}

/-! ### Register writes, in plain arithmetic (42 R191) -/

/-- A field of a bus word is the number above its lowest bit. -/
theorem extractField_eq (d : Word) (lo width : Nat) :
    d.extractLsb' lo width = BitVec.ofNat width (d.toNat / 2 ^ lo) := by
  rw [← Nat.shiftRight_eq_div_pow]
  rfl

theorem lane_eq_busByte (d : Word) (j : Nat) : lane d j = busByte d j := lane_eq d j

/-- The opcode field names the command that its number names (43 R231). -/
theorem seqOpOf_opcodeField (d : Word) : seqOpOf (d.extractLsb' 0 4) = commandNamed (d.toNat % 16) := by
  rw [← extract_opcode_toNat]
  generalize d.extractLsb' 0 4 = op
  revert op; decide

theorem start_opcodeField (d : Word) (s : State) :
    s.start (d.extractLsb' 0 4) = startedState (BitVec.ofNat 4 d.toNat) (commandNamed (d.toNat % 16)) s := by
  rw [ofNat_toNat_opcode, ← seqOpOf_opcodeField]
  rfl

/-- NONCE<k> is bytes 4k to 4k + 3 of the nonce store (10_state R41). -/
theorem writeNonceWord_eq (nb : Block) (k : Fin 4) (d : Word) : writeNonceWord nb k d = nonceWithWord nb k.val d := by
  ext1 j hj
  simp only [writeNonceWord, nonceWithWord, Vector.getElem_set, Vector.getElem_ofFn, lane_eq_busByte]
  by_cases hk : j / 4 = k.val
  · have hlane : j % 4 = 0 ∨ j % 4 = 1 ∨ j % 4 = 2 ∨ j % 4 = 3 := by omega
    rw [if_pos hk]
    obtain h | h | h | h := hlane <;> rw [h]
    · rw [if_neg (by omega), if_neg (by omega), if_neg (by omega), if_pos (by omega)]
    · rw [if_neg (by omega), if_neg (by omega), if_pos (by omega)]
    · rw [if_neg (by omega), if_pos (by omega)]
    · rw [if_pos (by omega)]
  · rw [if_neg (by omega), if_neg (by omega), if_neg (by omega), if_neg (by omega), if_neg hk]
    rfl

/-- A write at a reserved offset stores nothing (10_state R49). -/
theorem afterRegWrite_of_regAt_reserved {a : BitVec 12} (h : regAt a = .reserved) (s : State) (d : Word) :
    afterRegWrite s (wordOffset a.toNat) d = s := by
  have h4 : wordOffset a.toNat % 4 = 0 := Nat.mul_mod_left _ _
  unfold regAt at h
  rw [regWordOffset_toNat a, ← wordOffset] at h
  generalize wordOffset a.toNat = w at h h4
  split at h <;> cases h
  simp only [imp_false] at *
  rw [afterRegWrite]
  repeat rw [if_neg (by omega)]

/-- A write that reaches the window does what the register at its word offset asks for. -/
theorem regWrite_regAt (s : State) (a : BitVec 12) (d : Word) :
    regWrite s d (regAt a) = afterRegWrite s (wordOffset a.toNat) d := by
  have reserved := afterRegWrite_of_regAt_reserved (a := a) (s := s) (d := d)
  unfold regAt at reserved ⊢
  rw [regWordOffset_toNat a, ← wordOffset] at reserved ⊢
  generalize wordOffset a.toNat = w at reserved ⊢
  split at *
  case h_4 => -- CFG
    simp only [regWrite, extractField_eq, Nat.pow_zero, Nat.div_one]
    rfl
  case h_5 => -- CMD
    exact start_opcodeField d s
  case h_6 => -- STATUS
    exact State.acknowledge_eq d s
  case h_9 | h_10 | h_11 | h_12 => -- NONCE0 to NONCE3
    simp only [regWrite, writeNonceWord_eq]
    rfl
  case h_13 => -- NONCE_LEN
    simp only [regWrite, extractField_eq, Nat.pow_zero, Nat.div_one]
    rfl
  case h_20 => -- reserved
    exact (reserved rfl).symm
  -- the registers that store a whole word or a flag, and those that keep nothing
  all_goals rfl

/-! ### The buffer window (42 R192, R193) -/

theorem exec_bufRead_outside {a : Word} (ha : Config.params.bufBytes < bufWordOffset a + 4) (s : State) :
    exec (.bufRead a) s = .next { s with rdata := 0 } := by
  have hout : bufWordInside Config.params (bufWordOffset a) = false := decide_eq_false (by omega)
  simp only [exec, execBufRead, doBufRead, hout, Bool.false_eq_true, if_false, ite_self]

theorem exec_bufWrite_outside {a : Word} (ha : Config.params.bufBytes < bufWordOffset a + 4) (d : Word)
    (be : BitVec 4) (s : State) : exec (.bufWrite a d be) s = .next s := by
  have hout : bufWordInside Config.params (bufWordOffset a) = false := decide_eq_false (by omega)
  simp only [exec, execBufWrite, doBufWrite, hout, Bool.not_false, Bool.or_true, if_true]

/-- The buffer access of a transaction is not served (20_memory R85, R89). -/
def BufRefused (s : State) (a : Word) : Prop :=
  s.busy = true ∨ Config.params.bufBytes < wordOffset a.toNat + 4

theorem exec_bufRead_refused {a : Word} (h : BufRefused s a) : exec (.bufRead a) s = .next { s with rdata := 0 } := by
  obtain hbusy | hout := h
  · exact exec_bufRead_locked a (locked_of_busy hbusy)
  · exact exec_bufRead_outside (by rwa [bufWordOffset_eq]) s

theorem exec_bufWrite_refused {a : Word} (h : BufRefused s a) (d : Word) (be : BitVec 4) :
    exec (.bufWrite a d be) s = .next s := by
  obtain hbusy | hout := h
  · exact exec_bufWrite_locked a d be (locked_of_busy hbusy)
  · exact exec_bufWrite_outside (by rwa [bufWordOffset_eq]) d be s

/-- A transaction that is not refused finds the core unlocked and its word inside the buffer. -/
theorem served_of_not_refused {a : Word} (hr : s.rst = false) (h : ¬BufRefused s a) :
    s.locked = false ∧ bufWordOffset a + 4 ≤ Config.params.bufBytes := by
  rw [BufRefused, not_or, Bool.not_eq_true, Nat.not_lt] at h
  exact ⟨unlocked_of_ready ⟨hr, h.1⟩, by rw [bufWordOffset_eq]; exact h.2⟩

/-! ### The checks in their order (42 R198, R200, R203) -/

theorem overlaps_iff (o1 l1 o2 l2 : Nat) : overlaps o1 l1 o2 l2 = true ↔ Meet o1 l1 o2 l2 := decide_eq_true_iff

theorem leavesBuffer_iff (s : State) (n : Nat) :
    (!inBuf Config.params s.regs.adOff.toNat s.regs.adLen.toNat ||
      !inBuf Config.params s.regs.inOff.toNat s.regs.inLen.toNat ||
      !inBuf Config.params s.regs.outOff.toNat n) = true ↔ LeavesBuffer s n := by
  simp only [inBuf, Bool.or_eq_true, Bool.not_eq_true', decide_eq_false_iff_not, Nat.not_le, or_assoc, LeavesBuffer]

theorem forbiddenOverlap_iff (s : State) (n : Nat) :
    ForbiddenOverlap s n ↔
      overlaps s.regs.outOff.toNat n s.regs.adOff.toNat s.regs.adLen.toNat = true ∨
        (overlaps s.regs.outOff.toNat n s.regs.inOff.toNat s.regs.inLen.toNat &&
          decide (s.regs.outOff ≠ s.regs.inOff)) = true := by
  rw [Bool.and_eq_true, overlaps_iff, overlaps_iff, decide_eq_true_iff, ne_eq, ← BitVec.toNat_inj, ForbiddenOverlap]

theorem regionCheck_order (s : State) (n : Nat) :
    (LeavesBuffer s n → regionCheck Config.params s n = .range) ∧
      (¬LeavesBuffer s n → ForbiddenOverlap s n → regionCheck Config.params s n = .overlap) ∧
      (¬LeavesBuffer s n → ¬ForbiddenOverlap s n → regionCheck Config.params s n = .ok) := by
  rw [← leavesBuffer_iff, forbiddenOverlap_iff]
  refine ⟨fun h => if_pos h, fun h => ?_, fun h ho => ?_⟩
  · rintro (hAd | hIn)
    · rw [regionCheck, if_neg h, if_pos hAd]
    · rw [regionCheck, if_neg h, if_pos hIn, ite_self]
  · obtain ⟨hAd, hIn⟩ := not_or.1 ho
    rw [regionCheck, if_neg h, if_neg hAd, if_neg hIn]

/-- SealCheck of a configured core with its nonce length: the payload's length, then the regions. -/
theorem sealCheck_of_nonce (hc : s.inst.configured = true) (hn : s.regs.nonceLen.toNat = s.nonceSize) :
    sealCheck c s = if s.regs.inLen.toNat > maxPayload s.nonceSize then .maxPayloadSizeReached
      else regionCheck c s (s.regs.inLen.toNat + s.tagSize) := by
  rw [sealCheck, if_neg (by simp [hc]), if_neg (not_not.2 hn)]

/-- OpenCheck of a configured core with its nonce length: the tag, the payload's length, then the regions. -/
theorem openCheck_of_nonce (hc : s.inst.configured = true) (hn : s.regs.nonceLen.toNat = s.nonceSize) :
    openCheck c s = if s.regs.inLen.toNat ≤ s.tagSize then .invalidTagSize
      else if s.regs.inLen.toNat - s.tagSize > maxPayload s.nonceSize then .maxPayloadSizeReached
      else regionCheck c s (s.regs.inLen.toNat - s.tagSize) := by
  rw [openCheck, if_neg (by simp [hc]), if_neg (not_not.2 hn)]

/-! ### What a command's run keeps -/

theorem runCore_sameHostSide (fuel : Nat) : ∀ s : State, SameHostSide s (runCore c fuel s) := by
  induction fuel with
  | zero => exact SameHostSide.refl
  | succ fuel ih =>
    intro s
    rw [runCore]
    split
    · exact SameHostSide.refl s
    · exact (coreStep_sameHostSide c s).trans (ih _)

/-- A command's run writes no register but OUT_LEN and nothing on the host's side (42 R195). -/
theorem runCommand_sameHost (c : Params) (op : BitVec 4) (s : State) : SameHost s (runCommand c op s) := by
  rw [runCommand]
  split
  · exact ⟨rfl, rfl, rfl, rfl, rfl⟩
  · obtain ⟨hregs, -, -, hrst, hrdata, hinbox, hdraws⟩ := runCore_sameHostSide (c := c) (commandFuel s) (s.start op)
    refine ⟨?_, hrst, hrdata, hinbox, hdraws⟩
    rw [← State.start_regs op s, ← hregs]

/-! ### The commands of two core steps (42 R196, R201, R207) -/

/-- The command completed with a code: IDLE, and STATUS tells (42 R195). -/
structure Completed (op : BitVec 4) (code : ResultCode) (t : State) : Prop where
  busy : t.busy = false
  status : t.status = { done := true, err := code, lastOp := op }

/-- The command completed and left ACTIVE_CFG, the accumulator and the buffer as they were. -/
structure OnlyReported (op : BitVec 4) (code : ResultCode) (s t : State) : Prop extends Completed op code t where
  inst : t.inst = s.inst
  eng : t.eng = s.eng
  buf : t.buf = s.buf

/-- The results of a command write neither STATUS nor the buffer (42 R195). -/
theorem commandResults_keeps (c : Params) (s : State) :
    (commandResults c s).status = s.status ∧ (commandResults c s).buf = s.buf := by
  unfold commandResults
  split
  · split <;> exact ⟨rfl, rfl⟩
  all_goals exact ⟨rfl, rfl⟩

/-- The state that CHECK of a CONFIGURE leaves (43 R250). -/
def configureChecked (c : Params) (s : State) : State :=
  { s.start 1 with seq := { (s.start 1).seq with code := configCheck c s, state := .done } }

/-- CONFIGURE applies its results and completes with the code of its checks. -/
theorem runCommand_configure (hl : s.locked = false) :
    runCommand c 1 s = (commandResults c (configureChecked c s)).finish (configCheck c s) := by
  rw [two_step_run hl (by rw [check_configure]), check_configure]
  rfl

theorem configure_completed (hl : s.locked = false) :
    Completed 1 (configCheck c s) (runCommand c 1 s) ∧ (runCommand c 1 s).buf = s.buf := by
  obtain ⟨hstatus, hbuf⟩ := commandResults_keeps c (configureChecked c s)
  rw [runCommand_configure hl]
  exact ⟨⟨rfl, by rw [State.finish_status, hstatus]; rfl⟩, hbuf⟩

theorem configure_regs (hl : s.locked = false) : (runCommand c 1 s).regs = s.regs := by
  have hop : ¬(SeqOp.configure = .sealCmd ∨ SeqOp.configure = .openCmd) := by decide
  rw [runCommand, if_neg (by simp [hl])]
  exact runCore_regs (s := s.start 1) _ hop

theorem configure_accepted (hl : s.locked = false) (hp : s.eng.port = []) (h : configCheck c s = .ok) :
    (runCommand c 1 s).inst = { configured := true, n := s.regs.cfgN, t := s.regs.cfgT } ∧
      (runCommand c 1 s).eng = accReset s.eng := by
  have hresults : commandResults c (configureChecked c s) =
      { configureChecked c s with
        inst := { configured := true, n := s.regs.cfgN, t := s.regs.cfgT }
        eng := accIssue c [accWord 0 0] s.eng } := if_pos h
  rw [runCommand_configure hl, hresults]
  exact ⟨rfl, accIssue_reset hp⟩

theorem configure_refused (hl : s.locked = false) (h : configCheck c s ≠ .ok) :
    (runCommand c 1 s).inst = Instance.none ∧ (runCommand c 1 s).eng = s.eng := by
  have hresults : commandResults c (configureChecked c s) =
      { configureChecked c s with inst := Instance.none } := if_neg h
  rw [runCommand_configure hl, hresults]
  exact ⟨rfl, rfl⟩

theorem illegal_run (hl : s.locked = false) (h : seqOpOf op = .illegal) :
    OnlyReported op .illegalCommand s (runCommand c op s) ∧ (runCommand c op s).regs = s.regs := by
  rw [two_step_run hl (by rw [check_illegal h]), check_illegal h]
  simp only [actDone, commandResults, State.start_seq, h]
  exact ⟨⟨⟨rfl, rfl⟩, rfl, rfl, rfl⟩, rfl⟩

/-- A SEAL or OPEN whose check fails. -/
theorem refused_run (hl : s.locked = false) (hop : seqOpOf op = .sealCmd ∨ seqOpOf op = .openCmd)
    (h : coreStep c (s.start op) = rejectCommand (s.start op) code) :
    OnlyReported op code s (runCommand c op s) ∧ (runCommand c op s).regs.outLen = 0 := by
  rw [two_step_run hl (by rw [h]; rfl), h]
  simp only [actDone, commandResults, rejectCommand, State.start_seq]
  obtain hop | hop := hop <;> rw [hop] <;> exact ⟨⟨⟨rfl, rfl⟩, rfl, rfl, rfl⟩, rfl⟩

theorem seal_refused (hl : s.locked = false) (h : sealCheck c s ≠ .ok) :
    OnlyReported 2 (sealCheck c s) s (runCommand c 2 s) ∧ (runCommand c 2 s).regs.outLen = 0 :=
  refused_run hl (.inl rfl) (check_seal_fails h)

theorem open_refused (hl : s.locked = false) (h : openCheck c s ≠ .ok) :
    OnlyReported 3 (openCheck c s) s (runCommand c 3 s) ∧ (runCommand c 3 s).regs.outLen = 0 :=
  refused_run hl (.inr rfl) (check_open_fails h)

/-- A host command is the run of its opcode (30_encoding R112). -/
theorem exec_opcodeOf (h : formatOf i = .cmd) (s : State) :
    exec i s = .next (runCommand Config.params (opcodeOf i) s) := by
  cases i with
  | configure | sealMsg | openMsg | illegal0 | illegal4to7 _ | illegal8toF _ => rfl
  | _ => cases h

/-- Another command than CONFIGURE, SEAL and OPEN has an opcode that names none (42 R201). -/
theorem seqOpOf_opcodeOf_illegal (hwf : i.wellFormed = true) (hf : formatOf i = .cmd) (h1 : i ≠ .configure)
    (h2 : i ≠ .sealMsg) (h3 : i ≠ .openMsg) : seqOpOf (opcodeOf i) = .illegal := by
  cases i with
  | illegal0 => rfl
  | illegal4to7 op => revert op; decide
  | illegal8toF op => revert op; decide
  | configure => exact absurd rfl h1
  | sealMsg => exact absurd rfl h2
  | openMsg => exact absurd rfl h3
  | _ => cases hf

/-! ### An accepted SEAL or OPEN (42 R205, R206, R208) -/

/-- STATUS after a command completed with CONFIGURED = 1 (42 R208). -/
theorem Completed.statusWord_eq (h : Completed op code t) (hc : t.inst.configured = true) :
    statusWord t = (op.setWidth 32 <<< 8) ||| (code.bits.setWidth 32 <<< 4) ||| 6#32 := by
  have hflags : flagWord true <<< 2 ||| (flagWord true <<< 1 ||| flagWord false) = 6#32 := by decide
  rw [statusWord, h.busy, h.status, hc, BitVec.or_assoc, BitVec.or_assoc]
  exact congrArg (_ ||| ·) hflags

/-- A byte of a buffer that one string was written to. -/
theorem byte_of_writeBytes {off : Nat} {bs : Bytes} (hw : BufWf s)
    (ht : t.buf = Memory.writeBytes Config.params s.buf off bs) (a : Nat) :
    t.byte a = if off ≤ a ∧ a < off + bs.length then bs.getD (a - off) 0 else s.byte a := by
  rw [State.byte, ht, Memory.read_writeBytes hw, State.byte]

theorem Sealed.completed (h : Sealed c (s.start 2) t) : Completed 2 .ok t :=
  ⟨(State.busy_eq_false_iff t).2 h.idle, h.status⟩

theorem Opened.completed {p : Nat} {ok : Bool} (h : Opened c (s.start 3) t p ok) :
    Completed 3 (if ok then .ok else .authenticationFailed) t :=
  ⟨(State.busy_eq_false_iff t).2 h.idle, h.status⟩

/-- CCMSeal of the operands of an accepted SEAL is what the machine writes (41 R176). -/
theorem ccmSeal_operands (hck : sealCheck Config.params s = .ok) :
    ccmSeal Config.params s.nonceSize s.tagSize (operandNonce s) (operandAd s) (operandInput s) =
      .ok (sealedBytes Config.params s) := by
  obtain ⟨-, -, hmax, -⟩ := sealCheck_ok hck
  exact ccmSeal_ok (cmdNonce_length s) ((cmdInput_length Config.params s _).trans_le hmax)

/-- A length inside the buffer fits OUT_LEN (10_state R48). -/
theorem outLen_toNat_of_le {off : Nat} (h : off + n ≤ c.bufBytes) : (BitVec.ofNat 32 n).toNat = n := by
  have := bufBytes_le c
  rw [BitVec.toNat_ofNat, Nat.mod_eq_of_lt (by omega)]

/-- A failed OPEN leaves zeros where it had written the recovered plaintext (42 R206). -/
theorem Opened.wiped_byte {p : Nat} (h : Opened Config.params (s.start 3) t p false) (hw : BufWf s) (a : Nat) :
    t.byte a = if s.regs.outOff.toNat ≤ a ∧ a < s.regs.outOff.toNat + p then 0 else s.byte a := by
  let u : State := { s with
    buf := Memory.writeBytes Config.params s.buf s.regs.outOff.toNat (cmdOutput Config.params s p) }
  have hu : BufWf u := Memory.wf_writeBytes hw
  have hbuf : t.buf = Memory.writeBytes Config.params u.buf s.regs.outOff.toNat (List.replicate p 0#8) := h.buf
  rw [byte_of_writeBytes hu hbuf, byte_of_writeBytes (t := u) hw rfl, List.length_replicate, cmdOutput_length]
  split_ifs with hin
  · exact List.getD_replicate _ (by omega)
  · rfl

/-- Whatever the command, its run completes it (42 R195). -/
theorem runCommand_completes (hl : s.locked = false) (hw : Memory.wf c s.buf) (op : BitVec 4) :
    ∃ code, Completed op code (runCommand c op s) := by
  obtain rfl | rfl | rfl | ⟨hop, -⟩ := opcode_cases op
  · exact ⟨_, (configure_completed hl).1⟩
  · by_cases hck : sealCheck c s = .ok
    · exact ⟨_, (seal_run hl hw hck).completed⟩
    · exact ⟨_, (seal_refused hl hck).1.toCompleted⟩
  · by_cases hck : openCheck c s = .ok
    · obtain ⟨haccept, hreject⟩ := open_run hl hw hck rfl
      by_cases hm : cmdTagMatches c (s.start 3) (s.regs.inLen.toNat - s.tagSize)
      · exact ⟨_, (haccept hm).completed⟩
      · exact ⟨_, (hreject hm).completed⟩
    · exact ⟨_, (open_refused hl hck).1.toCompleted⟩
  · exact ⟨_, (illegal_run hl hop).1.toCompleted⟩

/-! ### The statements -/

/-- Settles O12: a read is served with the value of the register at its word offset. -/
theorem regReadReturnsRegister : Obligations.RegReadReturnsRegister :=
  fun s a hr => ⟨_, exec_regRead_served a hr, regRead_toNat s a⟩

/-- Settles O13: register by register, in `regWrite_regAt`. -/
theorem regWriteStoresRegister : Obligations.RegWriteStoresRegister := by
  intro s a d
  refine ⟨fun hready => ?_, fun hbusy => exec_regWrite_locked a d (locked_of_busy hbusy)⟩
  rw [exec_regWrite_unlocked a d (unlocked_of_ready hready), regWrite_regAt]

/-- Settles O16: by whether the access is refused. -/
theorem bufReadReturnsWord : Obligations.BufReadReturnsWord := by
  intro s a hr
  by_cases h : BufRefused s a
  · exact ⟨0, exec_bufRead_refused h, (if_pos h).symm⟩
  · obtain ⟨hl, hin⟩ := served_of_not_refused hr h
    refine ⟨_, exec_bufRead_inside hl hin, ?_⟩
    rw [Memory.readWord, wordOfLanes_toNat, bufWordOffset_eq]
    exact (if_neg h).symm

/-- Settles O17: by whether the access is refused. -/
theorem bufWriteStoresEnabledLanes : Obligations.BufWriteStoresEnabledLanes := by
  intro s a d be hr hw
  by_cases h : BufRefused s a
  · refine ⟨s, exec_bufWrite_refused h d be, rfl, fun _ => rfl, fun hb ha => ?_⟩
    obtain hbusy | hout := h
    · simp [hb] at hbusy
    · omega
  · obtain ⟨hl, hin⟩ := served_of_not_refused hr h
    refine ⟨_, exec_bufWrite_inside d be hl hin, rfl, fun hrefused => absurd hrefused h, fun _ _ x => ?_⟩
    rw [State.byte, Memory.read_writeWord hw, bufWordOffset_eq, lane_eq_busByte]
    rfl

/-- Settles O39: by whether the checks pass. -/
theorem configureCreatesOrDropsInstance : Obligations.ConfigureCreatesOrDropsInstance := by
  intro s hready hp code
  have hl := unlocked_of_ready hready
  obtain ⟨hdone, hbuf⟩ := configure_completed (c := Config.params) hl
  exact ⟨_, rfl, hdone.busy, hdone.status, configure_accepted hl hp, configure_refused hl, configure_regs hl, hbuf,
    runCommand_sameHost _ 1 s⟩

/-- Settles O40: the opcode names no command, so its run goes from CHECK to DONE with the one code. -/
theorem illegalOpcodeOnlyReports : Obligations.IllegalOpcodeOnlyReports := by
  intro s i hready hwf hf h1 h2 h3
  obtain ⟨h, hregs⟩ := illegal_run (c := Config.params) (unlocked_of_ready hready)
    (seqOpOf_opcodeOf_illegal hwf hf h1 h2 h3)
  exact ⟨_, exec_opcodeOf hf s, h.busy, h.status, hregs, h.inst, h.eng, h.buf, runCommand_sameHost _ _ s⟩

/-- Settles O41: CHECK goes to DONE with the code of the check. -/
theorem failedChecksChangeNothing : Obligations.FailedChecksChangeNothing := by
  intro s hready
  have hl := unlocked_of_ready hready
  refine ⟨fun hck => ?_, fun hck => ?_⟩
  · obtain ⟨h, hlen⟩ := seal_refused hl hck
    exact ⟨_, rfl, h.busy, h.status, hlen, h.inst, h.eng, h.buf, runCommand_sameHost _ 2 s⟩
  · obtain ⟨h, hlen⟩ := open_refused hl hck
    exact ⟨_, rfl, h.busy, h.status, hlen, h.inst, h.eng, h.buf, runCommand_sameHost _ 3 s⟩

/-- Settles O42: the run writes `sealedBytes`, which is CCMSeal of the operands. -/
theorem sealComputesCcm : Obligations.SealComputesCcm := by
  intro s hready hinst hw hck
  have h := seal_run (unlocked_of_ready hready) hw hck
  have hlen := sealedBytes_length (c := Config.params) (tagSize_le hinst)
  obtain ⟨hconf, -⟩ := sealCheck_ok hck
  refine ⟨_, _, rfl, ccmSeal_operands hck, hlen, ?_, h.outLen_toNat hck, ?_, h.status, h.completed.busy, h.inst,
    h.ci.trans (seal_tagFull rfl), h.p0, runCommand_sameHost _ 2 s⟩
  · rw [← hlen]
    exact byte_of_writeBytes hw h.buf_eq
  · rw [h.completed.statusWord_eq ((congrArg Instance.configured h.inst).trans hconf)]
    decide

/-- Settles O43: by whether the tag in the input is that of the recovered plaintext. -/
theorem openVerifiesOrWipes : Obligations.OpenVerifiesOrWipes := by
  intro s hready _ hw hck p pt result
  obtain ⟨hconf, -, -, -, hregions⟩ := openCheck_ok hck
  obtain ⟨haccept, hreject⟩ := open_run (p := p) (unlocked_of_ready hready) hw hck rfl
  obtain ⟨hinput, hmatch, hfail⟩ := open_result (p := p) hck rfl
  have hpt : pt = cmdOutput Config.params s p := congrArg (ctrXor Config.params s.nonceSize (operandNonce s)) hinput
  rw [hpt]
  by_cases hm : cmdTagMatches Config.params (s.start 3) p
  · have h := haccept hm
    refine ⟨_, rfl, h.completed.busy, h.inst, h.ci.trans (open_tagFull rfl), h.p0, runCommand_sameHost _ 3 s,
      .inl ⟨hmatch hm, ?_, ?_, h.status, fun a => ?_⟩⟩
    · rw [h.outLen]
      exact outLen_toNat_of_le hregions.output
    · rw [h.completed.statusWord_eq ((congrArg Instance.configured h.inst).trans hconf)]
      decide
    · have hbyte := byte_of_writeBytes hw h.buf a
      rwa [cmdOutput_length] at hbyte
  · have h := hreject hm
    refine ⟨_, rfl, h.completed.busy, h.inst, h.ci.trans (open_tagFull rfl), h.p0, runCommand_sameHost _ 3 s,
      .inr ⟨hfail hm, h.outLen, ?_, h.status, h.wiped_byte hw⟩⟩
    rw [h.completed.statusWord_eq ((congrArg Instance.configured h.inst).trans hconf)]
    decide

/-- Settles O46: the command's run completes it, and no command writes IRQ_EN. -/
theorem everyCommandCompletes : Obligations.EveryCommandCompletes := by
  intro s i hready hw _ hf
  have hl := unlocked_of_ready hready
  obtain ⟨code, h⟩ := runCommand_completes hl hw (opcodeOf i)
  obtain ⟨hregs, -⟩ := runCommand_sameHost Config.params (opcodeOf i) s
  refine ⟨_, exec_opcodeOf hf s, h.busy, ?_, ?_, ?_, hregs⟩
  · rw [h.status]
  · rw [h.status]
  · rw [irqLine, h.status, hregs, Bool.true_and]

/-- Settles O14: the write reaches CMD, and its opcode field names the command. -/
theorem commandStartSetsBusy : Obligations.CommandStartSetsBusy := by
  intro s d hready
  exact ⟨s.start (d.extractLsb' 0 4), exec_regWrite_unlocked 0x010 d (unlocked_of_ready hready), rfl, rfl, rfl,
    extract_opcode_toNat d, rfl, seqOpOf_opcodeField d, rfl, rfl, rfl, rfl, rfl, rfl, rfl, rfl, rfl⟩

/-- Settles O20: the write reaches STATUS, which looks at bit 1 alone. -/
theorem statusWriteOneClearsDone : Obligations.StatusWriteOneClearsDone := by
  intro s d hready
  rw [exec_regWrite_unlocked 0x014 d (unlocked_of_ready hready)]
  refine ⟨fun h => ?_, fun h => ?_⟩
  · have hclear : regWrite s d (regAt 0x014) = { s with status := { s.status with done := false } } := if_pos h
    exact ⟨_, congrArg Host.Outcome.next hclear, rfl, rfl⟩
  · have hkeep : regWrite s d (regAt 0x014) = s := if_neg (by rw [h]; exact Bool.false_ne_true)
    exact congrArg Host.Outcome.next hkeep

/-- Settles O37: the checks before the regions, then `regionCheck_order`. -/
theorem sealCheckOrder : Obligations.SealCheckOrder := by
  intro s n
  refine ⟨fun hc => if_pos hc, fun hc => ⟨fun hn => ?_, fun hn => ⟨fun hlong => ?_, fun hmax => ?_⟩⟩⟩
  · rw [sealCheck, if_neg (by simp [hc])]
    exact if_pos hn
  · rw [sealCheck_of_nonce hc hn]
    exact if_pos hlong
  · have hregions : sealCheck Config.params s = regionCheck Config.params s n := by
      rw [sealCheck_of_nonce hc hn]
      exact if_neg (Nat.not_lt.2 hmax)
    rw [hregions]
    exact regionCheck_order s n

/-- Settles O38: the checks before the regions, then `regionCheck_order`. -/
theorem openCheckOrder : Obligations.OpenCheckOrder := by
  intro s n
  refine ⟨fun hc => if_pos hc, fun hc => ⟨fun hn => ?_, fun hn => ⟨fun hshort => ?_, fun hlonger =>
    ⟨fun hlong => ?_, fun hmax => ?_⟩⟩⟩⟩
  · rw [openCheck, if_neg (by simp [hc])]
    exact if_pos hn
  · rw [openCheck_of_nonce hc hn]
    exact if_pos hshort
  · rw [openCheck_of_nonce hc hn]
    exact (if_neg (Nat.not_le.2 hlonger)).trans (if_pos hlong)
  · have hregions : openCheck Config.params s = regionCheck Config.params s n := by
      rw [openCheck_of_nonce hc hn]
      exact (if_neg (Nat.not_le.2 hlonger)).trans (if_neg (Nat.not_lt.2 hmax))
    rw [hregions]
    exact regionCheck_order s n

end Sys2Proof.Machine
end

section
/-!
PROOFS. The statements of 43_sequencer: up to EMIT or VERIFY the next sequencer state is a function of the sequencer's
control alone (43 R249), and every core step of an accepted SEAL or OPEN keeps the number of cipher calls that the
command will have made (43 R246).
-/

namespace Sys2Proof.Machine

variable {c : Params} {s t : State} {e : Engine} {op : BitVec 4} {p : Nat}

/-! ### The control of the sequencer (43 R249) -/

/-- All that decides the sequencer's way to EMIT or VERIFY: the state, the command, the associated-data length, the
number of payload blocks, and the counter of the loop the state stands for. -/
structure Control where
  state : SeqState
  op : SeqOp
  ad : Nat
  m : Nat
  index : Nat

/-- The counter of the current loop: k in AD (43 R237), blk in PAY (R239). Elsewhere both are dead. -/
def Seq.loopIndex (q : Seq) : Nat :=
  match q.state with
  | .ad => q.k
  | .pay => q.blk
  | _ => 0

/-- The control that a sequencer is in, `a` bytes of associated data given. -/
def Seq.control (q : Seq) (a : Nat) : Control :=
  { state := q.state, op := q.op, ad := a, m := q.m, index := q.loopIndex }

/-- The control of the machine. -/
def State.control (t : State) : Control := t.seq.control t.adBytes

/-- Entry into PAY, or past it when there is no payload block (43 R239). -/
def Control.enterPay (x : Control) : Control :=
  if x.m = 0 then { x with state := .plpad, index := 0 } else { x with state := .pay, index := 1 }

/-- The control after one core step, from INIT to TAG (43 R233-R241); beyond, it stays. -/
def Control.next (x : Control) : Control :=
  match x.state with
  | .init => { x with state := .s0 }
  | .s0 => { x with state := .b0 }
  | .b0 => if 0 < x.ad then { x with state := .alen } else x.enterPay
  | .alen => { x with state := .ad, index := 0 }
  | .ad => if x.index + 1 = x.ad then { x with state := .adpad, index := 0 } else { x with index := x.index + 1 }
  | .adpad => x.enterPay
  | .pay => if x.index = x.m then { x with state := .plpad, index := 0 } else { x with index := x.index + 1 }
  | .plpad => { x with state := .tag }
  | .tag => if x.op = .sealCmd then { x with state := .emit } else { x with state := .verify }
  | _ => x

/-- How many core steps the associated data take: one per byte, with ALEN before and ADPAD after (43 R252). -/
def adSteps (a : Nat) : Nat := if a = 0 then 0 else a + 2

theorem adSteps_zero : adSteps 0 = 0 := rfl

theorem adSteps_of_pos {a : Nat} (h : 0 < a) : adSteps a = a + 2 := if_neg (by omega)

/-- How many core steps lead to EMIT or VERIFY (43 R252). -/
def Control.stepsLeft (x : Control) : Nat :=
  match x.state with
  | .init => 5 + adSteps x.ad + x.m
  | .s0 => 4 + adSteps x.ad + x.m
  | .b0 => 3 + adSteps x.ad + x.m
  | .alen => 4 + x.ad + x.m
  | .ad => 3 + (x.ad - x.index) + x.m
  | .adpad => 3 + x.m
  | .pay => 2 + (x.m + 1 - x.index)
  | .plpad => 2
  | .tag => 1
  | _ => 0

theorem Control.stepsLeft_enterPay (x : Control) : x.enterPay.stepsLeft = 2 + x.m := by
  unfold Control.enterPay
  split
  · next hm => simp [stepsLeft, hm]
  · rfl

/-- No core step comes closer to EMIT or VERIFY than by one. -/
theorem Control.stepsLeft_le_next (x : Control) : x.stepsLeft ≤ x.next.stepsLeft + 1 := by
  obtain ⟨state, op, ad, m, index⟩ := x
  cases state with
  | b0 =>
    by_cases ha : 0 < ad
    · simp only [next, if_pos ha, stepsLeft, adSteps_of_pos ha]
      omega
    · obtain rfl : ad = 0 := by omega
      simp only [next, if_neg ha, stepsLeft_enterPay]
      simp only [stepsLeft, adSteps_zero]
      omega
  | adpad =>
    simp only [next, stepsLeft_enterPay]
    simp only [stepsLeft]
    omega
  | ad | pay | tag =>
    simp only [next]
    split <;> simp only [stepsLeft] <;> omega
  | _ =>
    simp only [next, stepsLeft]
    omega

/-- No core step writes AD_LEN (42 R195). -/
theorem coreStep_adBytes (c : Params) (t : State) : (coreStep c t).adBytes = t.adBytes :=
  (congrArg (fun r : Regs => r.adLen.toNat) (coreStep_sameHostSide c t).regs :)

theorem control_coreStep (c : Params) (t : State) : (coreStep c t).control = (coreStep c t).seq.control t.adBytes := by
  rw [State.control, coreStep_adBytes]

theorem control_enterPay (q : Seq) (a : Nat) : (enterPay q).control a = (q.control a).enterPay := by
  by_cases hm : q.m = 0 <;> simp [Seq.control, enterPay, Control.enterPay, Seq.loopIndex, hm]

/-- The control of the next state is a function of the control: the cipher, the nonce and the data bytes take no part
(43 R249). -/
theorem coreStep_control (h : 0 < t.control.stepsLeft) : (coreStep c t).control = t.control.next := by
  rw [control_coreStep]
  unfold State.control at h ⊢
  generalize ha : t.adBytes = a at h ⊢
  cases hst : t.seq.state with
  | init | s0 | alen | plpad =>
    simp [coreStep, hst, Seq.control, Control.next, Seq.loopIndex, actInit, actS0, actAlen, actPlPad]
  | b0 =>
    simp only [coreStep, hst, actB0, ha]
    by_cases hpos : 0 < a
    · simp [Seq.control, Control.next, Seq.loopIndex, hst, hpos]
    · rw [if_neg hpos, control_enterPay]
      simp [Seq.control, Control.next, hst, hpos]
  | adpad =>
    simp only [coreStep, hst, actAdPad, control_enterPay]
    simp [Seq.control, Control.next, hst]
  | ad =>
    by_cases hk : t.seq.k + 1 = a <;>
      simp [coreStep, hst, Seq.control, Control.next, Seq.loopIndex, actAd, ha, hk]
  | pay =>
    by_cases hk : t.seq.blk = t.seq.m <;>
      simp [coreStep, hst, Seq.control, Control.next, Seq.loopIndex, actPay, hk]
  | tag =>
    by_cases hop : t.seq.op = .sealCmd <;>
      simp [coreStep, hst, Seq.control, Control.next, Seq.loopIndex, actTag, hop]
  | _ => simp [Seq.control, Control.stepsLeft, hst] at h

/-- Up to EMIT or VERIFY the control after `k` core steps is a function of the control. -/
theorem iterate_coreStep_control (k : Nat) :
    ∀ {t : State}, k ≤ t.control.stepsLeft → ((coreStep c)^[k] t).control = Control.next^[k] t.control := by
  induction k with
  | zero => exact fun _ => rfl
  | succ k ih =>
    intro t hk
    have hnext := coreStep_control (c := c) (t := t) (by omega)
    have hleft := t.control.stepsLeft_le_next
    rw [Function.iterate_succ_apply, ih (by rw [hnext]; omega), hnext, Function.iterate_succ_apply]

/-! ### An accepted command (43 R232) -/

/-- A SEAL or OPEN that passes its checks, with a payload of `p` bytes. -/
def Accepts (c : Params) (s : State) (op : BitVec 4) (p : Nat) : Prop :=
  (op = 2 ∧ sealCheck c s = .ok ∧ s.regs.inLen.toNat = p) ∨
    (op = 3 ∧ openCheck c s = .ok ∧ s.regs.inLen.toNat - s.tagSize = p)

theorem Accepts.check (h : Accepts c s op p) : coreStep c (s.start op) = acceptPayload (s.start op) p := by
  obtain ⟨rfl, hck, rfl⟩ | ⟨rfl, hck, rfl⟩ := h
  · exact if_pos ((sealCheck_congr rfl rfl).trans hck)
  · exact if_pos ((openCheck_congr rfl rfl).trans hck)

/-- The control that CHECK leaves. -/
def initControl (op : BitVec 4) (a p : Nat) : Control :=
  { state := .init, op := seqOpOf op, ad := a, m := blocks p, index := 0 }

/-- The control of an accepted command after CHECK and `k` more core steps, none of them beyond EMIT or VERIFY. -/
theorem Accepts.control (h : Accepts c s op p) {k : Nat} (hk : k ≤ (initControl op s.adBytes p).stepsLeft) :
    ((coreStep c)^[k + 1] (s.start op)).control = Control.next^[k] (initControl op s.adBytes p) := by
  rw [Function.iterate_succ_apply, h.check]
  exact iterate_coreStep_control k hk

/-- EMIT or VERIFY is two core steps before the end (43 R252, 70_reset R303). -/
theorem initControl_stepsLeft (op : BitVec 4) (a p : Nat) :
    (initControl op a p).stepsLeft + 1 = acceptedSteps a (blocks p) - 2 := by
  show 5 + adSteps a + blocks p + 1 = acceptedSteps a (blocks p) - 2
  obtain rfl | ha := Nat.eq_zero_or_pos a
  · rw [adSteps_zero, acceptedSteps, if_pos rfl]
    omega
  · rw [adSteps_of_pos ha, acceptedSteps, if_neg (by omega)]
    omega

/-! ### The calls on record (43 R246, log 17) -/

/-- How many calls are on record once `n` more bytes are written to the accumulator and padded (40 R151). -/
def Engine.callsAfter (e : Engine) (n : Nat) : Nat := e.calls.length + (e.p.val + n + 15) / 16

theorem callsAfter_of_empty (h : e.p = 0) (n : Nat) : e.callsAfter n = e.calls.length + blocks n := by
  rw [Engine.callsAfter, h, Fin.val_zero, Nat.zero_add, blocks]

theorem callsAfter_write (h : e.port = []) (bs : Bytes) (n : Nat) :
    (accIssue c (accWriteWords bs) e).callsAfter n = e.callsAfter (bs.length + n) := by
  rw [accIssue_write h, Engine.callsAfter, accWriteAll_calls_length, accWriteAll_cursor, Engine.callsAfter]
  omega

theorem callsAfter_cipherCall (b : Block) (n : Nat) : (cipherCall b e).callsAfter n = e.callsAfter n + 1 := by
  simp only [Engine.callsAfter, cipherCall, List.length_append, List.length_singleton]
  omega

theorem accPadZero_calls_eq_callsAfter (e : Engine) : (accPadZero c e).calls.length = e.callsAfter 0 := by
  have hp := e.p.isLt
  rw [accPadZero_calls_length, Engine.callsAfter]
  by_cases h : e.p = 0
  · rw [if_pos h, h]
    rfl
  · have hpos : 0 < e.p.val := Nat.pos_of_ne_zero fun h0 => h (Fin.ext h0)
    rw [if_neg h]
    omega

theorem callsAfter_accPadZero (n : Nat) : (accPadZero c e).callsAfter n = e.callsAfter 0 + blocks n := by
  rw [callsAfter_of_empty (accPadZero_p e), accPadZero_calls_eq_callsAfter]

/-- The bytes that `a` bytes of associated data give the accumulator, the encoded length among them (41 R170). -/
def macBytes (a : Nat) : Nat := (adPrefix a).length + a

theorem macBytes_zero : macBytes 0 = 0 := rfl

/-- The calls on record when the command completes, B0 being still to write: without associated data nothing is padded
between B0 and the payload (43 R235). -/
def Seq.callsFromB0 (q : Seq) (a : Nat) (e : Engine) : Nat :=
  (if 0 < a then e.callsAfter (16 + macBytes a) + blocks q.plen else e.callsAfter (16 + q.plen)) + q.m

/-- The calls on record when the running command completes, forecast in each state from what the states to come write
to the accumulator and from the keystream calls of the payload blocks left. -/
def Seq.finalCalls (q : Seq) (a : Nat) (e : Engine) : Nat :=
  match q.state with
  | .init => e.calls.length + 2 + blocks (macBytes a) + blocks q.plen + q.m
  | .s0 => q.callsFromB0 a e + 1
  | .b0 => q.callsFromB0 a e
  | .alen => e.callsAfter (macBytes a) + blocks q.plen + q.m
  | .ad => e.callsAfter (a - q.k) + blocks q.plen + q.m
  | .adpad => e.callsAfter 0 + blocks q.plen + q.m
  | .pay => e.callsAfter (q.plen - 16 * (q.blk - 1)) + (q.m + 1 - q.blk)
  | .plpad => e.callsAfter 0
  | .tag => e.callsAfter 0
  | _ => e.calls.length

/-- The calls on record when the machine's command completes. -/
def State.finalCalls (t : State) : Nat := t.seq.finalCalls t.adBytes t.eng

/-- The loop counters are within their loops; the command is past CHECK. -/
def Control.InRange (x : Control) : Prop :=
  match x.state with
  | .check => False
  | .alen => 0 < x.ad
  | .ad => x.index < x.ad
  | .pay => 1 ≤ x.index ∧ x.index ≤ x.m
  | _ => True

theorem Control.inRange_enterPay (x : Control) : x.enterPay.InRange := by
  unfold Control.enterPay
  split
  · trivial
  · next hm => exact ⟨le_rfl, Nat.pos_of_ne_zero hm⟩

/-- No loop is left by more than its last step. -/
theorem Control.InRange.next {x : Control} (h : x.InRange) : x.next.InRange := by
  obtain ⟨state, op, ad, m, index⟩ := x
  cases state with
  | b0 =>
    simp only [Control.next]
    split
    · next ha => exact ha
    · exact inRange_enterPay _
  | adpad => exact inRange_enterPay _
  | ad =>
    have hlt : index < ad := h
    simp only [Control.next]
    split
    · trivial
    · show index + 1 < ad
      omega
  | pay =>
    obtain ⟨hpos, hle⟩ : 1 ≤ index ∧ index ≤ m := h
    simp only [Control.next]
    split
    · trivial
    · show 1 ≤ index + 1 ∧ index + 1 ≤ m
      omega
  | tag =>
    simp only [Control.next]
    split <;> trivial
  | _ => exact h

/-- A command on its way from a passed CHECK to its completion. -/
structure OnCourse (t : State) : Prop where
  range : t.control.InRange
  m : t.seq.m = blocks t.seq.plen
  port : t.eng.port = []

/-- From EMIT or VERIFY on no call is made and no loop is entered. -/
theorem coreStep_closing (h : t.control.stepsLeft = 0) (hr : t.control.InRange) (hp : t.eng.port = []) :
    (coreStep c t).control.stepsLeft = 0 ∧ (coreStep c t).control.InRange ∧
      (coreStep c t).eng.calls = t.eng.calls := by
  cases hst : t.seq.state with
  | check => simp [State.control, Seq.control, Control.InRange, hst] at hr
  | idle | reserved15 =>
    have hstep : coreStep c t = t := by unfold coreStep; rw [hst]
    rw [hstep]
    exact ⟨h, hr, rfl⟩
  | emit =>
    have hstep : coreStep c t = actEmit c t := by unfold coreStep; rw [hst]
    rw [hstep]
    exact ⟨rfl, trivial, rfl⟩
  | wipe =>
    have hstep : coreStep c t = actWipe c t := by unfold coreStep; rw [hst]
    rw [hstep]
    exact ⟨rfl, trivial, rfl⟩
  | verify =>
    have hstep : coreStep c t = actVerify c t := by unfold coreStep; rw [hst]
    rw [hstep]
    refine ⟨?_, ?_, rfl⟩ <;> simp only [State.control, Seq.control, actVerify]
    · split <;> rfl
    · split <;> trivial
  | done =>
    have hstep : coreStep c t = actDone c t := by unfold coreStep; rw [hst]
    rw [hstep]
    refine ⟨rfl, trivial, ?_⟩
    simp only [actDone, State.finish_eng, commandResults]
    split
    · split
      · exact (congrArg Engine.calls (accIssue_reset (c := c) hp) :)
      · rfl
    all_goals rfl
  | _ => simp [State.control, Seq.control, Control.stepsLeft, hst] at h

theorem OnCourse.step (h : OnCourse t) : OnCourse (coreStep c t) := by
  obtain ⟨hrange, hm, hport⟩ := h
  have hcheck : t.seq.state ≠ .check := fun hst => by
    simp [State.control, Seq.control, Control.InRange, hst] at hrange
  obtain ⟨hplen, hm', -⟩ := coreStep_payload (c := c) hcheck
  refine ⟨?_, by rw [hm', hplen, hm], coreStep_port (.inl hport)⟩
  obtain h0 | hpos := Nat.eq_zero_or_pos t.control.stepsLeft
  · obtain ⟨-, hclosing, -⟩ := coreStep_closing (c := c) h0 hrange hport
    exact hclosing
  · rw [coreStep_control hpos]
    exact hrange.next

theorem finalCalls_of_closing (h : t.control.stepsLeft = 0) : t.finalCalls = t.eng.calls.length := by
  unfold State.finalCalls Seq.finalCalls
  cases hst : t.seq.state with
  | check | idle | reserved15 | emit | wipe | verify | done => rfl
  | _ => simp [State.control, Seq.control, Control.stepsLeft, hst] at h

theorem finalCalls_enterPay {q : Seq} (hm : q.m = blocks q.plen) (a : Nat) (e : Engine) :
    (enterPay q).finalCalls a e = e.callsAfter q.plen + q.m := by
  by_cases h0 : q.m = 0
  · have hp : q.plen = 0 := by
      rw [h0, blocks] at hm
      omega
    simp [enterPay, Seq.finalCalls, h0, hp]
  · simp [enterPay, Seq.finalCalls, h0]

/-- PAY feeds the accumulator the payload block, whichever command runs (43 R239). -/
theorem coreStep_pay_callsAfter (hst : t.seq.state = .pay) (hp : t.eng.port = []) (n : Nat) :
    (coreStep c t).eng.callsAfter n =
      t.eng.callsAfter (min 16 (t.seq.plen - 16 * (t.seq.blk - 1)) + n) + 1 := by
  have hport : ∀ b, (cipherCall b t.eng).port = [] := fun _ => hp
  simp only [coreStep, hst, actPay]
  rw [callsAfter_write (hport _), callsAfter_cipherCall]
  congr 3
  split <;> simp

theorem finalCalls_coreStep (c : Params) (t : State) :
    (coreStep c t).finalCalls = (coreStep c t).seq.finalCalls t.adBytes (coreStep c t).eng := by
  rw [State.finalCalls, coreStep_adBytes]

theorem OnCourse.coreStep_ad_finalCalls (h : OnCourse t) (hst : t.seq.state = .ad) :
    (coreStep c t).seq.finalCalls t.adBytes (coreStep c t).eng =
      t.seq.finalCalls t.adBytes t.eng := by
  have hk : t.seq.k < t.adBytes := by
    simpa [State.control, Seq.control, Control.InRange, Seq.loopIndex, hst] using h.range
  simp only [coreStep, hst, actAd]
  by_cases hlast : t.seq.k + 1 = t.adBytes
  · simp only [if_pos hlast, Seq.finalCalls, hst, callsAfter_write h.port, List.length_singleton]
    rw [show t.adBytes - t.seq.k = 1 by omega]
  · simp only [if_neg hlast, Seq.finalCalls, hst, callsAfter_write h.port, List.length_singleton]
    rw [show 1 + (t.adBytes - (t.seq.k + 1)) = t.adBytes - t.seq.k by omega]

theorem OnCourse.coreStep_pay_finalCalls (h : OnCourse t) (hst : t.seq.state = .pay) :
    (coreStep c t).seq.finalCalls t.adBytes (coreStep c t).eng =
      t.seq.finalCalls t.adBytes t.eng := by
  obtain ⟨hblk, hle⟩ : 1 ≤ t.seq.blk ∧ t.seq.blk ≤ t.seq.m := by
    simpa [State.control, Seq.control, Control.InRange, Seq.loopIndex, hst] using h.range
  have hm : t.seq.m = (t.seq.plen + 15) / 16 := h.m
  have hcalls := coreStep_pay_callsAfter (c := c) hst h.port
  generalize (coreStep c t).eng = u at hcalls ⊢
  simp only [coreStep, hst, actPay]
  by_cases hlast : t.seq.blk = t.seq.m
  · have hrest : min 16 (t.seq.plen - 16 * (t.seq.blk - 1)) + 0 = t.seq.plen - 16 * (t.seq.blk - 1) := by omega
    simp only [if_pos hlast, Seq.finalCalls, hst, hcalls, hrest]
    omega
  · have hrest : min 16 (t.seq.plen - 16 * (t.seq.blk - 1)) + (t.seq.plen - 16 * (t.seq.blk + 1 - 1)) =
        t.seq.plen - 16 * (t.seq.blk - 1) := by omega
    simp only [if_neg hlast, Seq.finalCalls, hst, hcalls, hrest]
    omega

/-- No core step of an accepted command changes the number of calls it ends with. -/
theorem OnCourse.coreStep_finalCalls (h : OnCourse t) : (coreStep c t).finalCalls = t.finalCalls := by
  have ⟨hrange, hm, hport⟩ := h
  obtain h0 | hpos := Nat.eq_zero_or_pos t.control.stepsLeft
  · obtain ⟨hclosing, -, hcalls⟩ := coreStep_closing (c := c) h0 hrange hport
    rw [finalCalls_of_closing h0, finalCalls_of_closing hclosing, hcalls]
  rw [finalCalls_coreStep, State.finalCalls]
  cases hst : t.seq.state with
  | init =>
    simp only [coreStep, hst, actInit, Seq.finalCalls, Seq.callsFromB0, accIssue_reset hport]
    rw [callsAfter_of_empty rfl, callsAfter_of_empty rfl]
    split
    · simp only [blocks, accReset]
      omega
    · next ha =>
      obtain ha : t.adBytes = 0 := by omega
      simp only [ha, macBytes_zero, blocks, accReset]
      omega
  | s0 =>
    simp only [coreStep, hst, actS0, Seq.finalCalls, Seq.callsFromB0, callsAfter_cipherCall]
    split <;> omega
  | b0 =>
    simp only [coreStep, hst, actB0]
    by_cases ha : 0 < t.adBytes
    · simp only [if_pos ha, Seq.finalCalls, Seq.callsFromB0, hst, callsAfter_write hport, Vector.length_toList]
    · rw [if_neg ha, finalCalls_enterPay hm, callsAfter_write hport, Vector.length_toList]
      simp only [Seq.finalCalls, Seq.callsFromB0, hst, if_neg ha]
  | alen =>
    simp only [coreStep, hst, actAlen, Seq.finalCalls, callsAfter_write hport, Nat.sub_zero, macBytes]
  | ad => exact h.coreStep_ad_finalCalls hst
  | adpad =>
    simp only [coreStep, hst, actAdPad, finalCalls_enterPay hm, accIssue_padZero hport, callsAfter_accPadZero]
    simp only [Seq.finalCalls, hst]
  | pay => exact h.coreStep_pay_finalCalls hst
  | plpad =>
    simp only [coreStep, hst, actPlPad, Seq.finalCalls, accIssue_padZero hport, callsAfter_accPadZero]
    rfl
  | tag =>
    simp only [coreStep, hst, actTag, accIssue_sum hport]
    by_cases hop : t.seq.op = .sealCmd
    · simp only [if_pos hop, Seq.finalCalls, hst]
      exact accPadZero_calls_eq_callsAfter t.eng
    · simp only [if_neg hop, Seq.finalCalls, hst]
      exact accPadZero_calls_eq_callsAfter t.eng
  | _ => simp [State.control, Seq.control, Control.stepsLeft, hst] at hpos

/-- Nor does a run of core steps. -/
theorem OnCourse.runCore_finalCalls (fuel : Nat) :
    ∀ {t : State}, OnCourse t → (runCore c fuel t).finalCalls = t.finalCalls := by
  induction fuel with
  | zero => exact fun _ => rfl
  | succ fuel ih =>
    intro t h
    rw [runCore]
    split
    · rfl
    · rw [ih h.step, h.coreStep_finalCalls]

/-- An accepted command, idle again, has made the calls that the sequencer forecast after CHECK. -/
theorem Accepts.calls (h : Accepts c s op p) (hl : s.locked = false) (hw : Memory.wf c s.buf) (hp : s.eng.port = []) :
    (runCommand c op s).eng.calls.length =
      s.eng.calls.length + (2 + blocks (macBytes s.adBytes) + 2 * blocks p) := by
  have hcourse : OnCourse (acceptPayload (s.start op) p) := ⟨trivial, rfl, hp⟩
  have hrun : runCommand c op s =
      runCore c (10 + s.adBytes + blocks s.regs.inLen.toNat) (acceptPayload (s.start op) p) := by
    have hfuel : commandFuel s = 10 + s.adBytes + blocks s.regs.inLen.toNat + 1 := by
      rw [commandFuel]
      omega
    rw [runCommand, if_neg (by simp [hl]), hfuel, runCore, if_neg (by simp), h.check]
  obtain ⟨code, hdone⟩ := runCommand_completes hl hw op
  have hidle := (State.busy_eq_false_iff _).1 hdone.busy
  have hfinal : (runCommand c op s).finalCalls = (runCommand c op s).eng.calls.length := by
    simp only [State.finalCalls, Seq.finalCalls, hidle]
  rw [← hfinal, hrun, hcourse.runCore_finalCalls]
  show s.eng.calls.length + 2 + blocks (macBytes s.adBytes) + blocks p + blocks p = _
  omega

/-! ### The statements -/

/-- Settles O49: both commands start in CHECK, which leaves both the same control. -/
theorem stateSequenceDataIndependent : Obligations.StateSequenceDataIndependent := by
  intro c₁ c₂ s₁ s₂ op p _ _ had hcmd k hk
  have haccepts : Accepts c₁ s₁ op p ∧ Accepts c₂ s₂ op p := by
    obtain ⟨hop, h₁, h₂, hp₁, hp₂⟩ | ⟨hop, h₁, h₂, hp₁, hp₂⟩ := hcmd
    · exact ⟨.inl ⟨hop, h₁, hp₁⟩, .inl ⟨hop, h₂, hp₂⟩⟩
    · exact ⟨.inr ⟨hop, h₁, by omega⟩, .inr ⟨hop, h₂, by omega⟩⟩
  obtain ⟨h₁, h₂⟩ := haccepts
  have hads : s₁.adBytes = s₂.adBytes := congrArg BitVec.toNat had
  cases k with
  | zero => rfl
  | succ k =>
    have hleft : k ≤ (initControl op s₁.adBytes p).stepsLeft := by
      have := initControl_stepsLeft op s₁.adBytes p
      simp only [State.adBytes] at this ⊢
      omega
    have hsame : ((coreStep c₁)^[k + 1] (s₁.start op)).control =
        ((coreStep c₂)^[k + 1] (s₂.start op)).control := by
      rw [h₁.control hleft, h₂.control (hads ▸ hleft), hads]
    exact congrArg Control.state hsame

/-- Settles O50: the forecast after CHECK is kept to the end. -/
theorem cipherCallCounts : Obligations.CipherCallCounts := by
  intro s hready hw hp a la
  have hl := unlocked_of_ready hready
  have hla : macBytes s.adBytes = la := by
    by_cases ha : a = 0
    · have hzero : s.adBytes = 0 := ha
      simp only [la, if_pos ha, hzero, macBytes_zero]
    · exact (if_neg ha).symm
  refine ⟨fun hck => ⟨_, rfl, ?_⟩, fun hck => ⟨_, rfl, ?_⟩⟩
  · have h : Accepts Config.params s 2 s.regs.inLen.toNat := .inl ⟨rfl, hck, rfl⟩
    rw [h.calls hl hw hp, hla]
    rfl
  · have h : Accepts Config.params s 3 (s.regs.inLen.toNat - s.tagSize) := .inr ⟨rfl, hck, rfl⟩
    rw [h.calls hl hw hp, hla]
    rfl

end Sys2Proof.Machine
end

section
/-!
PROOFS. The statements of 60_exceptions: the machine's one fault is out of reach, since no operation raises it (60 R260)
and the sequencer value that does is never entered (43 R230); and the interrupt line is a level that an IRQ_EN write
moves at once (60 R274).
-/

namespace Sys2Proof.Machine

variable {c : Params} {s : State}

/-! ### Every step answers (60 R260, 43 R230) -/

/-- No operation faults or is refused, in any state (60 R260). -/
theorem exec_answers (i : Instr) (s : State) : ∃ t, exec i s = .next t := by
  cases i <;> exact ⟨_, rfl⟩

/-- The core answers everywhere but at the state value 15. -/
theorem coreEvent_answers (h : s.seq.state ≠ .reserved15) : ∃ t, coreEvent c s = .next t := by
  by_cases hr : s.rst = true
  · exact ⟨s, coreEvent_held hr⟩
  · exact ⟨coreStep c s, coreEvent_steps (Bool.eq_false_iff.2 hr) h⟩

theorem Inv.not_reserved15 (h : Inv c s) : s.seq.state ≠ .reserved15 := by
  intro h15
  have hfalse := h.sequencer
  simp only [SequencerOk, h15] at hfalse

/-- Taking in the next action leaves the sequencer as it is. -/
theorem nextAction_seq (s : State) : (nextAction s).2.seq = s.seq := by
  obtain ⟨⟨es, ws, htaken⟩, -⟩ := nextAction_keeps s
  rw [htaken]

/-! ### The interrupt line (60 R274) -/

/-- A write to IRQ_EN puts DONE_IE on the line at once where DONE = 1, and leaves STATUS as it is. -/
theorem regWrite_irqEn (s : State) (d : Word) :
    (regWrite s d .irqEn).status = s.status ∧
      irqLine (regWrite s d .irqEn) = (s.status.done && d.getLsbD 0) := ⟨rfl, rfl⟩

/-! ### The statements -/

/-- Settles O54: by the next action, of which only a core step can fault, and only at the state value 15. -/
theorem stepAlwaysAnswers : Obligations.StepAlwaysAnswers := by
  intro s hinv
  match hact : nextAction s with
  | (.run i, u) =>
    rw [step_of_run hact]
    exact exec_answers i u
  | (.core, u) =>
    have hseq : u.seq = s.seq := by rw [← nextAction_seq s, hact]
    rw [step_of_core hact]
    exact coreEvent_answers (hseq ▸ hinv.not_reserved15)
  | (.reset level, u) => exact ⟨_, step_of_reset hact⟩

/-- Settles O60: 0x018 is the offset of IRQ_EN, so the write is the one of `regWrite_irqEn`. -/
theorem interruptLineIsLevel : Obligations.InterruptLineIsLevel := by
  intro s d hready
  have hreg : regAt 0x018 = .irqEn := by decide
  refine ⟨_, exec_regWrite_unlocked 0x018 d (unlocked_of_ready hready), ?_⟩
  rw [hreg]
  exact regWrite_irqEn s d

end Sys2Proof.Machine
end

section
/-!
PROOFS. The statements of 70_reset_and_hazards: the state after reset and what the reset input makes of any state, the
bytes that an aborted command leaves in its OUT region, that a core held in reset serves nothing, and how many core
steps each command takes.
-/

namespace Sys2Proof.Machine

variable {c : Params} {s t : State} {op : BitVec 4} {i : Instr}

/-! ### The state after reset (70_reset R291) -/

theorem inv_stateReset (c : Params) : Inv c State.reset where
  inst := ⟨rfl, rfl⟩
  buffer := ⟨⟨List.Pairwise.nil, List.forall_mem_nil _⟩, List.forall_mem_nil _⟩
  scratch := by decide
  heldIdle := fun _ => rfl
  sequencer := trivial
  outside := fun _ _ _ => rfl

/-- A nonce byte after reset, as a register read takes it. -/
theorem zeroBlock_getD (k : Nat) : zeroBlock[k]?.getD 0#8 = 0#8 := by
  rw [zeroBlock, Vector.getElem?_replicate]
  split <;> rfl

/-- With ACTIVE_CFG, STATUS and the stored registers at reset, only the three constant registers read as another value
than 0. -/
theorem regValue_of_reset (hregs : t.regs = Regs.reset) (hstatus : t.status = Status.reset)
    (hinst : t.inst = Instance.none) (hidle : t.seq.state = .idle) (w : Nat) :
    regValue t w =
      if w = 0x000 then 0x43434D01
      else if w = 0x004 then Config.params.cipherBs.toNat * 65536 + 16 * 256 + 16
      else if w = 0x008 then Config.params.bufBytes
      else 0 := by
  simp [regValue, hregs, hstatus, hinst, hidle, Regs.reset, Status.reset, Instance.none, ResultCode.bits, bitNat,
    zeroBlock_getD]

/-! ### The reset input (70_reset R290, log 15) -/

/-- While rst is 1, and when it falls, the state is that of reset. -/
theorem resetEvent_of_held {level : Bool} (h : level = true ∨ s.rst = true) :
    resetEvent c level s = { resetState c s with rst := level } := if_pos (Bool.or_eq_true_iff.2 h)

theorem resetEvent_staying_low (h : s.rst = false) : resetEvent c false s = s := by
  rw [resetEvent, h, Bool.or_self, if_neg Bool.false_ne_true]

/-- A buffer that no command was writing is unchanged (70_reset R292). -/
theorem bufAfterReset_idle (h : s.busy = false) : bufAfterReset c s = s.buf := by
  rw [bufAfterReset, abortedOutput_idle h, abortBytes, Memory.writeBytes]

/-! ### The output of an aborted command (70_reset R293, log 8) -/

theorem abortByte_cases (pick : Fin 3) (old new : Byte) :
    abortByte pick old new = old ∨ abortByte pick old new = new ∨ abortByte pick old new = 0 := by
  unfold abortByte
  split_ifs
  · exact .inl rfl
  · exact .inr (.inl rfl)
  · exact .inr (.inr rfl)

theorem abortBytes_getD (m : Memory) (draw : Nat) {bs : Bytes} :
    ∀ {off k : Nat}, k < bs.length → (abortBytes c m draw off bs).getD k 0 =
      abortByte (c.abortPick draw (off + k)) (Memory.read c m (off + k)) (bs.getD k 0) := by
  induction bs with
  | nil => exact fun hk => absurd hk (Nat.not_lt_zero _)
  | cons b bs ih =>
    intro off k hk
    cases k with
    | zero => rfl
    | succ k =>
      rw [abortBytes, List.getD_cons_succ, List.getD_cons_succ, ih (Nat.lt_of_succ_lt_succ hk),
        Nat.add_right_comm, Nat.add_assoc]

/-- The state of a running command with the buffer its command began with. -/
def State.atStart (s : State) : State := { s with buf := s.bufStart }

/-- An aborted SEAL was writing CCMSeal of the operands at its start. -/
theorem abortedOutput_seal (hb : s.busy = true) (hop : s.seq.op = .sealCmd) (hck : sealCheck c s = .ok) :
    abortedOutput c s = sealedBytes c s.atStart := by
  simp only [abortedOutput, hb, hop, hck, Bool.true_eq_false, if_false, if_true]
  rfl

/-- An aborted OPEN was writing the plaintext recovered from the operands at its start. -/
theorem abortedOutput_open (hb : s.busy = true) (hop : s.seq.op = .openCmd) (hck : openCheck c s = .ok) :
    abortedOutput c s = ctrXor c s.nonceSize (cmdNonce s)
      ((cmdInput c s.atStart s.regs.inLen.toNat).take (s.regs.inLen.toNat - s.tagSize)) := by
  simp only [abortedOutput, hb, hop, hck, Bool.true_eq_false, if_false, if_true]
  rfl

/-- Only a SEAL or OPEN that passed its checks has output bytes. -/
theorem checked_of_outputBytes_pos (h : 0 < outputBytes c s) :
    (s.seq.op = .sealCmd ∧ sealCheck c s = .ok) ∨ (s.seq.op = .openCmd ∧ openCheck c s = .ok) := by
  unfold outputBytes at h
  cases hop : s.seq.op with
  | configure | illegal => simp [hop] at h
  | sealCmd =>
    simp only [hop] at h
    exact .inl ⟨rfl, by_contra fun hck => absurd h (by simp [hck])⟩
  | openCmd =>
    simp only [hop] at h
    exact .inr ⟨rfl, by_contra fun hck => absurd h (by simp [hck])⟩

/-- A byte after a reset: one of the three values inside the OUT region of the command aborted, as before outside. -/
theorem read_bufAfterReset (hi : Inv c s) (hb : s.busy = true) (a : Nat) :
    Memory.read c (bufAfterReset c s) a =
      if s.regs.outOff.toNat ≤ a ∧ a < s.regs.outOff.toNat + outputBytes c s then
        abortByte (c.abortPick s.draws a) (Memory.read c s.bufStart a)
          ((abortedOutput c s).getD (a - s.regs.outOff.toNat) 0)
      else Memory.read c s.bufStart a := by
  have hlen := abortedOutput_length (c := c) hi.inst hb
  rw [bufAfterReset, Memory.read_writeBytes hi.buffer.1, abortBytes_length, hlen]
  split_ifs with ha
  · rw [abortBytes_getD _ _ (by omega), Nat.add_sub_cancel' ha.1]
  · exact hi.outside hb a ha

/-! ### Held in reset (70_reset R290) -/

theorem locked_of_held (h : s.rst = true) : s.locked = true := by
  rw [State.locked, h, Bool.true_or]

theorem onEngine_held (f : Engine → Engine) (h : s.rst = true) : onEngine f s = s := if_pos h

theorem exec_regRead_held (a : BitVec 12) (h : s.rst = true) : exec (.regRead a) s = .next { s with rdata := 0 } := by
  rw [exec, execRegRead, doRegRead, if_pos h]

theorem exec_acc_held (hf : formatOf i = .acc) (h : s.rst = true) : exec i s = .next s := by
  cases i with
  | accReset | accWrite _ | accPadZero | accSum => exact congrArg _ (onEngine_held _ h)
  | _ => cases hf

theorem exec_cmd_locked (hf : formatOf i = .cmd) (h : s.locked = true) : exec i s = .next s := by
  rw [exec_opcodeOf hf, runCommand, if_pos h]

/-! ### The number of core steps (70_reset R303, 43 R252) -/

/-- The command is busy for `n` core steps and idle after them. -/
def BusyFor (n : Nat) (s : State) : Prop :=
  (∀ k, k < n → (coreSteps k s).busy = true) ∧ (coreSteps n s).busy = false

theorem Reaches.busyFor {n : Nat} (h : Reaches Config.params n s t) (ht : t.seq.state = .idle) : BusyFor n s := by
  obtain ⟨hn, hbusy⟩ := h
  refine ⟨fun k hk => decide_eq_true (hbusy k hk), ?_⟩
  rw [coreSteps, hn]
  exact (State.busy_eq_false_iff t).2 ht

/-- A command that CHECK sends to DONE takes two core steps. -/
theorem busyFor_two (h : (coreStep Config.params (s.start op)).seq.state = .done) : BusyFor 2 (s.start op) :=
  (two_step_reaches rfl h).busyFor rfl

/-- From CHECK to EMIT or VERIFY, and the two steps that end an accepted command there. -/
theorem stepsToTag_start (op : BitVec 4) (s : State) (p : Nat) :
    2 + stepsToTag (s.start op) p = acceptedSteps s.regs.adLen.toNat (blocks p) := by
  have had : (s.start op).adBytes = s.regs.adLen.toNat := rfl
  rw [stepsToTag, acceptedSteps, had]
  split_ifs <;> omega

theorem seal_busyFor (hw : BufWf s) (hck : sealCheck Config.params s = .ok) :
    BusyFor (acceptedSteps s.regs.adLen.toNat (blocks s.regs.inLen.toNat)) (s.start 2) := by
  obtain ⟨u, hu, hsealed⟩ := seal_reaches (s := s.start 2) rfl rfl ((sealCheck_congr rfl rfl).trans hck) hw
  rw [← stepsToTag_start 2]
  exact hu.busyFor hsealed.idle

/-- An accepted OPEN, by whether CCMOpen rejects its operands: the wipe is one step more. -/
theorem open_busyFor (hw : BufWf s) (hck : openCheck Config.params s = .ok) :
    let result := ccmOpen Config.params s.nonceSize s.tagSize (operandNonce s) (operandAd s) (operandInput s)
    let n := acceptedSteps s.regs.adLen.toNat (blocks (s.regs.inLen.toNat - s.tagSize))
    BusyFor (if result = .error .authenticationFailed then n + 1 else n) (s.start 3) := by
  intro result n
  have hn : 2 + stepsToTag (s.start 3) (s.regs.inLen.toNat - s.tagSize) = n := stepsToTag_start 3 s _
  obtain ⟨haccept, hreject⟩ := open_reaches (s := s.start 3) (p := s.regs.inLen.toNat - s.tagSize) rfl rfl
    ((openCheck_congr rfl rfl).trans hck) hw rfl
  obtain ⟨-, hmatch, hfail⟩ := open_result hck rfl
  by_cases hm : cmdTagMatches Config.params (s.start 3) (s.regs.inLen.toNat - s.tagSize)
  · obtain ⟨u, hu, hopened⟩ := haccept hm
    have hok : result ≠ .error .authenticationFailed := (hmatch hm).trans_ne nofun
    rw [if_neg hok, ← hn]
    exact hu.busyFor hopened.idle
  · obtain ⟨u, hu, hopened⟩ := hreject hm
    have hfailed : result = .error .authenticationFailed := hfail hm
    rw [if_pos hfailed, show n + 1 = 3 + stepsToTag (s.start 3) (s.regs.inLen.toNat - s.tagSize) by omega]
    exact hu.busyFor hopened.idle

/-! ### The obligations -/

/-- Settles O52: nothing is listed in the buffer, and the core is idle and not configured. -/
theorem resetStateMeetsInvariant : Obligations.ResetStateMeetsInvariant := inv_stateReset Config.params

/-- Settles O9: whatever the state was, the reset state takes its place, the buffer apart. -/
theorem resetEventGivesResetValues : Obligations.ResetEventGivesResetValues := by
  refine ⟨fun level s h => ?_, fun s => resetEvent_staying_low⟩
  rw [resetEvent_of_held h]
  exact ⟨rfl, regValue_of_reset rfl rfl rfl rfl, rfl, rfl, rfl, rfl, rfl, rfl, rfl, rfl, rfl, rfl, rfl, rfl, rfl, rfl,
    rfl, rfl, rfl, rfl, rfl, bufAfterReset_idle⟩

/-- Settles O10: the byte is one of the three of `abortByte`, and the command's value is the SEAL's or the OPEN's. -/
theorem abortedCommandOutput : Obligations.AbortedCommandOutput := by
  intro s hi hb
  rw [resetEvent_of_held (.inl rfl)]
  refine ⟨fun a ha => (read_bufAfterReset hi hb a).trans (if_neg ha), fun k hk => ?_⟩
  have hbyte := read_bufAfterReset hi hb (s.regs.outOff.toNat + k)
  rw [if_pos (by omega), Nat.add_sub_cancel_left] at hbyte
  obtain hold | hnew | hzero := abortByte_cases (Config.params.abortPick s.draws (s.regs.outOff.toNat + k))
    (Memory.read Config.params s.bufStart (s.regs.outOff.toNat + k)) ((abortedOutput Config.params s).getD k 0)
  · exact .inl (hbyte.trans hold)
  · have hvalue := hbyte.trans hnew
    obtain ⟨hop, hck⟩ | ⟨hop, hck⟩ := checked_of_outputBytes_pos (Nat.zero_lt_of_lt hk)
    · rw [abortedOutput_seal hb hop hck] at hvalue
      have hcheck : sealCheck Config.params s.atStart = .ok := (sealCheck_congr rfl rfl).trans hck
      exact .inr (.inr (.inl ⟨hop, _, ccmSeal_operands hcheck, hvalue⟩))
    · rw [abortedOutput_open hb hop hck] at hvalue
      exact .inr (.inr (.inr ⟨hop, hvalue⟩))
  · exact .inr (.inl (hbyte.trans hzero))

/-- Settles O11: a held core is locked to the host, and it runs neither a port word nor a core step. -/
theorem heldInResetServesNothing : Obligations.HeldInResetServesNothing := by
  intro s h
  have hl := locked_of_held h
  refine ⟨fun a => exec_regRead_held a h, fun a => exec_bufRead_locked a hl, fun i _ hreg hbuf => ?_,
    coreEvent_held h⟩
  cases hf : formatOf i with
  | acc => exact exec_acc_held hf h
  | cmd => exact exec_cmd_locked hf hl
  | bus =>
    cases i with
    | regRead a => exact absurd rfl (hreg a)
    | bufRead a => exact absurd rfl (hbuf a)
    | regWrite a d => exact exec_regWrite_locked a d hl
    | bufWrite a d be => exact exec_bufWrite_locked a d be hl
    | _ => cases hf

/-- Settles O47: an accepted command goes through its phases, every other one from CHECK to DONE. -/
theorem coreStepCounts : Obligations.CoreStepCounts := by
  intro s op _ _ hw a p n
  show BusyFor n (s.start op)
  obtain rfl | rfl | rfl | ⟨hop, -, h2, h3⟩ := opcode_cases op
  · exact busyFor_two (by rw [check_configure])
  · show BusyFor (if sealCheck Config.params s = .ok then _ else 2) _
    by_cases hck : sealCheck Config.params s = .ok
    · rw [if_pos hck]
      exact seal_busyFor hw hck
    · rw [if_neg hck]
      exact busyFor_two (by rw [check_seal_fails hck]; rfl)
  · show BusyFor (if openCheck Config.params s = .ok then _ else 2) _
    by_cases hck : openCheck Config.params s = .ok
    · rw [if_pos hck]
      exact open_busyFor hw hck
    · rw [if_neg hck]
      exact busyFor_two (by rw [check_open_fails hck]; rfl)
  · have hn : n = 2 := by simp only [n, if_neg h2, if_neg h3]
    rw [hn]
    exact busyFor_two (by rw [check_illegal hop])

end Sys2Proof.Machine
end

section
/-!
PROOFS. The statements of 10_state. What an operation and what a step can do is said once (`exec_effect`,
`step_effect`); from it follow that every step keeps the invariant and which steps write ACTIVE_CFG, CONFIGURED and
OUT_LEN. Then what a written register reads back as, and that the nonce store's tail takes no part in a command.
-/

namespace Sys2Proof.Machine

variable {c : Params} {s t : State} {i : Instr} {op : BitVec 4} {nb : Block}

/-! ### What an operation can do -/

/-- What an operation leaves: the run of a command, another accumulator, another read-data output, or what a host
write leaves. -/
inductive ExecEffect (i : Instr) (s : State) : State → Prop
  | command (hf : formatOf i = .cmd) : ExecEffect i s (runCommand Config.params (opcodeOf i) s)
  | engine (e : Engine) : ExecEffect i s { s with eng := e }
  | rdata (d : Word) : ExecEffect i s { s with rdata := d }
  | bufWrite (a d : Word) (be : BitVec 4) : ExecEffect i s (doBufWrite Config.params a d be s)
  | regWrite (a : BitVec 12) (d : Word) : ExecEffect i s (doRegWrite a d s)

theorem execEffect_onEngine (f : Engine → Engine) : ExecEffect i s (onEngine f s) := by
  unfold onEngine
  split
  · exact .engine s.eng
  · exact .engine (f s.eng)

theorem exec_effect (h : exec i s = .next t) : ExecEffect i s t := by
  cases i with
  | regRead a => cases h; exact .rdata _
  | bufRead a => cases h; exact .rdata _
  | regWrite a d => cases h; exact .regWrite a d
  | bufWrite a d be => cases h; exact .bufWrite a d be
  | accReset | accWrite _ | accPadZero | accSum => cases h; exact execEffect_onEngine _
  | _ => cases h; exact .command rfl

/-- A BUF_WRITE is dropped, or the core is unlocked and a word inside the buffer is written (42 R193). -/
theorem doBufWrite_cases (a d : Word) (be : BitVec 4) (s : State) :
    doBufWrite c a d be s = s ∨ (s.locked = false ∧ bufWordOffset a + 4 ≤ c.bufBytes ∧
      doBufWrite c a d be s = { s with buf := Memory.writeWord c s.buf (bufWordOffset a) d be }) := by
  unfold doBufWrite
  split
  · exact .inl rfl
  · next h =>
    simp only [Bool.or_eq_true, Bool.not_eq_true', bufWordInside, decide_eq_false_iff_not, not_or, not_not,
      Bool.not_eq_true] at h
    exact .inr ⟨h.1, h.2, rfl⟩

/-- A write that reaches the register window starts a command, or writes registers other than OUT_LEN and STATUS alone
(42 R191, 10_state R48). -/
theorem regWrite_cases (s : State) (d : Word) (r : Reg) :
    regWrite s d r = s.start (d.extractLsb' 0 4) ∨
      ∃ rg st, regWrite s d r = { s with regs := rg, status := st } ∧ rg.outLen = s.regs.outLen := by
  cases r with
  | cmd => exact .inl rfl
  | status => exact .inr ⟨s.regs, _, State.acknowledge_eq d s, rfl⟩
  | _ => exact .inr ⟨_, s.status, rfl, rfl⟩

/-- A REG_WRITE is ignored, or the core is unlocked and the write reaches the window (42 R191). -/
theorem doRegWrite_cases (a : BitVec 12) (d : Word) (s : State) :
    doRegWrite a d s = s ∨ (s.locked = false ∧ doRegWrite a d s = regWrite s d (regAt a)) := by
  unfold doRegWrite
  split
  · exact .inl rfl
  · next h => exact .inr ⟨by simpa using h, rfl⟩

theorem coreEvent_cases (h : coreEvent c s = .next t) : t = s ∨ (s.rst = false ∧ t = coreStep c s) := by
  unfold coreEvent at h
  split at h
  · cases h; exact .inl rfl
  · next hr =>
    split at h
    · cases h
    · cases h; exact .inr ⟨by simpa using hr, rfl⟩

/-! ### What a step can do -/

/-- What a step from `s` leaves: it takes in an event or a port word, which gives `u`, and then runs a well-formed
operation, lets the core step, or gives the reset input a level (logs 3, 5). -/
inductive StepEffect (s t u : State) : Prop
  | run (i : Instr) (hact : (nextAction s).1 = .run i) (hwf : i.wellFormed = true) (h : exec i u = .next t)
  | core (hact : (nextAction s).1 = .core) (h : coreEvent Config.params u = .next t)
  | reset (l : Bool) (hact : (nextAction s).1 = .reset l) (h : t = resetEvent Config.params l u)

theorem step_effect (h : step s = .next t) : ∃ e es, StepEffect s t { s with eng := e, inbox := es } := by
  obtain ⟨⟨es, ws, hu⟩, hwf⟩ := nextAction_keeps s
  refine ⟨{ s.eng with port := ws }, es, ?_⟩
  rw [← hu]
  match hact : nextAction s with
  | (.run i, u) =>
    rw [step_of_run hact] at h
    exact .run i (congrArg Prod.fst hact) (hwf i (congrArg Prod.fst hact)) h
  | (.core, u) =>
    rw [step_of_core hact] at h
    exact .core (congrArg Prod.fst hact) h
  | (.reset l, u) =>
    rw [step_of_reset hact] at h
    cases h
    exact .reset l (congrArg Prod.fst hact) rfl

/-! ### The invariant -/

theorem inv_doBufWrite (a d : Word) (be : BitVec 4) (hi : Inv c s) : Inv c (doBufWrite c a d be s) := by
  obtain h | ⟨hl, hin, h⟩ := doBufWrite_cases (c := c) a d be s
  · rwa [h]
  · rw [h]
    obtain ⟨-, hidle⟩ := (State.locked_eq_false_iff s).1 hl
    obtain ⟨hwf, hinside⟩ := hi.buffer
    exact inv_idle hi hidle s.regs s.status _ ⟨Memory.wf_writeWord hwf, Memory.inside_writeWord hinside hin⟩

theorem inv_doRegWrite (a : BitVec 12) (d : Word) (hi : Inv c s) : Inv c (doRegWrite a d s) := by
  obtain h | ⟨hl, h⟩ := doRegWrite_cases a d s
  · rwa [h]
  · rw [h]
    obtain ⟨hrst, hidle⟩ := (State.locked_eq_false_iff s).1 hl
    obtain h | ⟨rg, st, h, -⟩ := regWrite_cases s d (regAt a)
    · rw [h]
      exact inv_start _ hi hrst
    · rw [h]
      exact inv_idle hi hidle rg st s.buf hi.buffer

theorem inv_exec (hi : Inv Config.params s) (h : exec i s = .next t) : Inv Config.params t := by
  cases exec_effect h with
  | command _ => exact inv_runCommand _ hi
  | engine e => exact inv_eng e hi
  | rdata d => exact inv_rdata d hi
  | bufWrite a d be => exact inv_doBufWrite a d be hi
  | regWrite a d => exact inv_doRegWrite a d hi

theorem inv_coreEvent (hi : Inv c s) (h : coreEvent c s = .next t) : Inv c t := by
  obtain rfl | ⟨hr, rfl⟩ := coreEvent_cases h
  · exact hi
  · exact inv_coreStep hi hr

/-! ### Who writes ACTIVE_CFG and CONFIGURED (10_state R50), and who OUT_LEN (R48) -/

theorem doBufWrite_inst_regs (a d : Word) (be : BitVec 4) (s : State) :
    (doBufWrite c a d be s).inst = s.inst ∧ (doBufWrite c a d be s).regs = s.regs := by
  obtain h | ⟨-, -, h⟩ := doBufWrite_cases (c := c) a d be s <;> (rw [h]; exact ⟨rfl, rfl⟩)

theorem doRegWrite_inst_outLen (a : BitVec 12) (d : Word) (s : State) :
    (doRegWrite a d s).inst = s.inst ∧ (doRegWrite a d s).regs.outLen = s.regs.outLen := by
  obtain h | ⟨-, h⟩ := doRegWrite_cases a d s
  · rw [h]; exact ⟨rfl, rfl⟩
  · rw [h]
    obtain h | ⟨rg, st, h, hout⟩ := regWrite_cases s d (regAt a)
    · rw [h]; exact ⟨rfl, rfl⟩
    · rw [h]; exact ⟨rfl, hout⟩

theorem runCommand_inst (h : seqOpOf op ≠ .configure) : (runCommand c op s).inst = s.inst := by
  unfold runCommand
  split
  · rfl
  · exact runCore_inst _ h

theorem runCommand_regs (h : ¬(seqOpOf op = .sealCmd ∨ seqOpOf op = .openCmd)) :
    (runCommand c op s).regs = s.regs := by
  unfold runCommand
  split
  · rfl
  · exact runCore_regs _ h

/-- A command that the sequencer runs as CONFIGURE, SEAL or OPEN is that operation (30_encoding R116). -/
theorem instr_of_seqOpOf (hf : formatOf i = .cmd) (hwf : i.wellFormed = true) :
    (seqOpOf (opcodeOf i) = .configure → i = .configure) ∧ (seqOpOf (opcodeOf i) = .sealCmd → i = .sealMsg) ∧
      (seqOpOf (opcodeOf i) = .openCmd → i = .openMsg) := by
  by_cases h1 : i = .configure
  · subst h1; decide
  by_cases h2 : i = .sealMsg
  · subst h2; decide
  by_cases h3 : i = .openMsg
  · subst h3; decide
  rw [seqOpOf_opcodeOf_illegal hwf hf h1 h2 h3]
  exact ⟨nofun, nofun, nofun⟩

theorem exec_inst (hwf : i.wellFormed = true) (h : exec i s = .next t) (hne : i ≠ .configure) : t.inst = s.inst := by
  cases exec_effect h with
  | command hf =>
    obtain ⟨hconfigure, -, -⟩ := instr_of_seqOpOf hf hwf
    exact runCommand_inst (mt hconfigure hne)
  | engine _ | rdata _ => rfl
  | bufWrite a d be => exact (doBufWrite_inst_regs a d be s).1
  | regWrite a d => exact (doRegWrite_inst_outLen a d s).1

theorem exec_outLen (hwf : i.wellFormed = true) (h : exec i s = .next t) (hs : i ≠ .sealMsg) (ho : i ≠ .openMsg) :
    t.regs.outLen = s.regs.outLen := by
  cases exec_effect h with
  | command hf =>
    obtain ⟨-, hseal, hopen⟩ := instr_of_seqOpOf hf hwf
    rw [runCommand_regs (not_or.2 ⟨mt hseal hs, mt hopen ho⟩)]
  | engine _ | rdata _ => rfl
  | bufWrite a d be => rw [(doBufWrite_inst_regs a d be s).2]
  | regWrite a d => exact (doRegWrite_inst_outLen a d s).2

/-! ### What a written register reads back as -/

/-- The implemented bits of the registers that keep what is written (10_state R36, R39, R41-R47); none for the
others. -/
def rwMask : Reg → Option Word
  | .cfg => some 0x1F0F
  | .irqEn => some 0x1
  | .nonceLen => some 0x1F
  | .nonceWord _ | .adOff | .adLen | .inOff | .inLen | .outOff => some 0xFFFFFFFF
  | _ => none

theorem regWrite_rst (s : State) (d : Word) (r : Reg) : (regWrite s d r).rst = s.rst := by
  obtain h | ⟨rg, st, h, -⟩ := regWrite_cases s d r
  · rw [h, State.start_rst]
  · rw [h]

/-- A field of a word, put back at its place, is the word under the field's mask. -/
theorem setWidth_extractLsb'_shiftLeft (d : Word) (k n : Nat) :
    (d.extractLsb' k n).setWidth 32 <<< k = d &&& ((BitVec.allOnes n).setWidth 32 <<< k) := by
  ext j hj
  by_cases h : j < k
  · simp [h]
  · simp [h, hj, show k + (j - k) = j by omega, Bool.and_comm]

/-- The lowest bits of a word are the word under their mask. -/
theorem setWidth_extractLsb'_zero (d : Word) (n : Nat) :
    (d.extractLsb' 0 n).setWidth 32 = d &&& (BitVec.allOnes n).setWidth 32 := by
  have h := setWidth_extractLsb'_shiftLeft d 0 n
  rwa [BitVec.shiftLeft_zero, BitVec.shiftLeft_zero] at h

/-- CFG: T in bits 12:8, N in bits 3:0 (10_state R36). -/
theorem cfgFields_eq_and (d : Word) :
    ((d.extractLsb' 8 5).setWidth 32 <<< 8) ||| (d.extractLsb' 0 4).setWidth 32 = d &&& 0x1F0F#32 := by
  rw [setWidth_extractLsb'_shiftLeft, setWidth_extractLsb'_zero, ← BitVec.and_or_distrib_left]
  rfl

/-- IRQ_EN: DONE_IE in bit 0 (10_state R39). -/
theorem flagWord_getLsbD (d : Word) : flagWord (d.getLsbD 0) = d &&& 0x1#32 := by
  rw [BitVec.and_one_eq_setWidth_ofBool_getLsbD]
  cases d.getLsbD 0 <;> rfl

/-- NONCE<k> holds the four lanes written (10_state R41, 20_memory R87). -/
theorem writeNonceWord_read (nb : Block) (k : Fin 4) (d : Word) :
    wordOfLanes (writeNonceWord nb k d)[4 * k.val] (writeNonceWord nb k d)[4 * k.val + 1]
      (writeNonceWord nb k d)[4 * k.val + 2] (writeNonceWord nb k d)[4 * k.val + 3] = d := by
  simp [writeNonceWord, wordOfLanes_of_lanes]

theorem regRead_regWrite {r : Reg} {m : Word} (h : rwMask r = some m) (s : State) (d : Word) :
    regRead c (regWrite s d r) r = d &&& m := by
  have full : d = d &&& 0xFFFFFFFF#32 := BitVec.and_allOnes.symm
  cases r <;> cases h
  case cfg => exact cfgFields_eq_and d
  case irqEn => exact flagWord_getLsbD d
  case nonceLen => exact setWidth_extractLsb'_zero d 5
  case nonceWord k => exact (writeNonceWord_read s.regs.nonce k d).trans full
  -- the registers that store a whole word
  all_goals exact full

/-! ### The nonce store's tail (10_state R41) -/

/-- The state with another nonce store. -/
def State.withNonce (nb : Block) (s : State) : State := { s with regs := { s.regs with nonce := nb } }

/-- The store `nb` holds the nonce of `s` in its first aN bytes. -/
def HoldsNonce (nb : Block) (s : State) : Prop := nb.toList.take s.nonceSize = nonceBytes s s.nonceSize

@[simp] theorem State.withNonce_seq (nb : Block) (s : State) : (s.withNonce nb).seq = s.seq := rfl

@[simp] theorem State.withNonce_locked (nb : Block) (s : State) : (s.withNonce nb).locked = s.locked := rfl

@[simp] theorem sealCheck_withNonce (nb : Block) (s : State) : sealCheck c (s.withNonce nb) = sealCheck c s := rfl

@[simp] theorem openCheck_withNonce (nb : Block) (s : State) : openCheck c (s.withNonce nb) = openCheck c s := rfl

theorem holdsNonce_congr (hregs : t.regs = s.regs) (hinst : t.inst = s.inst) :
    HoldsNonce nb t ↔ HoldsNonce nb s := by
  simp only [HoldsNonce, nonceBytes, State.nonceSize, hregs, hinst]

theorem holdsNonce_of_agree (h : ∀ k (_ : k < 16), k < s.nonceSize → nb[k] = s.regs.nonce[k]) :
    HoldsNonce nb s := by
  apply List.ext_getElem
  · simp [nonceBytes]
  · intro k hk _
    simp only [List.length_take, Vector.length_toList] at hk
    simpa [nonceBytes] using h k (by omega) (by omega)

theorem actCheck_withNonce (nb : Block) (s : State) :
    actCheck c (s.withNonce nb) = (actCheck c s).withNonce nb := by
  unfold actCheck
  rw [State.withNonce_seq, sealCheck_withNonce, openCheck_withNonce]
  cases s.seq.op with
  | sealCmd => dsimp only; split <;> rfl
  | openCmd => dsimp only; split <;> rfl
  | _ => rfl

theorem actInit_withNonce (h : HoldsNonce nb s) : actInit c (s.withNonce nb) = (actInit c s).withNonce nb := by
  have hn : nonceBytes (s.withNonce nb) (s.withNonce nb).nonceSize = nonceBytes s s.nonceSize := h
  unfold actInit
  rw [hn]
  rfl

theorem actDone_withNonce (nb : Block) (s : State) :
    actDone c (s.withNonce nb) = (actDone c s).withNonce nb := by
  unfold actDone commandResults
  rw [State.withNonce_seq]
  cases s.seq.op with
  | configure => dsimp only; split <;> rfl
  | _ => rfl

/-- INIT reads the nonce (43 R233), and no other core step reads the nonce store. -/
theorem coreStep_withNonce (h : HoldsNonce nb s) : coreStep c (s.withNonce nb) = (coreStep c s).withNonce nb := by
  unfold coreStep
  rw [State.withNonce_seq]
  cases s.seq.state with
  | check => exact actCheck_withNonce nb s
  | init => exact actInit_withNonce h
  | done => exact actDone_withNonce nb s
  | _ => rfl

/-- At DONE a core step ends the command (43 R245). -/
theorem coreStep_done (h : s.seq.state = .done) : (coreStep c s).seq.state = .idle := by
  unfold coreStep
  rw [h]
  rfl

theorem runCore_idle (n : Nat) (h : s.seq.state = .idle) : runCore c n s = s := by
  cases n with
  | zero => rfl
  | succ n => exact if_pos h

/-- The store holds the nonce until DONE, where aN may change; but there the run ends. -/
theorem runCore_withNonce (n : Nat) :
    ∀ {s : State}, HoldsNonce nb s → runCore c n (s.withNonce nb) = (runCore c n s).withNonce nb := by
  induction n with
  | zero => intro s _; rfl
  | succ n ih =>
    intro s h
    simp only [runCore, coreStep_withNonce h, State.withNonce_seq]
    split
    · rfl
    · by_cases hd : s.seq.state = .done
      · have hidle := coreStep_done (c := c) hd
        rw [runCore_idle n hidle]
        exact runCore_idle n hidle
      · obtain ⟨hregs, -, hinst, -⟩ := coreStep_regs (c := c) hd
        exact ih ((holdsNonce_congr hregs hinst).2 h)

theorem runCommand_withNonce (h : HoldsNonce nb s) :
    runCommand c op (s.withNonce nb) = (runCommand c op s).withNonce nb := by
  unfold runCommand
  rw [State.withNonce_locked]
  split
  · rfl
  · exact runCore_withNonce (s := s.start op) _ h

/-! ### The statements -/

/-- Settles O53: whatever a step did (`step_effect`), the part it is made of keeps the invariant. -/
theorem stepKeepsInvariant : Obligations.StepKeepsInvariant := by
  intro s t hi h
  obtain ⟨e, es, heffect⟩ := step_effect h
  have hinv : Inv Config.params { s with eng := e, inbox := es } := inv_inbox es (inv_eng e hi)
  cases heffect with
  | run i _ _ hx => exact inv_exec hinv hx
  | core _ hx => exact inv_coreEvent hinv hx
  | reset l _ hx => exact hx ▸ inv_reset l hinv

/-- Settles O21: a ready core stores the implemented bits of the data, and the register reads as those. -/
theorem registerReadsBackImplementedBits : Obligations.RegisterReadsBackImplementedBits := by
  intro s d hready a mask hmem
  have hmask : rwMask (regAt a) = some mask := by
    fin_cases hmem <;> rfl
  have hrst : (regWrite s d (regAt a)).rst = false := (regWrite_rst s d (regAt a)).trans hready.1
  refine ⟨_, exec_regWrite_unlocked a d (unlocked_of_ready hready), ?_⟩
  rw [exec_regRead_served a hrst, regRead_regWrite hmask]

/-- Settles O45: a command word is a run of its opcode, and a locked core starts none. -/
theorem commandIgnoredWhileLocked : Obligations.CommandIgnoredWhileLocked :=
  fun _ _ hlocked hf => exec_cmd_locked hf (hlocked.elim locked_of_busy locked_of_held)

/-- Settles O55: among the operations only CONFIGURE, and among the core's steps only its completion, writes aN, aT and
CONFIGURED. -/
theorem onlyConfigureAndResetWriteInstance : Obligations.OnlyConfigureAndResetWriteInstance := by
  intro s t h hne
  obtain ⟨e, es, heffect⟩ := step_effect h
  cases heffect with
  | run i hact hwf hx =>
    by_cases hi : i = .configure
    · exact .inl (hi ▸ hact)
    · exact absurd (exec_inst hwf hx hi) hne
  | core hact hx =>
    refine .inr (.inr ⟨hact, ?_⟩)
    by_contra hd
    obtain rfl | ⟨-, rfl⟩ := coreEvent_cases hx
    · exact hne rfl
    · exact hne (coreStep_inst hd)
  | reset l hact _ => exact .inr (.inl ⟨l, hact⟩)

/-- Settles O56: among the operations only SEAL and OPEN, and among the core's steps only their completion, writes
OUT_LEN. -/
theorem onlySealAndOpenWriteOutLen : Obligations.OnlySealAndOpenWriteOutLen := by
  intro s t h hne
  obtain ⟨e, es, heffect⟩ := step_effect h
  cases heffect with
  | run i hact hwf hx =>
    by_cases hs : i = .sealMsg
    · exact .inl (hs ▸ hact)
    by_cases ho : i = .openMsg
    · exact .inr (.inl (ho ▸ hact))
    exact absurd (exec_outLen hwf hx hs ho) hne
  | core hact hx =>
    refine .inr (.inr (.inr ⟨hact, ?_⟩))
    by_contra hd
    obtain rfl | ⟨-, rfl⟩ := coreEvent_cases hx
    · exact hne rfl
    · exact hne (congrArg Regs.outLen (coreStep_outLen hd))
  | reset l hact _ => exact .inr (.inr (.inl ⟨l, hact⟩))

/-- Settles O58: a command is a run, and a run reads the nonce store only up to the nonce. -/
theorem nonceTailIgnored : Obligations.NonceTailIgnored := by
  intro s nb i hf _ _ hagree
  refine ⟨_, exec_opcodeOf hf s, (exec_opcodeOf hf _).trans ?_⟩
  exact congrArg Host.Outcome.next (runCommand_withNonce (holdsNonce_of_agree hagree))

end Sys2Proof.Machine
end
